-- ==== Sys2Proof/Word.lean ====
section
/-! DEFINITION. The two widths of the spec (R22, R90, R110): the byte and the 16-bit command word. -/

namespace Sys2Proof

/-- Eight bits: every operand, every byte on the bus, every byte register (R22, R90). -/
abbrev Byte := BitVec 8

/-- The 16-bit command word, by which the host names an operation (R110). -/
abbrev Word := BitVec 16

end Sys2Proof
end

