-- ==== Sys2Proof/Config.lean ====
section
/-! DEFINITION. The parameters of the block that the spec leaves OPEN (R9 to R21), and the free values, which are opaque constants: nothing can be proved of any of them. -/

namespace Sys2Proof

/-- The two values of the bus-state flag (R42). -/
inductive BusState where
  | idle | busy
  deriving DecidableEq, Repr, Inhabited

/-- The three phases of the initialization state machine (R46, R234). -/
inductive Phase where
  | uninit | initializing | ready
  deriving DecidableEq, Repr, Inhabited

/-- Where the display puts a character it receives (R52, R74). -/
inductive DispMode where
  | cursor | glyph
  deriving DecidableEq, Repr, Inhabited

/-- An entry of the Init Sequence (R120): kind 0 is a command byte, kind 1 a number of milliseconds. -/
inductive InitEntry where
  | command (value : Byte)
  | wait (value : Byte)
  deriving DecidableEq, Repr, Inhabited

/-- The configuration of one machine (R53): the OPEN parameters, in types that hold admitted values only (R13, R15, R20, R121, R152, R235).
What they stand for is read off them by Machine/Configuration.lean. -/
structure Config where
  /-- `DIVISOR_CFG`, the admitted result of `computeDivisor` (R11, R152). -/
  divisorCfg : Byte
  /-- `RECOVERY_HALF_PERIOD_US` − 25, so that the half-period is in 25..50, by default 50 (R13). -/
  halfPeriodOver25 : Fin 26 := 25
  /-- `WAIT_POLL_LIMIT`: `none`, or `some n` for `some L` with L = n + 1 (R20: L ≥ 1). -/
  pollLimitPred : Option Nat
  /-- The entries of `INIT_TABLE` between the first and the last, which the spec fixes (R15, R235); the first 253 of them count. -/
  initMiddle : List InitEntry
  /-- `SET_CURSOR_ADDR_BASE` (R16). -/
  cursorBase : Byte
  /-- `SET_GLYPH_ADDR_BASE` (R16). -/
  glyphBase : Byte
  /-- `CURSOR_OFFSET_MAX` (R18). -/
  cursorOffsetMax : Nat
  /-- The display is present and powered together with the block, so that `DISP.PHASE` follows `DCSTAT.PHASE` (R52). -/
  displayFollows : Bool
  deriving DecidableEq, Repr, Inhabited

/-- The configuration of the machine of `State.reset`: some admitted one (R9 to R21 leave it OPEN). -/
opaque Config.board : Config

/-- Free value: how many steps the environment grants the engine at a turn (R79). -/
opaque Config.freeGrant : Nat → Nat

/-- Free value: `env(p)`, the environment's contribution to a line at a read (R86). -/
opaque Config.freeLine : Nat → Bool

/-- Free value: `STATUS.BUSSTATE` after a reset (R42, R291). -/
opaque Config.freeBusState : Nat → BusState

/-- Free value: `DISP.MODE` where the spec leaves it a draw (R52, R218). -/
opaque Config.freeMode : Nat → DispMode

/-- Free value: `DISP.PHASE` of a display that does not follow the block (R52). -/
opaque Config.freePhase : Nat → Phase

/-- Free value: what a read of a register number above 0x9 returns (R71, U18). -/
opaque Config.freeRegister : Nat → BitVec 16

end Sys2Proof
end

