-- ==== Sys2Proof/Machine/Configuration.lean ====
section
/-! DEFINITION. What the parameters stand for (R9 to R20), `computeDivisor` (R151), and the admission of a configuration when it is built (R121, R152, R235, R255). -/

namespace Sys2Proof.Machine

/-- `DEVICE_ADDR7` (R9). -/
def deviceAddr7 : BitVec 7 := 0x3E

/-- `ADDR_BYTE` = `DEVICE_ADDR7 << 1`, the value of `DEVADDR` (R9, R34). -/
def addrByte : Byte := deviceAddr7.setWidth 8 <<< 1

/-- `SEL_COMMAND` (R19, R116). -/
def selCommand : Byte := 0x00

/-- `SEL_DATA` (R19, R116). -/
def selData : Byte := 0x40

/-- `RECOVERY_OUTER_MAX` (R12). -/
def recoveryOuterMax : Nat := 3

/-- `RECOVERY_INNER_MAX` (R12). -/
def recoveryInnerMax : Nat := 16

/-- `CMD_SETTLE_US` (R14). -/
def cmdSettleUs : BitVec 16 := 50

/-- The spec's default for `RECOVERY_HALF_PERIOD_US` (R13, U19). -/
def defaultHalfPeriodUs : Nat := 50

/-- `RECOVERY_HALF_PERIOD_US`, in 25..50 (R13). -/
def halfPeriodUs (c : Config) : BitVec 16 := BitVec.ofNat 16 (25 + c.halfPeriodOver25.val)

/-- `WAIT_POLL_LIMIT` (R20). -/
def waitPollLimit (c : Config) : Option Nat := c.pollLimitPred.map (· + 1)

/-- `INIT_TABLE` (R15, R235): `(1, 50)` first, `(0, 0x01)` last, at most 255 entries in all. -/
def initTable (c : Config) : List InitEntry :=
  .wait 50 :: (c.initMiddle.take 253 ++ [.command 0x01])

/-- `INIT_LEN` (R15). -/
def initLen (c : Config) : Nat := (initTable c).length

/-- The two bytes of an entry, `kind` first (R72, R120). -/
def entryBytes : InitEntry → Byte × Byte
  | .command v => (0, v)
  | .wait v => (1, v)

/-- `MemRead(INIT_ROM, i)` (R23, R72): the pair of entry `i`; `none` where the index does not exist. -/
def memRead (c : Config) (i : Nat) : Option (Byte × Byte) := (initTable c)[i]?.map entryBytes

/-- The bytes of entries from address `a` on (R72). -/
def romCells : Nat → List InitEntry → List (Nat × Byte)
  | _, [] => []
  | a, e :: es => (a, (entryBytes e).1) :: (a + 1, (entryBytes e).2) :: romCells (a + 2) es

/-- `INIT_ROM`, byte-organised (R72): byte 2·i is `kind` and byte 2·i + 1 is `value` of entry i. -/
def initRom (c : Config) : List (Nat × Byte) := romCells 0 (initTable c)

/-- The canonical form of a memory listed as cells: addresses strictly rising. -/
def romWf : List (Nat × Byte) → Bool
  | [] => true
  | [_] => true
  | x :: y :: r => decide (x.1 < y.1) && romWf (y :: r)

/-- `computeDivisor` (R151): `trunc((c / t − 10 − c·r / 10⁹) / 2)` over the rationals, one truncation toward zero, with both
sides of the quotient multiplied by `t·10⁹`. No value for t = 0 (R161 (d)). -/
def computeDivisor (cpuHz busHz riseNs : Nat) : Option Int :=
  if busHz = 0 then none
  else some (Int.tdiv
    ((cpuHz : Int) * 1000000000 - 10 * (busHz : Int) * 1000000000 - (cpuHz : Int) * (riseNs : Int) * (busHz : Int))
    (2 * (busHz : Int) * 1000000000))

/-- `DIVISOR_CFG` (R152): the result of `computeDivisor` where it lies in 0..255; otherwise the configuration is rejected. -/
def admitDivisor (cpuHz busHz riseNs : Nat) : Option Byte :=
  match computeDivisor cpuHz busHz riseNs with
  | none => none
  | some d => if 0 ≤ d ∧ d ≤ 255 then some (BitVec.ofInt 8 d) else none

/-- The parameters as a host gives them, before any check (R11, R13, R15, R16, R18, R20); a half-period that is not given is 50 (R13). -/
structure RawConfig where
  cpuHz : Nat
  busHz : Nat
  riseNs : Nat
  halfPeriodUs : Nat := defaultHalfPeriodUs
  pollLimit : Option Nat
  table : List (Byte × Byte)
  cursorBase : Byte
  glyphBase : Byte
  cursorOffsetMax : Nat
  displayFollows : Bool
  deriving DecidableEq, Repr

/-- Why a configuration is no machine (R255). -/
inductive ConfigReject where
  /-- No divisor in 0..255, or a bus frequency of 0 (R152, U2, U3). -/
  | divisorOutOfRange
  /-- A `kind` byte of 2..255 (R121, U12). -/
  | reservedKind
  /-- The table does not start with `(1, 50)` and end with `(0, 0x01)`, or has fewer than 2 or more than 255 entries (R235, U12). -/
  | tableNotAdmitted
  /-- The half-period is not in 25..50 (R13). -/
  | halfPeriodOutOfRange
  /-- A poll limit of 0 (R20). -/
  | pollLimitZero
  deriving DecidableEq, Repr

/-- An entry read from its two bytes; `none` for a reserved kind (R120, R121). -/
def entryOfBytes (kv : Byte × Byte) : Option InitEntry :=
  if kv.1 = 0 then some (.command kv.2) else if kv.1 = 1 then some (.wait kv.2) else none

/-- The entries between the first and the last, where the table is admitted (R235). -/
def middleOf (t : List InitEntry) : Option (List InitEntry) :=
  match t with
  | .wait 50 :: rest =>
    if rest.getLast? = some (.command 0x01) ∧ t.length ≤ 255 then some rest.dropLast else none
  | _ => none

/-- Building a configuration: the divisor is checked first, then the table (R261 (6)); a rejected one has no machine (R255). -/
def buildConfig (r : RawConfig) : Except ConfigReject Config :=
  match admitDivisor r.cpuHz r.busHz r.riseNs with
  | none => .error .divisorOutOfRange
  | some d =>
    match r.table.mapM entryOfBytes with
    | none => .error .reservedKind
    | some t =>
      match middleOf t with
      | none => .error .tableNotAdmitted
      | some mid =>
        if h : 25 ≤ r.halfPeriodUs ∧ r.halfPeriodUs ≤ 50 then
          if r.pollLimit = some 0 then .error .pollLimitZero
          else .ok {
            divisorCfg := d
            halfPeriodOver25 := ⟨r.halfPeriodUs - 25, by omega⟩
            pollLimitPred := r.pollLimit.map (· - 1)
            initMiddle := mid
            cursorBase := r.cursorBase
            glyphBase := r.glyphBase
            cursorOffsetMax := r.cursorOffsetMax
            displayFollows := r.displayFollows }
        else .error .halfPeriodOutOfRange

end Sys2Proof.Machine
end

