-- ==== Sys2Proof/Syntax.lean ====
section
/-! DEFINITION. The operations of the block: one constructor per row of spec/opcode_table.json (R2, R111, R125, R151). -/

namespace Sys2Proof

/-- The 18 rows of the opcode table. An operand byte is `imm` taken as it is (R126). -/
inductive Instr where
  /-- `BINIT d`: Bus Master `initialize(divisor)` (R153). -/
  | binit (d : Byte)
  /-- `START a`: `start(targetAddressWithDirectionBit)` (R154). -/
  | start (a : Byte)
  /-- `WRB b`: `writeByte(byte)` (R155). -/
  | wrb (b : Byte)
  /-- `STOP`: `stop()` (R157). -/
  | stop
  /-- `DIS`: `disable()` (R159). -/
  | dis
  /-- `EN`: `enable()` (R160). -/
  | en
  /-- `WAIT`: `waitIdle()` (R158). -/
  | wait
  /-- `BRST`: `busReset()` (R190). -/
  | brst
  /-- `DINIT`: Display Controller `initialize()` (R231). -/
  | dinit
  /-- `WCMD c`: `writeCommand(opcode)` (R211). -/
  | wcmd (c : Byte)
  /-- `SCUR o`: `setCursorAddress(offset)` (R212). -/
  | scur (o : Byte)
  /-- `SGLY o`: `setGlyphAddress(offset)` (R213). -/
  | sgly (o : Byte)
  /-- `WCHR b`: `writeChar(byte)` (R214). -/
  | wchr (b : Byte)
  /-- `computeDivisor(cpuFrequencyHz, targetBusFrequencyHz, riseTimeNs)`, which has no command word (R151). -/
  | computeDivisor (cpuHz busHz riseNs : Nat)
  /-- `WARR bytes`: Bus Master `writeArray`, a pseudo-operation (R156). -/
  | warr (bytes : List Byte)
  /-- `DWARR bytes`: Display Controller `writeArray`, a pseudo-operation (R215). -/
  | dwarr (bytes : List Byte)
  /-- `DWSTR bytes`: `writeString(nulTerminatedBytes)`, a pseudo-operation (R216). -/
  | dwstr (bytes : List Byte)
  /-- `ILLEGAL`: a reserved command word, kept whole (R112, R253). -/
  | illegal (w : Word)
  deriving DecidableEq, Repr

/-- The mnemonics an `E_DONE` event can carry (R24, R150, R253): the operations with a command word, and `ILLEGAL`. -/
inductive OpName where
  | binit | start | wrb | stop | dis | en | wait | brst | dinit | wcmd | scur | sgly | wchr | illegal
  deriving DecidableEq, Repr

end Sys2Proof
end

