-- ==== Sys2Proof/Machine/State.lean ====
section
/-! DEFINITION. The state of the block as plain data (R30 to R53), the reasons a step can stop, and the state right after reset (R291). -/

namespace Sys2Proof.Machine

/-- Why the machine stops with a fault. -/
inductive Fault where
  /-- Raised by `execDinit`, resumed with `DC.IP` at or above `INIT_LEN`: the address does not exist in `INIT_ROM` (R72). Safe: the model stops, and no run reaches it. -/
  | initRomIndexOutside
  deriving DecidableEq, Repr

/-- Why the model gives an instruction no meaning. -/
inductive Refusal where
  /-- Raised by an arm of `exec` that has no meaning yet. Safe. -/
  | notModelled (mnemonic : String)
  /-- Raised by `WRB` (and `WARR`) when its wait ends with no open transaction: undefined by the source (R155, R259, U1). Safe. -/
  | byteWithoutTransaction
  /-- Raised by `STOP` when its wait ends with no open transaction: not determined (R302, U1). Safe. -/
  | stopWithoutTransaction
  /-- Raised when the environment grants the engine a `DATA` while the bus-state flag is idle: undefined by the source (R78, U1). Safe. -/
  | dataWhileBusIdle
  /-- Raised by `DWSTR` over a list without `0x00`: outside the contract, no effect given (R216, U6). Safe. -/
  | unterminatedString
  /-- Raised by an operation issued while another is in progress: the block has no way to accept one (R303, U15). Safe. -/
  | commandWhileBusy
  /-- Raised by a step whose host names a term that is no operation (`Instr.wellFormed` is false). Safe. -/
  | illFormedCall
  /-- Raised by `Safety.contractStep` alone, for a contract violation (R258). Safe. -/
  | contractViolation
  deriving DecidableEq, Repr

/-- The result codes (R44, R123); codes 4 to 7 are never written (U17). -/
inductive ResultCode where
  | ok | timedOut | recoveryExhausted | illegalCommand
  deriving DecidableEq, Repr

/-- The two bus pins (R21): the data line and the clock line. -/
inductive PinName where
  | sda | scl
  deriving DecidableEq, Repr

/-- `IN` = 0 and `OUT` = 1 (R48). -/
inductive PinDir where
  | input | output
  deriving DecidableEq, Repr

/-- The three bits the pin control holds for a pin (R48). `IN` is not stored. -/
structure Pin where
  /-- `DIR`. -/
  dir : PinDir
  /-- `OUT`, the level driven when `DIR = OUT`. -/
  out : Bool
  /-- `PU`, the pull-up is enabled. -/
  pu : Bool
  deriving DecidableEq, Repr

/-- A wire action (R50). -/
inductive WireAction where
  | addr (a : Byte)
  | data (b : Byte)
  | stop
  deriving DecidableEq, Repr

/-- The events of the trace (R24): control events of the sequencer, then wire events of the engine. -/
inductive Event where
  | setDivisor (d : Byte)
  | enable
  | disable
  | clearFlags
  | forceIdle
  | issueAddr (a : Byte)
  | issueData (b : Byte)
  | issueStop
  | pinDir (p : PinName) (d : PinDir)
  | pinOut (p : PinName) (l : Bool)
  | pinPu (p : PinName) (e : Bool)
  | pinRead (p : PinName) (l : Bool)
  | delayUs (n : BitVec 16)
  | delayMs (n : BitVec 16)
  | done (op : OpName) (code : ResultCode)
  | wStart (a : Byte)
  | wRstart (a : Byte)
  | wByte (b : Byte)
  | wStop
  deriving DecidableEq, Repr

/-- Where an operation is entered: at its start, or at one of its waits, which are where it can be held (R158, R219). -/
inductive Stage where
  | start | wait1 | wait2 | wait3
  deriving DecidableEq, Repr

/-- The sequencer: idle, or inside an operation, held in a wait that no flag has lifted yet (R99, R158). -/
inductive Seq where
  | idle
  | waiting (i : Instr) (k : Stage)
  deriving DecidableEq, Repr

/-- What the host asks of the block: a command word (R110); an operation by its name, for those that have no word (R111, R125); a read of register number `n` (R47, R71). -/
inductive Request where
  | word (w : Word)
  | call (i : Instr)
  | read (n : Nat)
  deriving DecidableEq, Repr

/-- The value last handed to the host. -/
inductive Answer where
  /-- Nothing has been handed over yet. -/
  | none
  /-- `computeDivisor` with a bus frequency of 0 (R161 (d)). -/
  | noValue
  /-- The mathematical integer `computeDivisor` returned (R151). -/
  | divisor (d : Int)
  /-- The value read from a register (R71). -/
  | register (n : Nat) (v : BitVec 16)
  deriving DecidableEq, Repr

/-- The state of the machine. `DEVADDR` is hard-wired (R34) and `PIN[p].IN` is not stored (R48). -/
structure State where
  /-- `MADDR` (R31). -/
  maddr : Byte
  /-- `MDATA` (R32). -/
  mdata : Byte
  /-- `DIVISOR` (R33). -/
  divisor : Byte
  /-- `CTRL.ENABLE` (R43). -/
  ctrlEnable : Bool
  /-- `STATUS.WIF`, the write-complete flag (R40). -/
  wif : Bool
  /-- `STATUS.RIF`, the read-complete flag (R41). -/
  rif : Bool
  /-- `STATUS.BUSSTATE` (R42). -/
  busState : BusState
  /-- `RESULT` (R44). -/
  result : ResultCode
  /-- `FAULTS` (R45): bit 0 `TIMED_OUT`, bit 1 `RECOVERY_EXHAUSTED`, bit 2 `ILLEGAL_COMMAND`. -/
  faults : BitVec 3
  /-- `DCSTAT.PHASE` (R46). -/
  phase : Phase
  /-- `DC.IP`, which is also `DCSTAT.IP` (R36, R46). -/
  dcIp : Byte
  /-- `RC.OUTER` (R37). -/
  rcOuter : BitVec 2
  /-- `RC.INNER` (R37). -/
  rcInner : BitVec 5
  /-- `WC`, the poll counter (R38). -/
  wc : Nat
  /-- `PIN[SDA]` (R48). -/
  sda : Pin
  /-- `PIN[SCL]` (R48). -/
  scl : Pin
  /-- `Q`, the engine queue, oldest action first (R50). -/
  q : List WireAction
  /-- `G.BM_INITED` (R51). -/
  bmInited : Bool
  /-- `G.BUS_RESET` (R51). -/
  busReset : Bool
  /-- `G.TXN_OPEN` (R51). -/
  txnOpen : Bool
  /-- `DISP.PHASE` (R52). -/
  dispPhase : Phase
  /-- `DISP.MODE` (R52). -/
  dispMode : DispMode
  /-- The trace, oldest event first (R24). -/
  trace : List Event
  /-- An operation was issued against its contract (R99, R258). -/
  violated : Bool
  /-- The operation in progress, if any (R99, R158). -/
  seq : Seq
  /-- The host's requests still to come (R39, R53). -/
  host : List Request
  /-- The value last handed to the host. -/
  answer : Answer
  /-- The environment's next grants: how many steps the engine may take at each turn (R79). -/
  envGrants : List Nat
  /-- The environment's next contributions `env(p)`, one per line read (R86). -/
  envLines : List Bool
  /-- The environment's next resets: how many points of the machine pass before each (R290). A point lies before every action of the
  sequencer and in every poll. -/
  envResets : List Nat
  /-- How many draws have been made (R27): the index of the next one, so that no draw reuses the value of an earlier one. -/
  draws : Nat
  /-- The reset input is asserted: nothing more happens before the reset event (R290). -/
  resetIn : Bool
  /-- The configuration (R53). -/
  cfg : Config
  deriving DecidableEq, Repr

/-- A pin after reset: released, level 0, no pull-up (R291). -/
def Pin.reset : Pin := { dir := .input, out := false, pu := false }

/-- The machine right after reset (R291), with no request of the host and no answer of the environment fixed. `DISP.PHASE` is
`Uninitialized` if the display powers up with the block, and unknown otherwise (R291): a free value. Its free
values are those of index 0, so the next draw is the one of index 1 (R27). -/
def State.reset : State where
  maddr := 0x00
  mdata := 0x00
  divisor := 0x00
  ctrlEnable := false
  wif := false
  rif := false
  busState := Config.freeBusState 0
  result := .ok
  faults := 0
  phase := .uninit
  dcIp := 0
  rcOuter := 0
  rcInner := 0
  wc := 0
  sda := Pin.reset
  scl := Pin.reset
  q := []
  bmInited := false
  busReset := false
  txnOpen := false
  dispPhase := if Config.board.displayFollows then .uninit else Config.freePhase 0
  dispMode := Config.freeMode 0
  trace := []
  violated := false
  seq := .idle
  host := []
  answer := .none
  envGrants := []
  envLines := []
  envResets := []
  draws := 1
  resetIn := false
  cfg := Config.board

end Sys2Proof.Machine
end

