-- ==== Sys2Proof/Machine/Flags.lean ====
section
/-! DEFINITION. The flags (R40 to R45), the levels of the lines (R81, R86) and the register read port (R47, R71). -/

namespace Sys2Proof.Machine

/-- Engine-ready (R26): what `WaitIdle` polls. It is not bus-idle. -/
def engineReady (s : State) : Bool := s.wif || s.rif

/-- The number of a result code (R123). -/
def ResultCode.number : ResultCode → BitVec 3
  | .ok => 0
  | .timedOut => 1
  | .recoveryExhausted => 2
  | .illegalCommand => 3

/-- The sticky bit of `FAULTS` that a result code sets (R45); `OK` sets none. -/
def ResultCode.faultBit : ResultCode → BitVec 3
  | .ok => 0b000
  | .timedOut => 0b001
  | .recoveryExhausted => 0b010
  | .illegalCommand => 0b100

/-- The bits of a phase in `DCSTAT` (R46). -/
def phaseBits : Phase → BitVec 2
  | .uninit => 0
  | .initializing => 1
  | .ready => 2

/-- `STATUS.BUSSTATE` as a bit (R42). -/
def busBit : BusState → Bool
  | .idle => false
  | .busy => true

/-- `PIN[p].DIR` as a bit (R48). -/
def dirBit : PinDir → Bool
  | .input => false
  | .output => true

/-- The pin registers of pin `p` (R48). -/
def State.pin (s : State) : PinName → Pin
  | .sda => s.sda
  | .scl => s.scl

/-- `own(p)` (R86): what the block drives; a released line counts as 1. -/
def ownLevel (p : Pin) : Bool :=
  match p.dir with
  | .output => p.out
  | .input => true

/-- The level of line `p` when the environment contributes `env`: while the engine is off, `own(p) AND env(p)` (R86);
while it is on, the pin bits have no effect (R81) and the level is the draw alone. -/
def lineLevel (s : State) (p : PinName) (env : Bool) : Bool :=
  if s.ctrlEnable then env else ownLevel (s.pin p) && env

/-- The environment's contribution to the `k`-th line read from here: its next answers, then free values (R86). -/
def envLineAt (s : State) (k : Nat) : Bool := s.envLines.getD k (Config.freeLine (s.draws + k))

/-- A byte from its eight bits, bit 0 first. -/
def byteOfBits (b0 b1 b2 b3 b4 b5 b6 b7 : Bool) : Byte :=
  BitVec.ofBool b7 ++ BitVec.ofBool b6 ++ BitVec.ofBool b5 ++ BitVec.ofBool b4
    ++ BitVec.ofBool b3 ++ BitVec.ofBool b2 ++ BitVec.ofBool b1 ++ BitVec.ofBool b0

/-- `CTRL` (R47, number 0x0). -/
def ctrlReg (s : State) : Byte := byteOfBits s.ctrlEnable false false false false false false false

/-- `STATUS` (R47, number 0x2). -/
def statusReg (s : State) : Byte := byteOfBits (busBit s.busState) s.wif s.rif false false false false false

/-- `DCSTAT` (R47, number 0x7): `IP` in bits 15:8, `PHASE` in bits 1:0. -/
def dcstatReg (s : State) : BitVec 16 := s.dcIp ++ ((0 : BitVec 6) ++ phaseBits s.phase)

/-- `PINCTL` (R47, number 0x9), with the `IN` bits as the lines read. -/
def pinctlReg (s : State) : Byte :=
  byteOfBits
    (dirBit s.sda.dir) s.sda.out s.sda.pu (lineLevel s .sda (envLineAt s 0))
    (dirBit s.scl.dir) s.scl.out s.scl.pu (lineLevel s .scl (envLineAt s 1))

/-- A read of register number `n` by the host: the register whole, at its own width, zero above it (R47, R71);
above 0x9 no register exists and the value is free (U18). -/
def readReg (s : State) : Nat → BitVec 16
  | 0x0 => (ctrlReg s).setWidth 16
  | 0x1 => s.divisor.setWidth 16
  | 0x2 => (statusReg s).setWidth 16
  | 0x3 => s.maddr.setWidth 16
  | 0x4 => s.mdata.setWidth 16
  | 0x5 => s.result.number.setWidth 16
  | 0x6 => s.faults.setWidth 16
  | 0x7 => dcstatReg s
  | 0x8 => addrByte.setWidth 16
  | 0x9 => (pinctlReg s).setWidth 16
  | _ => Config.freeRegister s.draws

end Sys2Proof.Machine
end

