-- ==== Sys2Proof/Machine/Operands.lean ====
section
/-! DEFINITION. The operand forms (R126): the byte as it is, and the 8-bit OR of a command base with an offset (R117, R118); and what makes an operand legal (R17, R18, R113). -/

namespace Sys2Proof.Machine

/-- The set-cursor-address command byte (R117). -/
def cursorCommand (c : Config) (o : Byte) : Byte := c.cursorBase ||| o

/-- The set-glyph-address command byte (R118). -/
def glyphCommand (c : Config) (o : Byte) : Byte := c.glyphBase ||| o

/-- A legal cursor offset (R18): at most `CURSOR_OFFSET_MAX`, no bit in common with the base. -/
def legalCursorOffset (c : Config) (o : Byte) : Bool :=
  decide (o.toNat ≤ c.cursorOffsetMax) && decide (o &&& c.cursorBase = 0)

/-- A legal glyph offset (R17): a multiple of 8, at most 40. -/
def legalGlyphOffset (o : Byte) : Bool := decide (o.toNat % 8 = 0) && decide (o.toNat ≤ 40)

/-- The direction bit of an address byte is 0, write (R113). -/
def writeDirection (a : Byte) : Bool := !a.getLsbD 0

/-- A command byte has the form of a set-address command (R218) when it is one of the bases OR some offset: it has every bit of that base. -/
def setAddressForm (c : Config) (b : Byte) : Bool :=
  decide (b &&& c.cursorBase = c.cursorBase) || decide (b &&& c.glyphBase = c.glyphBase)

/-- Milliseconds of a wait entry as a delay argument (R120, R270). -/
def delayArg (v : Byte) : BitVec 16 := v.setWidth 16

end Sys2Proof.Machine
end

