-- ==== Sys2Proof/Machine/Ops.lean ====
section
/-! DEFINITION. The named operations every meaning is built from: the primitives of R23, the engine's step (R78) and its turns, the wait (R158), and the two ways an operation ends (R254). -/

namespace Sys2Proof.Machine

/-- What a step answers. -/
abbrev Out := Host.Outcome State Fault Refusal

/-- `emit` (R23): append an event to the trace. -/
def emit (e : Event) (s : State) : State := { s with trace := s.trace ++ [e] }

/-! ### The engine -/

/-- An engine standing before a `DATA` with the bus idle: performing it is undefined (R78, U1). -/
def atUndefinedByte (s : State) : Bool :=
  s.ctrlEnable &&
    match s.q, s.busState with
    | .data _ :: _, .idle => true
    | _, _ => false

/-- The engine's step is enabled and defined (R78): enabled, something queued, not standing before an undefined byte, and not under an
asserted reset (R290). -/
def performable (s : State) : Bool := s.ctrlEnable && !s.q.isEmpty && !atUndefinedByte s && !s.resetIn

/-- A start when the bus is idle, a repeated start when it is busy (R78). -/
def startEvent : BusState → Byte → Event
  | .idle, a => .wStart a
  | .busy, a => .wRstart a

/-- The engine's step, **perform** (R78), on an engine that may take it. The acknowledge is never looked at (R80). -/
def perform (s : State) : State :=
  match s.q with
  | [] => s
  | .addr a :: q =>
    { s with
      q := q
      busState := .busy
      wif := true
      trace := s.trace ++ [startEvent s.busState a] }
  | .data b :: q => { s with q := q, wif := true, trace := s.trace ++ [.wByte b] }
  | .stop :: q => { s with q := q, busState := .idle, trace := s.trace ++ [.wStop] }

/-- Up to `n` engine steps, one action each, in issue order (R94). -/
def performUpTo : Nat → State → State
  | 0, s => s
  | n + 1, s => if performable s then performUpTo n (perform s) else s

/-- How many steps the environment grants at this turn (R79): its next answer, then free values. -/
def grantNow (s : State) : Nat :=
  match s.envGrants with
  | g :: _ => g
  | [] => Config.freeGrant s.draws

/-- The environment has given its grant. -/
def grantTaken (s : State) : State :=
  match s.envGrants with
  | _ :: gs => { s with envGrants := gs }
  | [] => { s with draws := s.draws + 1 }

/-- The engine's turn between two sequencer actions (R8, R79): it takes as many steps as it is granted. An engine that is off or
has nothing queued takes none and asks for no grant. -/
def engineTurn (s : State) : State :=
  if performable s then performUpTo (min (grantNow s) s.q.length) (grantTaken s) else s

/-- A point at which the reset input may be asserted (R290): the environment's next reset comes here, or one point nearer. -/
def resetPoint (s : State) : State :=
  if s.resetIn then s
  else
    match s.envResets with
    | [] => s
    | 0 :: ns => { s with resetIn := true, envResets := ns }
    | (n + 1) :: ns => { s with envResets := n :: ns }

/-- One sequencer action: the engine's turn before it, and a point at which a reset may cut the operation short (R93, R290). Under an
asserted reset nothing happens. -/
def runAction (act : State → State) (s : State) : State :=
  let s := resetPoint (engineTurn s)
  if s.resetIn then s else act s

/-- Sequencer actions in program order (R93). -/
def runActions : List (State → State) → State → State
  | [], s => s
  | act :: acts, s => runActions acts (runAction act s)

/-! ### The sequencer's primitives -/

/-- The event of an issue (R77). -/
def issueEvent : WireAction → Event
  | .addr a => .issueAddr a
  | .data b => .issueData b
  | .stop => .issueStop

/-- `BusIssue(a)` (R77): the flags fall, the register is loaded, the action is queued. -/
def busIssue (a : WireAction) (s : State) : State :=
  { s with
    wif := false
    rif := false
    maddr := match a with | .addr x => x | _ => s.maddr
    mdata := match a with | .data x => x | _ => s.mdata
    q := s.q ++ [a]
    trace := s.trace ++ [issueEvent a] }

/-- Issue a start and open the transaction (R154). -/
def openTransaction (a : Byte) (s : State) : State := { busIssue (.addr a) s with txnOpen := true }

/-- Issue a stop and close the transaction (R157). -/
def closeTransaction (s : State) : State := { busIssue .stop s with txnOpen := false }

/-- Program the divisor (R153). -/
def setDivisor (d : Byte) (s : State) : State := emit (.setDivisor d) { s with divisor := d }

/-- `CTRL.ENABLE <- 1` (R153, R160). -/
def enableEngine (s : State) : State := emit .enable { s with ctrlEnable := true }

/-- Clear both completion flags (R153). -/
def clearFlags (s : State) : State := emit .clearFlags { s with wif := false, rif := false }

/-- Force the bus-state flag to idle (R153, R160). -/
def forceIdle (s : State) : State := emit .forceIdle { s with busState := .idle }

/-- The actions of `DIS` (R159): disable, drop the queue, close the ghost transaction. -/
def disableEngine (s : State) : State := emit .disable { s with ctrlEnable := false, q := [], txnOpen := false }

/-- Write the pin registers of `p`. -/
def setPin (p : PinName) (v : Pin) (s : State) : State :=
  match p with
  | .sda => { s with sda := v }
  | .scl => { s with scl := v }

/-- `PinSetDirection(p, d)` (R85). -/
def pinSetDirection (p : PinName) (d : PinDir) (s : State) : State :=
  emit (.pinDir p d) (setPin p { s.pin p with dir := d } s)

/-- `PinWrite(p, l)` (R85). -/
def pinWrite (p : PinName) (l : Bool) (s : State) : State :=
  emit (.pinOut p l) (setPin p { s.pin p with out := l } s)

/-- `PinSetPullup(p, e)` (R85). -/
def pinSetPullup (p : PinName) (e : Bool) (s : State) : State :=
  emit (.pinPu p e) (setPin p { s.pin p with pu := e } s)

/-- `setDirectionMask(m, o)` (R84): `setDirection` for each pin of the mask. No operation uses it. -/
def pinSetDirectionMask (m : List PinName) (d : PinDir) (s : State) : State := m.foldl (fun s p => pinSetDirection p d s) s

/-- `writeMask(m, l)` (R84): `write` for each pin of the mask. No operation uses it. -/
def pinWriteMask (m : List PinName) (l : Bool) (s : State) : State := m.foldl (fun s p => pinWrite p l s) s

/-- `toggle(p)` (R84): `write(p, not PIN[p].OUT)`. No operation uses it. -/
def pinToggle (p : PinName) (s : State) : State := pinWrite p (!(s.pin p).out) s

/-- The environment has answered one line read. -/
def lineTaken (s : State) : State :=
  match s.envLines with
  | _ :: ls => { s with envLines := ls }
  | [] => { s with draws := s.draws + 1 }

/-- `PinRead(p)` (R86): the level of the line, and the state after the read. -/
def pinRead (p : PinName) (s : State) : Bool × State :=
  let l := lineLevel s p (envLineAt s 0)
  (l, emit (.pinRead p l) (lineTaken s))

/-- `DelayUs(n)` (R270): an event, after which the engine has its turn like after any action. -/
def delayUs (n : BitVec 16) (s : State) : State := emit (.delayUs n) s

/-- `DelayMs(n)` (R270). -/
def delayMs (n : BitVec 16) (s : State) : State := emit (.delayMs n) s

/-! ### The display-side ghost state -/

/-- `DISP.MODE <- m` (R212, R213). -/
def setMode (m : DispMode) (s : State) : State := { s with dispMode := m }

/-- `DISP.MODE` becomes a draw (R52, R218). -/
def drawMode (s : State) : State := { s with dispMode := Config.freeMode s.draws, draws := s.draws + 1 }

/-- `DISP.PHASE` follows `DCSTAT.PHASE` where the display is powered with the block, and is free where it is not (R52). -/
def displayPhase (p : Phase) (s : State) : State :=
  { s with dispPhase := if s.cfg.displayFollows then p else Config.freePhase s.draws, draws := s.draws + 1 }

/-! ### How an operation ends, and how it waits -/

/-- `done` (R254): the operation has ended `OK`, and the block accepts the next request. -/
def doneWith (op : OpName) (s : State) : State := emit (.done op .ok) { s with result := .ok, seq := .idle }

/-- `fail c` (R254): the operation ends at once with code `c` and its sticky bit; what was done before stays. -/
def failWith (op : OpName) (c : ResultCode) (s : State) : State :=
  emit (.done op c) { s with result := c, faults := s.faults ||| c.faultBit, seq := .idle }

/-- Where a run of sequencer actions stands: it goes on, or the poll of wait `k` found no flag. Under an asserted reset it goes on, and
every action left does nothing. -/
inductive Flow where
  | go (s : State)
  | blocked (k : Stage) (s : State)

/-- Go on after a wait. -/
def Flow.andThen (f : Flow) (next : State → Flow) : Flow :=
  match f with
  | .go s => next s
  | .blocked k s => .blocked k s

/-- `WC <- 0` (R158). -/
def clearPolls (s : State) : State := { s with wc := 0 }

/-- `WC <- WC + 1` (R158). -/
def countPoll (s : State) : State := { s with wc := s.wc + 1 }

/-- Operation `i` stays held in wait `k` (R158). -/
def holdIn (i : Instr) (k : Stage) (s : State) : State := { s with seq := .waiting i k }

/-- One poll of `WaitIdle` at wait `k` (R158). `fresh` is true on entry, where `WC <- 0`; the engine has its turn before every poll. An
asserted reset ends the wait (R257, R290). -/
def waitIdle (k : Stage) (fresh : Bool) (s : State) : Flow :=
  let s := resetPoint (engineTurn (if fresh && !s.resetIn then clearPolls s else s))
  if s.resetIn || engineReady s then .go s else .blocked k s

/-- The poll just made without a flag was the last that `WAIT_POLL_LIMIT` allows (R158). -/
def lastPoll (s : State) : Bool :=
  match waitPollLimit s.cfg with
  | none => false
  | some l => decide (l ≤ s.wc)

/-- A poll found no flag (R158): `WC <- WC + 1`; at the limit the operation ends `TIMED_OUT`, the earlier action still at the head of
`Q`, not performed (R262); otherwise operation `i` stays held in wait `k`. With no limit it is held until a flag rises, for ever if
none does: the hang of R257. -/
def pollFailed (op : OpName) (i : Instr) (k : Stage) (s : State) : State :=
  let s := countPoll s
  if lastPoll s then failWith op .timedOut s else holdIn i k s

end Sys2Proof.Machine
end

