-- ==== Sys2Proof/Machine/Contract.lean ====
section
/-! DEFINITION. The contract of each operation, its *Requires* line (R295 collects them), and how an operation is taken up. The hardware checks no contract (R258): the model runs the operation as its rule says and records the violation. -/

namespace Sys2Proof.Machine

/-- What `START` requires of the state (R154). -/
def startAllowed (s : State) : Bool := s.bmInited && s.ctrlEnable && !s.txnOpen

/-- What every framer operation requires (R210). -/
def frameAllowed (s : State) : Bool := startAllowed s && decide (s.phase = .ready)

/-- An action whose performing raises a flag (R78). -/
def raisesFlag : WireAction → Bool
  | .addr _ => true
  | .data _ => true
  | .stop => false

/-- A flag is up, or something issued will raise one (R158, R295). -/
def flagWillRise (s : State) : Bool := engineReady s || (s.ctrlEnable && s.q.any raisesFlag)

/-- The *Requires* line of each operation (R295, and R151, R153, R156, R212, R213, R215, R216). -/
def requires : Instr → State → Bool
  | .binit d, s => !s.bmInited && decide (d = s.cfg.divisorCfg)
  | .start a, s => startAllowed s && writeDirection a
  | .wrb _, s => s.txnOpen
  | .stop, s => s.txnOpen
  | .dis, _ => true
  | .en, s => s.bmInited
  | .wait, s => flagWillRise s
  | .brst, s => s.bmInited
  | .dinit, s => s.bmInited && s.busReset && s.ctrlEnable && !s.txnOpen && decide (s.phase ≠ .ready)
  | .wcmd _, s => frameAllowed s
  | .scur o, s => frameAllowed s && legalCursorOffset s.cfg o
  | .sgly o, s => frameAllowed s && legalGlyphOffset o
  | .wchr _, s => frameAllowed s
  | .computeDivisor _ t _, _ => decide (t ≠ 0)
  | .warr bytes, s => bytes.isEmpty || s.txnOpen
  | .dwarr _, s => frameAllowed s
  | .dwstr bytes, s => frameAllowed s && bytes.contains 0x00
  | .illegal _, _ => true

/-- Record whether the contract of operation `i` holds when it is issued (R99, R258). -/
def recordContract (i : Instr) (s : State) : State := { s with violated := s.violated || !requires i s }

/-- Take up operation `i` (R303): an idle block starts it, recording whether its contract holds; a block held inside `i` goes on with
it; a block held inside another operation has no way to accept it. -/
def accept (i : Instr) (s : State) (body : Stage → State → Out) : Out :=
  match s.seq with
  | .idle => body .start (recordContract i s)
  | .waiting j k => if j = i then body k s else .refused .commandWhileBusy

/-- The engine's turn where it stands before an undefined byte: granted, the run has no meaning (R78, U1); withheld, it goes on. -/
def engineGate (s : State) (body : State → Out) : Out :=
  if atUndefinedByte s then
    if grantNow s = 0 then body (grantTaken s) else .refused .dataWhileBusIdle
  else body s

/-- Take up an operation, the engine before it where it may be (R78). -/
def enter (i : Instr) (s : State) (body : Stage → State → Out) : Out :=
  accept i s fun k s => engineGate s fun s => body k s

end Sys2Proof.Machine
end

