-- ==== Sys2Proof/Machine/BusMaster.lean ====
section
/-! DEFINITION. The Bus Master operations `BINIT`, `START`, `WRB`, `STOP`, `WAIT`, `DIS`, `EN` (40_bus_master.md R153 to R160). -/

namespace Sys2Proof.Machine

/-- The last line of `BINIT` (R153): the queue is dropped and the ghost bits are set. -/
def binitGhost (s : State) : State := { s with q := [], txnOpen := false, bmInited := true, busReset := false }

/-- `BINIT d` (R153): the four actions in the order the source lists them. -/
def execBinit (d : Byte) (s : State) : Out :=
  enter (.binit d) s fun _ s =>
    .next (runActions [setDivisor d, enableEngine, clearFlags, forceIdle, binitGhost, doneWith .binit] s)

/-- `START a` (R154): it never waits. -/
def execStart (a : Byte) (s : State) : Out :=
  enter (.start a) s fun _ s => .next (runActions [openTransaction a, doneWith .start] s)

/-- `WRB b` inside operation `i` (R155): wait, then issue the byte; what the byte does without an open transaction is undefined (U1).
`next` is what follows in `i` once the byte is issued. -/
def writeByte (b : Byte) (i : Instr) (k : Stage) (s : State) (next : State → Out) : Out :=
  match waitIdle .wait1 (decide (k = .start)) s with
  | .blocked k s => .next (pollFailed .wrb i k s)
  | .go s =>
    if s.resetIn || s.txnOpen then next (runActions [busIssue (.data b), doneWith .wrb] s) else .refused .byteWithoutTransaction

/-- `WRB b` (R155). -/
def execWrb (b : Byte) (s : State) : Out :=
  enter (.wrb b) s fun k s => writeByte b (.wrb b) k s .next

/-- `STOP` (R157): wait, then issue the stop condition; without an open transaction that is not determined (U1). -/
def execStop (s : State) : Out :=
  enter .stop s fun k s =>
    match waitIdle .wait1 (decide (k = .start)) s with
    | .blocked k s => .next (pollFailed .stop .stop k s)
    | .go s =>
      if s.resetIn || s.txnOpen then .next (runActions [closeTransaction, doneWith .stop] s) else .refused .stopWithoutTransaction

/-- `WAIT` (R158): the flags are polled and stay as they are. -/
def execWait (s : State) : Out :=
  enter .wait s fun k s =>
    match waitIdle .wait1 (decide (k = .start)) s with
    | .blocked k s => .next (pollFailed .wait .wait k s)
    | .go s => .next (runActions [doneWith .wait] s)

/-- `DIS` (R159). -/
def execDis (s : State) : Out :=
  enter .dis s fun _ s => .next (runActions [disableEngine, doneWith .dis] s)

/-- The actions of `EN` (R160), which are also step 3 of `BRST` (R195). -/
def enableActions : List (State → State) :=
  [enableEngine, pinSetDirection .sda .input, pinSetDirection .scl .input, forceIdle]

/-- `EN` (R160). -/
def execEn (s : State) : Out :=
  enter .en s fun _ s => .next (runActions (enableActions ++ [doneWith .en]) s)

end Sys2Proof.Machine
end

