-- ==== Sys2Proof/Machine/Framer.lean ====
section
/-! DEFINITION. The Display Controller framer: the display transaction (R219) and `WCMD`, `SCUR`, `SGLY`, `WCHR` (42_display_controller.md R210 to R218). -/

namespace Sys2Proof.Machine

/-- `Frame` after its third wait (R219). -/
def frameAfterWait3 (s : State) : Flow := .go (runActions [closeTransaction] s)

/-- `Frame` after its second wait (R219). -/
def frameAfterWait2 (x : Byte) (s : State) : Flow :=
  (waitIdle .wait3 true (runActions [busIssue (.data x)] s)).andThen frameAfterWait3

/-- `Frame` after its first wait (R219). -/
def frameAfterWait1 (sel x : Byte) (s : State) : Flow :=
  (waitIdle .wait2 true (runActions [busIssue (.data sel)] s)).andThen (frameAfterWait2 x)

/-- `Frame(sel, x)` (R219), entered at its start or at the wait it was held in. -/
def frame (sel x : Byte) : Stage → State → Flow
  | .start, s => (waitIdle .wait1 true (runActions [openTransaction addrByte] s)).andThen (frameAfterWait1 sel x)
  | .wait1, s => (waitIdle .wait1 false s).andThen (frameAfterWait1 sel x)
  | .wait2, s => (waitIdle .wait2 false s).andThen (frameAfterWait2 x)
  | .wait3, s => (waitIdle .wait3 false s).andThen frameAfterWait3

/-- A framer operation (R210): the transaction, then `DISP.MODE` as R218 says, then `done`; a wait that times out ends it there.
`unsettle` is what happens to `DISP.MODE` as the operation starts, and stays if it never ends `OK`; `settle` is what happens when the
transaction is through. -/
def framerOp (op : OpName) (i : Instr) (sel x : Byte) (unsettle settle : State → State) (k : Stage) (s : State) : State :=
  match frame sel x k (if k = .start then unsettle s else s) with
  | .go s => runActions [settle, doneWith op] s
  | .blocked k s => pollFailed op i k s

/-- What a raw command byte does to `DISP.MODE` (R218): a draw where it has the form of a set-address command. -/
def modeAfterCommand (c : Byte) (s : State) : State := if setAddressForm s.cfg c then drawMode s else s

/-- `WCMD c` (R211). -/
def execWcmd (c : Byte) (s : State) : Out :=
  enter (.wcmd c) s fun k s =>
    .next (framerOp .wcmd (.wcmd c) selCommand c (modeAfterCommand c) id k s)

/-- `SCUR o` (R212). -/
def execScur (o : Byte) (s : State) : Out :=
  enter (.scur o) s fun k s =>
    .next (framerOp .scur (.scur o) selCommand (cursorCommand s.cfg o) drawMode (setMode .cursor) k s)

/-- `SGLY o` (R213). -/
def execSgly (o : Byte) (s : State) : Out :=
  enter (.sgly o) s fun k s =>
    .next (framerOp .sgly (.sgly o) selCommand (glyphCommand s.cfg o) drawMode (setMode .glyph) k s)

/-- `WCHR b` (R214): `DISP.MODE` is not changed. -/
def execWchr (b : Byte) (s : State) : Out :=
  enter (.wchr b) s fun k s => .next (framerOp .wchr (.wchr b) selData b id id k s)

end Sys2Proof.Machine
end

