-- ==== Sys2Proof/Machine/DisplayInit.lean ====
section
/-! DEFINITION. The power-on initialization state machine `DINIT` (43_display_init.md R230 to R236). -/

namespace Sys2Proof.Machine

/-- `DCSTAT.PHASE <- INITIALIZING ; DC.IP <- 0` (R231). From here on the display's mode is unknown: it stays so if `DINIT` does not end
`OK` (R236). -/
def beginInit (s : State) : State := drawMode (displayPhase .initializing { s with phase := .initializing, dcIp := 0 })

/-- `DC.IP <- DC.IP + 1` (R231). -/
def nextEntry (s : State) : State := { s with dcIp := s.dcIp + 1 }

/-- `DCSTAT.PHASE <- READY` (R231); the display's mode on entry to `Ready` is a draw (R52). -/
def endInit (s : State) : State := drawMode (displayPhase .ready { s with phase := .ready })

/-- The entries still to run, the first of them entered at `k` (R231): a command step is a transaction and the settle delay (R232),
a wait step is its delay alone (R233). A time-out inside a transaction ends `DINIT` there (R236). -/
def initSteps : List InitEntry → Stage → State → State
  | [], _, s => runActions [endInit, doneWith .dinit] s
  | .wait v :: es, _, s => initSteps es .start (runActions [delayMs (delayArg v), nextEntry] s)
  | .command v :: es, k, s =>
    match frame selCommand v k s with
    | .go s => initSteps es .start (runActions [delayUs cmdSettleUs, nextEntry] s)
    | .blocked k s => pollFailed .dinit .dinit k s

/-- `DINIT` (R231): from entry 0, or resumed at the entry whose transaction it is held in. -/
def execDinit (s : State) : Out :=
  enter .dinit s fun k s =>
    match k with
    | .start => .next (initSteps (initTable s.cfg) .start (runActions [beginInit] s))
    | k =>
      if s.dcIp.toNat < initLen s.cfg then .next (initSteps ((initTable s.cfg).drop s.dcIp.toNat) k s)
      else .fault .initRomIndexOutside

end Sys2Proof.Machine
end

