-- ==== Sys2Proof/WellFormed.lean ====
section
/-! DEFINITION. Which terms of `Instr` are operations of the block. Every operand byte is admitted (R110); two rows have a check of their own. -/

namespace Sys2Proof

/-- The reserved command words, clause by clause as R112 lists them. -/
def Word.reserved (w : Word) : Bool :=
  let unit := (w.extractLsb' 12 4).toNat
  let fn := (w.extractLsb' 8 4).toNat
  let imm := (w.extractLsb' 0 8).toNat
  decide (2 ≤ unit)
  || (decide (unit = 0) && (decide (fn = 0) || decide (9 ≤ fn)))
  || (decide (unit = 1) && decide (5 ≤ fn))
  || (((decide (unit = 0) && decide (4 ≤ fn) && decide (fn ≤ 8)) || (decide (unit = 1) && decide (fn = 0)))
        && decide (imm ≠ 0))

/-- `ILLEGAL` holds a reserved word (R112); a string holds its terminator (R216). Everything else is an operation as it stands. -/
def Instr.wellFormed : Instr → Bool
  | .illegal w => Word.reserved w
  | .dwstr bytes => bytes.contains 0x00
  | _ => true

end Sys2Proof
end

