-- ==== Sys2Proof/Decode.lean ====
section
/-! DEFINITION. The decoder of command words (R110 to R112), total on all 65536 words, and after it the encoder and the expansion of the pseudo-operations (R125). -/

namespace Sys2Proof

/-- `unit`, bits 15:12 of a command word (R110). -/
def Word.unit (w : Word) : BitVec 4 := w.extractLsb' 12 4

/-- `fn`, bits 11:8 of a command word (R110). -/
def Word.fn (w : Word) : BitVec 4 := w.extractLsb' 8 4

/-- `imm`, bits 7:0 of a command word (R110). -/
def Word.imm (w : Word) : Byte := w.extractLsb' 0 8

/-- Format N (R110): the operation has no operand, and `imm` must be `0x00`; any other `imm` makes the word reserved (R112). -/
def formatN (i : Instr) (w : Word) : Instr :=
  if w.imm = 0 then i else .illegal w

/-- The opcode map of R111, row by row; a word that no row matches is reserved (R112) and rejected by name, as `ILLEGAL`. -/
def decode (w : Word) : Instr :=
  match w.unit.toNat, w.fn.toNat with
  | 0, 1 => .binit w.imm
  | 0, 2 => .start w.imm
  | 0, 3 => .wrb w.imm
  | 0, 4 => formatN .stop w
  | 0, 5 => formatN .dis w
  | 0, 6 => formatN .en w
  | 0, 7 => formatN .wait w
  | 0, 8 => formatN .brst w
  | 1, 0 => formatN .dinit w
  | 1, 1 => .wcmd w.imm
  | 1, 2 => .scur w.imm
  | 1, 3 => .sgly w.imm
  | 1, 4 => .wchr w.imm
  | _, _ => .illegal w

/-- The command words that run one after another, each decoded alone: every word has the same length and there is no prefix (R110). -/
def decodeAll (ws : List Word) : List Instr := ws.map decode

/-- Why a raw bit string is no command word. -/
inductive DecodeReject where
  /-- It has bits above the 16 of a command word (R110). -/
  | longerThanOneWord (nbits w : Nat)
  deriving DecidableEq, Repr

/-- A raw bit string, bit 0 its least significant: a command word is 16 bits (R110), so a string with more is rejected. -/
def decodeRaw (nbits w : Nat) : Except DecodeReject Instr :=
  if nbits ≤ 16 ∧ w < 65536 then .ok (decode (BitVec.ofNat 16 w)) else .error (.longerThanOneWord nbits w)

/-- The instruction the decoder reads from the word `w` of a row of the opcode table. -/
def decodeTableWord (nbits w : Nat) : Option Instr := (decodeRaw nbits w).toOption

/-- A command word from its three fields (R110). -/
def commandWord (unit fn : BitVec 4) (imm : Byte) : Word := (unit ++ fn) ++ imm

/-- The word of an operation that has one, from the columns unit, fn and format of R111; `none` for the four that have none (R111). -/
def Instr.encode : Instr → Option Word
  | .binit d => some (commandWord 0 1 d)
  | .start a => some (commandWord 0 2 a)
  | .wrb b => some (commandWord 0 3 b)
  | .stop => some (commandWord 0 4 0)
  | .dis => some (commandWord 0 5 0)
  | .en => some (commandWord 0 6 0)
  | .wait => some (commandWord 0 7 0)
  | .brst => some (commandWord 0 8 0)
  | .dinit => some (commandWord 1 0 0)
  | .wcmd c => some (commandWord 1 1 c)
  | .scur o => some (commandWord 1 2 o)
  | .sgly o => some (commandWord 1 3 o)
  | .wchr b => some (commandWord 1 4 b)
  | .computeDivisor _ _ _ => none
  | .warr _ => none
  | .dwarr _ => none
  | .dwstr _ => none
  | .illegal w => some w

/-- The bytes of a string before its first `0x00` (R216); the terminator is not one of them. -/
def stringBody (bytes : List Byte) : List Byte := bytes.takeWhile (fun b => b ≠ 0x00)

/-- The expansion table of R125: what the host issues for an operation. An operation that is no pseudo-operation is itself. -/
def Instr.expansion : Instr → List Instr
  | .warr bytes => bytes.map .wrb
  | .dwarr bytes => bytes.map .wchr
  | .dwstr bytes => (stringBody bytes).map .wchr
  | i => [i]

/-- The command words the host issues for an operation (R111, R125); none for `computeDivisor`. -/
def Instr.words (i : Instr) : List Word := i.expansion.filterMap Instr.encode

end Sys2Proof
end

