-- ==== Sys2Proof/Machine/Pseudo.lean ====
section
/-! DEFINITION. The rows without a command word of their own: `computeDivisor` (R151), the pseudo-operations `WARR`, `DWARR`, `DWSTR` as the host expands them (R125), and `ILLEGAL` (R112, R253). -/

namespace Sys2Proof.Machine

/-- The value `computeDivisor` hands its caller (R151, R161 (d)). -/
def divisorAnswer (cpuHz busHz riseNs : Nat) : Answer :=
  match computeDivisor cpuHz busHz riseNs with
  | none => .noValue
  | some d => .divisor d

/-- Hand a value to the caller. -/
def giveAnswer (a : Answer) (s : State) : State := { s with answer := a }

/-- `computeDivisor` (R151): it reads and writes no state of the block; its value goes to the caller. The engine, an agent of its own,
may step meanwhile (R8). -/
def execComputeDivisor (cpuHz busHz riseNs : Nat) (s : State) : Out :=
  enter (.computeDivisor cpuHz busHz riseNs) s fun _ s =>
    .next (runActions [giveAnswer (divisorAnswer cpuHz busHz riseNs)] s)

/-- `WRB` for each byte, in order (R156). A byte that does not end `OK` ends the expansion; one that is held leaves the rest to come. -/
def warrSteps : List Byte → Stage → State → Out
  | [], _, s => .next s
  | b :: bs, k, s => writeByte b (.warr (b :: bs)) k s fun s => warrSteps bs .start s

/-- `WARR bytes` (R156). -/
def execWarr (bytes : List Byte) (s : State) : Out :=
  enter (.warr bytes) s fun k s => warrSteps bytes k s

/-- `WCHR` for each byte, in order, one transaction per byte (R215). `rest bs` is the operation that is left when `bs` are still to be
sent. A byte that does not end `OK` ends the expansion. -/
def wchrSteps (rest : List Byte → Instr) : List Byte → Stage → State → State
  | [], _, s => s
  | b :: bs, k, s =>
    match frame selData b k s with
    | .go s => wchrSteps rest bs .start (runActions [doneWith .wchr] s)
    | .blocked k s => pollFailed .wchr (rest (b :: bs)) k s

/-- `DWARR bytes` (R215). -/
def execDwarr (bytes : List Byte) (s : State) : Out :=
  enter (.dwarr bytes) s fun k s => .next (wchrSteps .dwarr bytes k s)

/-- `DWSTR bytes` (R216): the bytes before the first `0x00`. A list without one is outside the contract, and no effect is given (U6). -/
def execDwstr (bytes : List Byte) (s : State) : Out :=
  if bytes.contains 0x00 then
    enter (.dwstr bytes) s fun k s => .next (wchrSteps (fun bs => .dwstr (bs ++ [0x00])) (stringBody bytes) k s)
  else .refused .unterminatedString

/-- `ILLEGAL` (R253): `fail ILLEGAL_COMMAND`, its one action. The engine, an agent of its own, may step before it (R8, R78). -/
def execIllegal (w : Word) (s : State) : Out :=
  enter (.illegal w) s fun _ s => .next (runActions [failWith .illegal .illegalCommand] s)

end Sys2Proof.Machine
end

