-- ==== Sys2Proof/Machine/Recovery.lean ====
section
/-! DEFINITION. The bus recovery sequencer `BRST` (41_bus_recovery.md R190 to R197). -/

namespace Sys2Proof.Machine

/-- Step 1 (R191): the actions of `DIS`, then pull-ups on and both pins released. -/
def recoveryStep1 (s : State) : State :=
  runActions
    [disableEngine, pinSetPullup .sda true, pinSetPullup .scl true,
     pinSetDirection .sda .input, pinSetDirection .scl .input] s

/-- A recovery half-period (R13). -/
def halfPeriod (s : State) : State := delayUs (halfPeriodUs s.cfg) s

/-- `RC.INNER <- 0`. -/
def clearInner (s : State) : State := { s with rcInner := 0 }

/-- `RC.INNER <- RC.INNER + 1`. -/
def countPulse (s : State) : State := { s with rcInner := s.rcInner + 1 }

/-- `RC.OUTER <- 0`. -/
def clearOuter (s : State) : State := { s with rcOuter := 0 }

/-- `RC.OUTER <- RC.OUTER + 1`. -/
def countAttempt (s : State) : State := { s with rcOuter := s.rcOuter + 1 }

/-- One read of the data line. Under an asserted reset the line is not read, and the loops end. -/
def readData (s : State) : Bool × State :=
  let s := resetPoint (engineTurn s)
  if s.resetIn then (true, s) else pinRead .sda s

/-- One pulse (R193): low, delay, high, delay, and the count. -/
def pulse (s : State) : State :=
  runActions [pinWrite .scl false, halfPeriod, pinWrite .scl true, halfPeriod, countPulse] s

/-- At most `n` more pulses, the data line sampled after each; a high sample ends them (R193). -/
def pulseLoop : Nat → State → State
  | 0, s => s
  | n + 1, s =>
    let r := readData (pulse s)
    if r.1 then r.2 else pulseLoop n r.2

/-- Step 2b (R193): the clock line is driven, from level 1, and pulsed at most 16 times. -/
def pulses (s : State) : State :=
  pulseLoop recoveryInnerMax (runActions [pinWrite .scl true, pinSetDirection .scl .output, clearInner] s)

/-- Step 2c, the manual stop (R194). -/
def manualStop (s : State) : State :=
  runActions
    [pinWrite .scl false, halfPeriod,
     pinWrite .sda false, pinSetDirection .sda .output, halfPeriod,
     pinWrite .scl true, halfPeriod,
     pinSetDirection .sda .input, halfPeriod] s

/-- Step 2, with `n` passes left (R192): a high read ends it, freed; otherwise one attempt is run and counted. -/
def attemptLoop : Nat → State → Bool × State
  | 0, s => (false, s)
  | n + 1, s =>
    let r := readData s
    if r.1 then (true, r.2) else attemptLoop n (runActions [countAttempt] (manualStop (pulses r.2)))

/-- `G.BUS_RESET <- 1` (R190). -/
def busResetDone (s : State) : State := { s with busReset := true }

/-- The whole of `BRST` (R190): step 3 is always performed, and exhaustion is reported after it (R195). -/
def recover (s : State) : State :=
  let r := attemptLoop recoveryOuterMax (runActions [clearOuter] (recoveryStep1 s))
  let s := runActions (enableActions ++ [busResetDone]) r.2
  runActions [if r.1 then doneWith .brst else failWith .brst .recoveryExhausted] s

/-- `BRST` (R190). -/
def execBrst (s : State) : Out := enter .brst s fun _ s => .next (recover s)

end Sys2Proof.Machine
end

