-- ==== Sys2Proof/Machine/Dispatch.lean ====
section
/-! DEFINITION. One arm per operation of the opcode table. -/

namespace Sys2Proof.Machine

def exec (i : Instr) (s : State) : Host.Outcome State Fault Refusal :=
  match i with
  | .binit d => Sys2Proof.Machine.execBinit d s
  | .start a => Sys2Proof.Machine.execStart a s
  | .wrb b => Sys2Proof.Machine.execWrb b s
  | .stop => Sys2Proof.Machine.execStop s
  | .dis => Sys2Proof.Machine.execDis s
  | .en => Sys2Proof.Machine.execEn s
  | .wait => Sys2Proof.Machine.execWait s
  | .brst => Sys2Proof.Machine.execBrst s
  | .dinit => Sys2Proof.Machine.execDinit s
  | .wcmd c => Sys2Proof.Machine.execWcmd c s
  | .scur o => Sys2Proof.Machine.execScur o s
  | .sgly o => Sys2Proof.Machine.execSgly o s
  | .wchr b => Sys2Proof.Machine.execWchr b s
  | .computeDivisor c t r => Sys2Proof.Machine.execComputeDivisor c t r s
  | .warr bs => Sys2Proof.Machine.execWarr bs s
  | .dwarr bs => Sys2Proof.Machine.execDwarr bs s
  | .dwstr bs => Sys2Proof.Machine.execDwstr bs s
  | .illegal w => Sys2Proof.Machine.execIllegal w s

end Sys2Proof.Machine
end

