-- ==== Sys2Proof/Machine/Fetch.lean ====
section
/-! DEFINITION. What a step does when no operation is in progress: the host's next request (R93, R110), a register read (R71), waiting for a command (R293); and the reset event (R290, R291). -/

namespace Sys2Proof.Machine

/-- The reset event (R290): every piece of state takes its reset value (R291). The host's requests and what it was
handed, the environment's answers and the configuration are no state of the block; the display is not reset (R291). -/
def resetEvent (s : State) : State :=
  { State.reset with
    busState := Config.freeBusState s.draws
    dispPhase := s.dispPhase
    dispMode := s.dispMode
    host := s.host
    answer := s.answer
    envGrants := s.envGrants
    envLines := s.envLines
    envResets := s.envResets
    draws := s.draws + 1
    cfg := s.cfg }

/-- The host reads register number `n` (R71): no state of the block changes. -/
def hostRead (n : Nat) (s : State) : State :=
  { s with
    answer := .register n (readReg s n)
    envLines := if n = 9 then s.envLines.drop 2 else s.envLines
    draws := s.draws + 2 }

/-- The block waits for a command word (R293), while the engine may go on (R96) and a reset may come (R290). -/
def waitForCommand (s : State) : Out := engineGate s fun s => .next (resetPoint (engineTurn s))

/-- Serve one request of the host. The engine may step before a register read as before an action (R8, R78). -/
def serve (r : Request) (s : State) : Out :=
  match r with
  | .word w => exec (decode w) s
  | .call i => if i.wellFormed then exec i s else .refused .illFormedCall
  | .read n => engineGate s fun s => .next (runActions [hostRead n] s)

/-- The next request of the host, taken from its list. -/
def fetch (s : State) : Out :=
  match s.host with
  | [] => waitForCommand s
  | r :: rest => serve r { s with host := rest }

/-- The instruction whose bits are `w`, put where the next fetch takes it: at the head of the host's list, no operation in progress,
and no reset asserted or ahead. -/
def placeWord (w : Word) (s : State) : State :=
  { s with host := .word w :: s.host, seq := .idle, resetIn := false, envResets := [] }

end Sys2Proof.Machine
end

