-- ==== Sys2Proof/Machine/Step.lean ====
section
/-! DEFINITION. One step of the machine: reset, or the operation in progress, or the host's next request. -/

namespace Sys2Proof.Machine

/-- One step. Reset may occur at any time (R290): asserted inside a step, it cuts that step short and is taken in the next. An operation
in progress goes on before anything else is accepted (R303); otherwise the block serves the host's next request or waits for one
(R293). -/
def step (s : State) : Host.Outcome State Fault Refusal :=
  if s.resetIn then .next (resetEvent s)
  else
    match s.seq with
    | .waiting i _ => exec i s
    | .idle => fetch s

/-- `s` with the command word `w` where the next step fetches. Every command word has 16 bits (R110). -/
def State.withFetchWord (s : State) (_nbits w : Nat) : State := placeWord (BitVec.ofNat 16 w) s

end Sys2Proof.Machine
end

