-- ==== Sys2Proof/Safety.lean ====
section
/-! DEFINITION. The terms claims use: the parts of a trace (R24), when a run is over and clean (R99), the refusal of contract violations (R258), what the engine never touches, and the invariants. -/

namespace Sys2Proof.Machine

/-- A wire event, which the engine emits (R24). -/
def Event.isWire : Event → Bool
  | .wStart _ => true
  | .wRstart _ => true
  | .wByte _ => true
  | .wStop => true
  | _ => false

/-- The wire action an event issues (R24, R77). -/
def Event.issued : Event → Option WireAction
  | .issueAddr a => some (.addr a)
  | .issueData b => some (.data b)
  | .issueStop => some .stop
  | _ => none

/-- The wire action an event performs (R24, R78). -/
def Event.performed : Event → Option WireAction
  | .wStart a => some (.addr a)
  | .wRstart a => some (.addr a)
  | .wByte b => some (.data b)
  | .wStop => some .stop
  | _ => none

/-- The control events of a trace (R24). -/
def controlEvents (tr : List Event) : List Event := tr.filter (fun e => !e.isWire)

/-- The bus traffic of a trace, as the actions issued (R24). -/
def issuedActions (tr : List Event) : List WireAction := tr.filterMap Event.issued

/-- The actions performed on the wire (R24). -/
def performedActions (tr : List Event) : List WireAction := tr.filterMap Event.performed

/-- The host has a command word to issue with this request (R99, R110). A call stands for the words of its expansion (R125); that a register
read and `computeDivisor`, which have no word, count as none is the model's reading of R99 (log entry 4). -/
def Request.issuesWord : Request → Bool
  | .word _ => true
  | .call i => !i.words.isEmpty
  | .read _ => false

/-- A run is over (R99): no command word to issue, no operation in progress, nothing queued. An operation that a reset has cut short is in
progress until the reset event. -/
def State.over (s : State) : Prop :=
  (∀ r ∈ s.host, r.issuesWord = false) ∧ s.seq = .idle ∧ s.resetIn = false ∧ s.q = []

/-- A run that is over is clean (R99). -/
def State.clean (s : State) : Prop := s.over ∧ s.faults = 0 ∧ s.violated = false

/-- The step of a model that refuses contract violations (R258): the machine's step, where no contract has been violated. -/
def contractStep (s : State) : Out :=
  match step s with
  | .next t => if t.violated then .refused .contractViolation else .next t
  | .fault r => .fault r
  | .refused r => .refused r

/-- No reset is asserted or ahead (R290). -/
abbrev State.noReset (s : State) : Prop := s.resetIn = false ∧ s.envResets = []

/-- No operation is in progress, and no reset is asserted or ahead. -/
abbrev State.quiet (s : State) : Prop := s.seq = .idle ∧ s.noReset

/-- The block takes up a request at once and no reset disturbs it: quiet, and the engine not before an undefined byte. -/
abbrev State.accepts (s : State) : Prop := s.quiet ∧ atUndefinedByte s = false

/-- The part of the state that no engine step touches: without `Q`, `WIF`, `BUSSTATE`, the environment's grants, and the wire events. -/
def State.sequencerPart (s : State) : State :=
  { s with
    q := []
    wif := false
    busState := .idle
    envGrants := []
    draws := 0
    trace := controlEvents s.trace }

/-- The environment grants at least one step at each of the next `n` turns: a bus that is not wedged (R79). -/
def State.granted (n : Nat) (s : State) : Prop :=
  n ≤ s.envGrants.length ∧ ∀ g ∈ s.envGrants.take n, 1 ≤ g

/-- The engine is on, has nothing left to do, and the bus is idle. -/
def State.engineAtRest (s : State) : Prop := s.ctrlEnable = true ∧ s.q = [] ∧ s.busState = .idle

/-- What is performed and what is still queued was issued, in that order (R94); what is missing was dropped by `BINIT`, `DIS` or `BRST`. -/
def State.QueueOrder (s : State) : Prop :=
  (performedActions s.trace ++ s.q).Sublist (issuedActions s.trace)

/-- No rule sets the read-complete flag (R41). -/
def State.RifClear (s : State) : Prop := s.rif = false

/-- Where an operation can be held: inside a wait of its own. -/
def heldAt : Instr → Stage → Bool
  | .wrb _, .wait1 => true
  | .stop, .wait1 => true
  | .wait, .wait1 => true
  | .warr bs, .wait1 => !bs.isEmpty
  | .wcmd _, k => decide (k ≠ .start)
  | .scur _, k => decide (k ≠ .start)
  | .sgly _, k => decide (k ≠ .start)
  | .wchr _, k => decide (k ≠ .start)
  | .dinit, k => decide (k ≠ .start)
  | .dwarr bs, k => !bs.isEmpty && decide (k ≠ .start)
  | .dwstr bs, k => bs.contains 0x00 && !(stringBody bs).isEmpty && decide (k ≠ .start)
  | _, _ => false

/-- The initialization state machine (R231, R234, R236): `DC.IP` is 0 before, below `INIT_LEN` during, and `INIT_LEN` after; an
operation in progress is held in a wait of its own, and `DINIT` at a command entry. Under an asserted reset an operation has been cut
short, `DINIT` possibly behind its last entry, and the reset event is the next step. -/
def State.InitProgress (s : State) : Prop :=
  (match s.phase with
    | .uninit => s.dcIp = 0
    | .initializing => s.dcIp.toNat < initLen s.cfg ∨ (s.resetIn = true ∧ s.dcIp.toNat = initLen s.cfg)
    | .ready => s.dcIp.toNat = initLen s.cfg) ∧
  (s.resetIn = false →
    match s.seq with
    | .idle => True
    | .waiting i k =>
      heldAt i k = true ∧
      (i = .dinit → s.phase = .initializing ∧ ∃ v, (initTable s.cfg)[s.dcIp.toNat]? = some (.command v)))

/-- An operation that waits inside an open transaction: all that can be held but `WAIT`. -/
def waitsInTransaction : Instr → Bool
  | .wait => false
  | _ => true

/-- The single buffer (R50, R94, R301): as long as every contract is kept, the queue holds at most one action that raises a flag, behind
at most one stop; a raised flag means that nothing is queued; and, unless a reset has cut it short, an operation is held only in a wait
of its own. -/
def State.SingleBuffer (s : State) : Prop :=
  s.rif = false ∧
  (s.violated = false →
    (s.wif = true → s.q = []) ∧
    (match s.txnOpen with
      | false => s.q = [] ∨ s.q = [.stop]
      | true =>
        s.q = [] ∨ (∃ a, s.q = [.addr a]) ∨ (∃ b, s.q = [.data b]) ∨ (∃ a, s.q = [.stop, .addr a])) ∧
    (s.resetIn = false →
      match s.seq with
      | .idle => True
      | .waiting i k => heldAt i k = true ∧ (waitsInTransaction i = true → s.txnOpen = true)))

/-! ### The events of the sequences the rules fix -/

/-- The events of recovery step 1 (R191). -/
def recoveryStep1Events : List Event :=
  [.disable, .pinPu .sda true, .pinPu .scl true, .pinDir .sda .input, .pinDir .scl .input]

/-- The events of one recovery pulse and its sample (R193); `h` is the half-period. -/
def pulseEvents (h : BitVec 16) (sample : Bool) : List Event :=
  [.pinOut .scl false, .delayUs h, .pinOut .scl true, .delayUs h, .pinRead .sda sample]

/-- The events of the manual stop (R194). -/
def manualStopEvents (h : BitVec 16) : List Event :=
  [.pinOut .scl false, .delayUs h, .pinOut .sda false, .pinDir .sda .output, .delayUs h,
   .pinOut .scl true, .delayUs h, .pinDir .sda .input, .delayUs h]

/-- The events of recovery step 3 (R195). -/
def recoveryStep3Events : List Event := [.enable, .pinDir .sda .input, .pinDir .scl .input, .forceIdle]

/-- The events of a display transaction on a bus at rest whose engine keeps up, the stop performed (R115, R219). -/
def frameEvents (sel x : Byte) : List Event :=
  [.issueAddr 0x7C, .wStart 0x7C, .issueData sel, .wByte sel, .issueData x, .wByte x, .issueStop, .wStop]

/-- The issues a display transaction has left to make when it stands at `k` (R219). -/
def framerLeft (sel x : Byte) : Stage → List Event
  | .start => [.issueAddr 0x7C, .issueData sel, .issueData x, .issueStop]
  | .wait1 => [.issueData sel, .issueData x, .issueStop]
  | .wait2 => [.issueData x, .issueStop]
  | .wait3 => [.issueStop]

/-- The engine takes no step at its next turn, and `gs` are the environment's grants after it: it is off, or has nothing queued, or is
withheld (R78, R79). -/
abbrev State.standsStill (s : State) (gs : List Nat) : Prop :=
  ((s.q = [] ∨ s.ctrlEnable = false) ∧ gs = s.envGrants) ∨ (s.ctrlEnable = true ∧ s.q ≠ [] ∧ s.envGrants = 0 :: gs)

/-- The framer operations, with their mnemonic, selector and payload in a configuration (R211 to R214). -/
def framed (c : Config) : Instr → Option (OpName × Byte × Byte)
  | .wcmd x => some (.wcmd, 0x00, x)
  | .scur o => some (.scur, 0x00, c.cursorBase ||| o)
  | .sgly o => some (.sgly, 0x00, c.glyphBase ||| o)
  | .wchr x => some (.wchr, 0x40, x)
  | _ => none

/-- What an entry of the Init Sequence does on an engine that keeps up (R232, R233). -/
def entryEvents : InitEntry → List Event
  | .command v => frameEvents 0x00 v ++ [.delayUs 50]
  | .wait v => [.delayMs (v.setWidth 16)]

end Sys2Proof.Machine
end

