-- ==== Sys2Proof/Certificates/Slice0/Obligations.lean ====
section
/-! DEFINITION. The statements for the provers. Each says in its docstring which rule of spec/ it formalises. Where a statement fixes the environment's grants (`envGrants`) or line levels (`envLines`), that is how the model takes the environment's answers (log entries 2 and 3); `quiet` and `noReset` say that no reset disturbs the operation, and how resets come is log entry 14; that a wait can hold an operation across steps is log entry 1. -/

open Sys2Proof Sys2Proof.Machine

/-! ### Encoding -/

/-- R111, R112: command words of 95_test_vectors.md, read as V40 reads them, and `SCUR`, `SGLY` and `WCHR` as V26 does. -/
def Obligations.DecodeKnownWords : Prop :=
  decode 0x015F = .binit 0x5F ∧ decode 0x027C = .start 0x7C ∧ decode 0x03A5 = .wrb 0xA5 ∧ decode 0x0400 = .stop ∧
  decode 0x0500 = .dis ∧ decode 0x0600 = .en ∧ decode 0x0700 = .wait ∧ decode 0x0800 = .brst ∧ decode 0x1000 = .dinit ∧
  decode 0x11FF = .wcmd 0xFF ∧ decode 0x1240 = .scur 0x40 ∧ decode 0x1310 = .sgly 0x10 ∧ decode 0x1441 = .wchr 0x41 ∧
  decode 0x0401 = .illegal 0x0401 ∧ decode 0x00FF = .illegal 0x00FF ∧ decode 0x0900 = .illegal 0x0900 ∧
  decode 0x1500 = .illegal 0x1500 ∧ decode 0x2000 = .illegal 0x2000

/-- Decoding the word of a well-formed operation gives the operation back, with every operand at every value (R110, R111). -/
def Obligations.DecodeEncodeAgree : Prop :=
  ∀ i : Instr, i.wellFormed = true → ∀ w : Word, i.encode = some w → decode w = i

/-- Every one of the 65536 words decodes to a well-formed operation whose encoding it is (R110 to R112). -/
def Obligations.EncodeDecodeAgree : Prop :=
  ∀ w : Word, (decode w).wellFormed = true ∧ (decode w).encode = some w

/-- R112: which words are illegal, with the three fields of R110 read off as numbers. That `ILLEGAL` keeps the word it was decoded from is the
model's choice (log entry 21). -/
def Obligations.ReservedWordsAreIllegal : Prop :=
  ∀ w : Word, ∀ unit fn imm : Nat,
    unit = w.toNat / 4096 → fn = w.toNat / 256 % 16 → imm = w.toNat % 256 →
    ((decode w = .illegal w ↔
        (2 ≤ unit ∨ (unit = 0 ∧ (fn = 0 ∨ 9 ≤ fn)) ∨ (unit = 1 ∧ 5 ≤ fn) ∨
          (((unit = 0 ∧ 4 ≤ fn ∧ fn ≤ 8) ∨ (unit = 1 ∧ fn = 0)) ∧ imm ≠ 0))) ∧
      ∀ v, decode w = .illegal v → v = w)

/-- R125: the words of a pseudo-operation decode to its expansion; a string stops before its first `0x00`. -/
def Obligations.ExpansionWordsDecode : Prop :=
  (∀ bs : List Byte, decodeAll (Instr.warr bs).words = bs.map Instr.wrb) ∧
  (∀ bs : List Byte, decodeAll (Instr.dwarr bs).words = bs.map Instr.wchr) ∧
  (∀ body tail : List Byte, 0x00 ∉ body →
    decodeAll (Instr.dwstr (body ++ 0x00 :: tail)).words = body.map Instr.wchr)

/-! ### Reset, and what a step runs -/

/-- R291: the value of every piece of state after reset, `DISP.PHASE` where the display powers up with the block. `BUSSTATE` and `DISP.MODE` are left
open there and here; the fields that are the model's own (log entry 9) are left out. -/
def Obligations.ResetValues : Prop :=
  State.reset.ctrlEnable = false ∧ State.reset.divisor = 0x00 ∧ State.reset.wif = false ∧ State.reset.rif = false ∧
  State.reset.maddr = 0x00 ∧ State.reset.mdata = 0x00 ∧ readReg State.reset 0x8 = 0x7C ∧ State.reset.result = .ok ∧
  State.reset.faults = 0 ∧ State.reset.phase = .uninit ∧ State.reset.dcIp = 0 ∧ State.reset.rcOuter = 0 ∧
  State.reset.rcInner = 0 ∧ State.reset.wc = 0 ∧
  State.reset.sda = { dir := .input, out := false, pu := false } ∧
  State.reset.scl = { dir := .input, out := false, pu := false } ∧
  State.reset.q = [] ∧ State.reset.bmInited = false ∧ State.reset.busReset = false ∧ State.reset.txnOpen = false ∧
  (Config.board.displayFollows = true → State.reset.dispPhase = .uninit) ∧ State.reset.trace = [] ∧ State.reset.seq = .idle ∧
  ∀ p env, lineLevel State.reset p env = env

/-- R290, R291: a reset, which may come while an operation is held, leaves every piece of state at its reset value; the display is not
reset, and the configuration and the host's requests are no state of the block. -/
def Obligations.ResetEventClearsTheBlock : Prop :=
  ∀ s : State, s.resetIn = true →
    ∃ t, step s = .next t ∧
      t.ctrlEnable = false ∧ t.divisor = 0x00 ∧ t.wif = false ∧ t.rif = false ∧ t.maddr = 0x00 ∧ t.mdata = 0x00 ∧
      t.result = .ok ∧ t.faults = 0 ∧ t.phase = .uninit ∧ t.dcIp = 0 ∧ t.rcOuter = 0 ∧ t.rcInner = 0 ∧ t.wc = 0 ∧
      t.sda = Pin.reset ∧ t.scl = Pin.reset ∧ t.q = [] ∧ t.bmInited = false ∧ t.busReset = false ∧ t.txnOpen = false ∧
      t.trace = [] ∧ t.violated = false ∧ t.seq = .idle ∧ t.resetIn = false ∧
      t.dispPhase = s.dispPhase ∧ t.dispMode = s.dispMode ∧ t.host = s.host ∧ t.cfg = s.cfg

/-- R290, R257: a reset may come in the middle of an operation. An operation that starts with the environment's next reset `n` points away
runs its first `n` actions and no more, here `BINIT`, and the next step is the reset event; with the reset further away it ends as always.
An operation held in a wait is ended by a reset that comes there. How resets are given is log entry 14. -/
def Obligations.ResetCutsAnOperationShort : Prop :=
  (∀ (s : State) (d : Byte) (n : Nat) (ns : List Nat),
    s.seq = .idle → s.q = [] → s.resetIn = false → s.envResets = n :: ns →
    (n < 6 →
      ∃ t, exec (.binit d) s = .next t ∧
        t.trace = s.trace ++ [.setDivisor d, .enable, .clearFlags, .forceIdle].take n ∧
        t.divisor = (if 1 ≤ n then d else s.divisor) ∧ t.ctrlEnable = (s.ctrlEnable || decide (2 ≤ n)) ∧
        t.bmInited = (s.bmInited || decide (5 ≤ n)) ∧ t.result = s.result ∧ t.resetIn = true ∧ t.envResets = ns ∧
        step t = .next (resetEvent t)) ∧
    (6 ≤ n →
      ∃ t, exec (.binit d) s = .next t ∧
        t.trace = s.trace ++ [.setDivisor d, .enable, .clearFlags, .forceIdle, .done .binit .ok] ∧
        t.divisor = d ∧ t.bmInited = true ∧ t.result = .ok ∧ t.resetIn = false ∧ t.envResets = (n - 6) :: ns)) ∧
  (∀ (s : State) (i : Instr) (k : Stage) (ns : List Nat),
    s.seq = .waiting i k → heldAt i k = true → (i = .dinit → s.InitProgress) → atUndefinedByte s = false →
    s.resetIn = false → s.envResets = 0 :: ns →
    step s = .next { engineTurn s with resetIn := true, envResets := ns })

/-- A step of an idle block runs the operation that the host's next command word decodes to, and nothing around it (R93, R110);
`withFetchWord` puts a word there. -/
def Obligations.StepRunsDecodedWord : Prop :=
  (∀ (s : State) (w : Word) (rest : List Request),
    s.resetIn = false → s.seq = .idle → s.host = .word w :: rest →
    step s = exec (decode w) { s with host := rest }) ∧
  (∀ (s : State) (n w : Nat),
    step (s.withFetchWord n w) = exec (decode (BitVec.ofNat 16 w)) { s with seq := .idle, resetIn := false, envResets := [] })

/-- A call by name runs the operation, if it is one; an operation in progress goes on before anything else is accepted (R303). Calls by
name are the model's (log entry 12). -/
def Obligations.StepRunsCallsAndResumes : Prop :=
  (∀ (s : State) (i : Instr) (rest : List Request),
    s.resetIn = false → s.seq = .idle → s.host = .call i :: rest →
    (i.wellFormed = true → step s = exec i { s with host := rest }) ∧
    (i.wellFormed = false → step s = .refused .illFormedCall)) ∧
  (∀ (s : State) (i : Instr) (k : Stage), s.resetIn = false → s.seq = .waiting i k → step s = exec i s)

/-- R293: with no command word the block waits; with nothing queued the state stays as it is, and otherwise only the engine goes on. -/
def Obligations.StepWaitsForCommand : Prop :=
  ∀ s : State, s.accepts → s.host = [] →
    step s = .next (engineTurn s) ∧ (s.q = [] → step s = .next s)

/-- R47, R44, R123, R46, R71: the layout of the ten registers, as the numbers the host reads, and that a read changes no state of the block;
the engine, an agent of its own, may step before it (R8, R78). -/
def Obligations.RegisterReadPort : Prop :=
  (∀ s : State,
    (readReg s 0x0).toNat = s.ctrlEnable.toNat ∧
    (readReg s 0x1).toNat = s.divisor.toNat ∧
    (readReg s 0x2).toNat = (decide (s.busState = .busy)).toNat + 2 * s.wif.toNat + 4 * s.rif.toNat ∧
    (readReg s 0x3).toNat = s.maddr.toNat ∧
    (readReg s 0x4).toNat = s.mdata.toNat ∧
    (readReg s 0x5).toNat =
      (match s.result with | .ok => 0 | .timedOut => 1 | .recoveryExhausted => 2 | .illegalCommand => 3) ∧
    (readReg s 0x6).toNat = s.faults.toNat ∧
    (readReg s 0x7).toNat =
      (match s.phase with | .uninit => 0 | .initializing => 1 | .ready => 2) + 256 * s.dcIp.toNat ∧
    (readReg s 0x8).toNat = 0x7C ∧
    (readReg s 0x9).toNat =
      (decide (s.sda.dir = .output)).toNat + 2 * s.sda.out.toNat + 4 * s.sda.pu.toNat +
      8 * (lineLevel s .sda (envLineAt s 0)).toNat +
      16 * (decide (s.scl.dir = .output)).toNat + 32 * s.scl.out.toNat + 64 * s.scl.pu.toNat +
      128 * (lineLevel s .scl (envLineAt s 1)).toNat) ∧
  (∀ (s : State) (n : Nat) (rest : List Request), s.accepts → s.host = .read n :: rest →
    ∃ ls d, step s =
      .next { engineTurn { s with host := rest } with
        answer := .register n (readReg (engineTurn { s with host := rest }) n), envLines := ls, draws := d })

/-! ### Pins and lines -/

/-- R85, R81: the three writing pin primitives, and that the pin bits reach no line while the engine is on. -/
def Obligations.PinPrimitivesWrite : Prop :=
  (∀ (s : State) (d : PinDir) (l : Bool),
    pinSetDirection .sda d s = { s with sda := { s.sda with dir := d }, trace := s.trace ++ [.pinDir .sda d] } ∧
    pinSetDirection .scl d s = { s with scl := { s.scl with dir := d }, trace := s.trace ++ [.pinDir .scl d] } ∧
    pinWrite .sda l s = { s with sda := { s.sda with out := l }, trace := s.trace ++ [.pinOut .sda l] } ∧
    pinWrite .scl l s = { s with scl := { s.scl with out := l }, trace := s.trace ++ [.pinOut .scl l] } ∧
    pinSetPullup .sda l s = { s with sda := { s.sda with pu := l }, trace := s.trace ++ [.pinPu .sda l] } ∧
    pinSetPullup .scl l s = { s with scl := { s.scl with pu := l }, trace := s.trace ++ [.pinPu .scl l] }) ∧
  (∀ (s : State) (p : PinName) (a b : Pin) (env : Bool), s.ctrlEnable = true →
    lineLevel { s with sda := a, scl := b } p env = lineLevel s p env)

/-- R86: the level a read of a line returns while the engine is off, and the event it emits. -/
def Obligations.PinReadLevel : Prop :=
  ∀ (s : State) (p : PinName) (env : Bool) (ls : List Bool), s.ctrlEnable = false → s.envLines = env :: ls →
    ((s.pin p).dir = .input → pinRead p s = (env, { s with envLines := ls, trace := s.trace ++ [.pinRead p env] })) ∧
    ((s.pin p).dir = .output →
      pinRead p s =
        ((s.pin p).out && env, { s with envLines := ls, trace := s.trace ++ [.pinRead p ((s.pin p).out && env)] }))

/-! ### The engine -/

/-- R77: `BusIssue` for each of the three wire actions. -/
def Obligations.IssueLoadsAndQueues : Prop :=
  ∀ (s : State) (x : Byte),
    busIssue (.addr x) s =
      { s with wif := false, rif := false, maddr := x, q := s.q ++ [.addr x], trace := s.trace ++ [.issueAddr x] } ∧
    busIssue (.data x) s =
      { s with wif := false, rif := false, mdata := x, q := s.q ++ [.data x], trace := s.trace ++ [.issueData x] } ∧
    busIssue .stop s = { s with wif := false, rif := false, q := s.q ++ [.stop], trace := s.trace ++ [.issueStop] }

/-- R78: what a granted engine does with the action at the head of its queue, one step granted; and that it never steps while it is
off, while nothing is queued, or while the environment withholds it (R79). -/
def Obligations.EnginePerformsHead : Prop :=
  (∀ (s : State) (x : Byte) (q : List WireAction) (gs : List Nat), s.ctrlEnable = true → s.resetIn = false →
    s.envGrants = 1 :: gs →
    (s.q = .addr x :: q → s.busState = .idle →
      engineTurn s = { s with q := q, busState := .busy, wif := true, envGrants := gs, trace := s.trace ++ [.wStart x] }) ∧
    (s.q = .addr x :: q → s.busState = .busy →
      engineTurn s = { s with q := q, wif := true, envGrants := gs, trace := s.trace ++ [.wRstart x] }) ∧
    (s.q = .data x :: q → s.busState = .busy →
      engineTurn s = { s with q := q, wif := true, envGrants := gs, trace := s.trace ++ [.wByte x] }) ∧
    (s.q = .stop :: q →
      engineTurn s = { s with q := q, busState := .idle, envGrants := gs, trace := s.trace ++ [.wStop] })) ∧
  (∀ s : State, s.ctrlEnable = false ∨ s.q = [] → engineTurn s = s) ∧
  (∀ (s : State) (gs : List Nat), performable s = true → s.envGrants = 0 :: gs → engineTurn s = { s with envGrants := gs })

/-- R78, R259, U1: an engine granted a `DATA` while the bus is idle gives the run no meaning; withheld, the run goes on. That the model looks
at it where an operation is taken up is its choice (log entry 7). -/
def Obligations.UndefinedByteIsRefused : Prop :=
  ∀ (s : State) (g : Nat) (gs : List Nat), s.seq = .idle → atUndefinedByte s = true → s.envGrants = (g + 1) :: gs →
    (∀ i : Instr, i.wellFormed = true → exec i s = .refused .dataWhileBusIdle) ∧
    (s.noReset → exec .dis { s with envGrants := 0 :: gs } =
      .next { s with ctrlEnable := false, q := [], txnOpen := false, result := .ok, envGrants := gs,
                     trace := s.trace ++ [.disable, .done .dis .ok] })

/-! ### The Bus Master -/

/-- R153: `BINIT d`, with nothing queued. -/
def Obligations.BinitResult : Prop :=
  ∀ (d : Byte) (s : State), s.quiet → s.q = [] →
    exec (.binit d) s =
      .next { s with
        divisor := d
        ctrlEnable := true
        wif := false
        rif := false
        busState := .idle
        txnOpen := false
        bmInited := true
        busReset := false
        result := .ok
        violated := s.violated || !requires (.binit d) s
        trace := s.trace ++ [.setDivisor d, .enable, .clearFlags, .forceIdle, .done .binit .ok] }

/-- R154: `START a`, with the engine off, withheld, granted, and with a stop still queued before it. -/
def Obligations.StartResult : Prop :=
  ∀ (a : Byte) (s : State), s.quiet →
    (s.q = [] → s.ctrlEnable = false →
      exec (.start a) s =
        .next { s with
          maddr := a, wif := false, rif := false, q := [.addr a], txnOpen := true, result := .ok
          violated := s.violated || !requires (.start a) s
          trace := s.trace ++ [.issueAddr a, .done .start .ok] }) ∧
    (∀ gs, s.q = [] → s.ctrlEnable = true → s.envGrants = 0 :: gs →
      exec (.start a) s =
        .next { s with
          maddr := a, wif := false, rif := false, q := [.addr a], txnOpen := true, result := .ok, envGrants := gs
          violated := s.violated || !requires (.start a) s
          trace := s.trace ++ [.issueAddr a, .done .start .ok] }) ∧
    (∀ g gs, s.q = [] → s.ctrlEnable = true → s.envGrants = (g + 1) :: gs →
      exec (.start a) s =
        .next { s with
          maddr := a, wif := true, rif := false, busState := .busy, txnOpen := true, result := .ok, envGrants := gs
          violated := s.violated || !requires (.start a) s
          trace := s.trace ++ [.issueAddr a, startEvent s.busState a, .done .start .ok] }) ∧
    (∀ gs, s.q = [.stop] → s.ctrlEnable = true → s.envGrants = 0 :: 0 :: gs →
      exec (.start a) s =
        .next { s with
          maddr := a, wif := false, rif := false, q := [.stop, .addr a], txnOpen := true, result := .ok, envGrants := gs
          violated := s.violated || !requires (.start a) s
          trace := s.trace ++ [.issueAddr a, .done .start .ok] })

/-- R155: `WRB b` with a completion flag up inside an open transaction: issued and not performed, or issued and performed. -/
def Obligations.WrbResult : Prop :=
  ∀ (b : Byte) (s : State), s.quiet → s.q = [] → s.txnOpen = true → engineReady s = true → s.ctrlEnable = true →
    (∀ gs, s.busState = .busy → s.envGrants = 0 :: gs →
      exec (.wrb b) s =
        .next { s with
          mdata := b, wif := false, rif := false, wc := 0, q := [.data b], result := .ok, envGrants := gs
          trace := s.trace ++ [.issueData b, .done .wrb .ok] }) ∧
    (∀ g gs, s.busState = .busy → s.envGrants = (g + 1) :: gs →
      exec (.wrb b) s =
        .next { s with
          mdata := b, wif := true, rif := false, wc := 0, result := .ok, envGrants := gs
          trace := s.trace ++ [.issueData b, .wByte b, .done .wrb .ok] })

/-- R157: `STOP` with a completion flag up: issued and not performed, or issued and performed; performing it raises no flag. The third
clause is a transaction with no byte, where the wait is lifted by the address (V13). -/
def Obligations.StopResult : Prop :=
  ∀ s : State, s.quiet → s.txnOpen = true → s.ctrlEnable = true →
    (∀ gs, s.q = [] → engineReady s = true → s.envGrants = 0 :: gs →
      exec .stop s =
        .next { s with
          wif := false, rif := false, wc := 0, q := [.stop], txnOpen := false, result := .ok, envGrants := gs
          trace := s.trace ++ [.issueStop, .done .stop .ok] }) ∧
    (∀ g gs, s.q = [] → engineReady s = true → s.envGrants = (g + 1) :: gs →
      exec .stop s =
        .next { s with
          wif := false, rif := false, wc := 0, busState := .idle, txnOpen := false, result := .ok, envGrants := gs
          trace := s.trace ++ [.issueStop, .wStop, .done .stop .ok] }) ∧
    (∀ a g h gs, s.q = [.addr a] → s.envGrants = (g + 1) :: (h + 1) :: gs →
      exec .stop s =
        .next { s with
          wif := false, rif := false, wc := 0, busState := .idle, q := [], txnOpen := false, result := .ok, envGrants := gs
          trace := s.trace ++ [startEvent s.busState a, .issueStop, .wStop, .done .stop .ok] })

/-- R158: `WAIT` ends `OK` at the first poll that sees a flag, and leaves the flags as they are; the second clause is a flag that the
engine raises before the poll. -/
def Obligations.WaitResult : Prop :=
  (∀ s : State, s.quiet → s.q = [] → engineReady s = true →
    exec .wait s =
      .next { s with wc := 0, result := .ok, trace := s.trace ++ [.done .wait .ok] }) ∧
  (∀ (s : State) (a : Byte) (g : Nat) (gs : List Nat),
    s.quiet → s.ctrlEnable = true → s.q = [.addr a] → s.envGrants = (g + 1) :: gs →
    exec .wait s =
      .next { s with
        wif := true, busState := .busy, q := [], wc := 0, result := .ok, envGrants := gs
        trace := s.trace ++ [startEvent s.busState a, .done .wait .ok] })

/-- R159: `DIS`, after whatever the engine did before it: registers and flags keep their values, the queue and the transaction are
abandoned. -/
def Obligations.DisResult : Prop :=
  ∀ s : State, s.accepts →
    exec .dis s =
      .next { engineTurn s with
        ctrlEnable := false
        q := []
        txnOpen := false
        result := .ok
        trace := (engineTurn s).trace ++ [.disable, .done .dis .ok] }

/-- R160: `EN`, with nothing queued. -/
def Obligations.EnResult : Prop :=
  ∀ s : State, s.quiet → s.q = [] →
    exec .en s =
      .next { s with
        ctrlEnable := true
        sda := { s.sda with dir := .input }
        scl := { s.scl with dir := .input }
        busState := .idle
        result := .ok
        violated := s.violated || !s.bmInited
        trace := s.trace ++ [.enable, .pinDir .sda .input, .pinDir .scl .input, .forceIdle, .done .en .ok] }

/-- The frame of the operations that never wait, from every state that accepts one and whatever the engine does meanwhile: what they
write outside the engine's own part of the state, and that they write nothing else there (R153, R154, R159, R160). -/
def Obligations.NonWaitingOperationsFrame : Prop :=
  ∀ s : State, s.accepts →
    (∀ d, ∃ t, exec (.binit d) s = .next t ∧ t.q = [] ∧
      t.sequencerPart =
        { s.sequencerPart with
          divisor := d, ctrlEnable := true, rif := false, txnOpen := false, bmInited := true, busReset := false
          result := .ok, violated := s.violated || !requires (.binit d) s
          trace := controlEvents s.trace ++ [.setDivisor d, .enable, .clearFlags, .forceIdle, .done .binit .ok] }) ∧
    (∀ a, ∃ t, exec (.start a) s = .next t ∧
      t.sequencerPart =
        { s.sequencerPart with
          maddr := a, rif := false, txnOpen := true, result := .ok, violated := s.violated || !requires (.start a) s
          trace := controlEvents s.trace ++ [.issueAddr a, .done .start .ok] }) ∧
    (∃ t, exec .dis s = .next t ∧ t.q = [] ∧
      t.sequencerPart =
        { s.sequencerPart with
          ctrlEnable := false, txnOpen := false, result := .ok
          trace := controlEvents s.trace ++ [.disable, .done .dis .ok] }) ∧
    (∃ t, exec .en s = .next t ∧
      t.sequencerPart =
        { s.sequencerPart with
          ctrlEnable := true, sda := { s.sda with dir := .input }, scl := { s.scl with dir := .input }
          result := .ok, violated := s.violated || !s.bmInited
          trace := controlEvents s.trace ++
            [.enable, .pinDir .sda .input, .pinDir .scl .input, .forceIdle, .done .en .ok] })

/-- R158, R251, R262: a poll that finds no flag, with nothing queued, or with an action queued that the engine does not perform. It is
counted; it ends the operation `TIMED_OUT` exactly when it is the last that `WAIT_POLL_LIMIT` allows, and otherwise the operation is held
in its wait. Nothing else changes: what was queued is still queued, not performed. -/
def Obligations.FailedPollHoldsOrTimesOut : Prop :=
  ∀ (s : State) (op : OpName) (i : Instr) (gs : List Nat), s.noReset → engineReady s = false → s.standsStill gs →
    (op = .wait ∧ i = .wait ∨ op = .stop ∧ i = .stop ∨ ∃ b, op = .wrb ∧ i = .wrb b) →
    (∀ n v, (s.seq = .idle ∧ n = 0 ∧ v = (s.violated || !requires i s)) ∨
          (s.seq = .waiting i .wait1 ∧ n = s.wc ∧ v = s.violated) →
      (∀ l, waitPollLimit s.cfg = some l → l ≤ n + 1 →
        exec i s =
          .next { s with
            wc := n + 1, seq := .idle, result := .timedOut, faults := s.faults ||| 0b001, violated := v, envGrants := gs
            trace := s.trace ++ [.done op .timedOut] }) ∧
      ((waitPollLimit s.cfg = none ∨ ∃ l, waitPollLimit s.cfg = some l ∧ n + 1 < l) →
        exec i s = .next { s with wc := n + 1, seq := .waiting i .wait1, violated := v, envGrants := gs }))

/-- R257, R302: with no poll limit, no flag up and no reset, an operation held in any of its waits is held there after every number of
steps through which the engine stands still: it is off, or has nothing queued, or is withheld at each of them. A string's tail after its
terminator is no part of what is left to send, so a held `DWSTR` may be held without it. -/
def Obligations.UnboundedWaitHangs : Prop :=
  ∀ (s : State) (i : Instr) (k : Stage), s.noReset → s.seq = .waiting i k → heldAt i k = true →
    (i = .dinit → s.InitProgress) → engineReady s = false → waitPollLimit s.cfg = none →
    ∀ n, (s.q = [] ∨ s.ctrlEnable = false ∨ ∃ gs, s.envGrants = List.replicate n 0 ++ gs) →
      ∃ t j, Host.Core.run Sys2Proof.core n s = .next t ∧ t.seq = .waiting j k ∧ ((∀ bs, i ≠ .dwstr bs) → j = i) ∧
        t.q = s.q ∧ t.txnOpen = s.txnOpen ∧ t.result = s.result ∧ t.trace = s.trace ∧ t.wc = s.wc + n

/-- R155, R302, U1: `WRB` and `STOP` whose wait ends with no transaction open have no meaning; the refusals are the
model's (log entry 6). -/
def Obligations.NoTransactionIsRefused : Prop :=
  ∀ s : State, s.quiet → s.q = [] → engineReady s = true → s.txnOpen = false →
    (∀ b, exec (.wrb b) s = .refused .byteWithoutTransaction) ∧ exec .stop s = .refused .stopWithoutTransaction

/-- R154, R258, U4: a nested start sends a repeated start, and the run has violated a contract; a model that refuses violations
refuses it. That the machine itself executes and records it is the model's choice (log entry 5). -/
def Obligations.NestedStartIsRepeatedStart : Prop :=
  ∀ (s : State) (a : Byte) (g : Nat) (gs : List Nat) (rest : List Request),
    s.quiet → s.q = [] → s.ctrlEnable = true → s.txnOpen = true → s.busState = .busy →
    s.envGrants = (g + 1) :: gs → s.host = .call (.start a) :: rest →
    step s =
      .next { s with
        maddr := a, wif := true, rif := false, result := .ok, violated := true, envGrants := gs, host := rest
        trace := s.trace ++ [.issueAddr a, .wRstart a, .done .start .ok] } ∧
    contractStep s = .refused .contractViolation

/-- R303: a block held inside an operation accepts no other; the refusal is the model's (log entry 16, U15). -/
def Obligations.BusyBlockAcceptsNothing : Prop :=
  ∀ (s : State) (i j : Instr) (k : Stage), s.seq = .waiting j k → i ≠ j → i.wellFormed = true →
    exec i s = .refused .commandWhileBusy

/-- R295: what must hold before each operation, clause by clause. -/
def Obligations.RequiresAsListed : Prop :=
  ∀ s : State,
    (requires .dis s = true) ∧
    (requires .brst s = true ↔ s.bmInited = true) ∧
    (requires .en s = true ↔ s.bmInited = true) ∧
    (∀ d, requires (.binit d) s = true ↔ s.bmInited = false ∧ d = s.cfg.divisorCfg) ∧
    (∀ a, requires (.start a) s = true ↔
      s.bmInited = true ∧ s.ctrlEnable = true ∧ s.txnOpen = false ∧ a.toNat % 2 = 0) ∧
    (∀ b, requires (.wrb b) s = true ↔ s.txnOpen = true) ∧
    (requires .stop s = true ↔ s.txnOpen = true) ∧
    (requires .dinit s = true ↔
      s.bmInited = true ∧ s.busReset = true ∧ s.ctrlEnable = true ∧ s.txnOpen = false ∧ s.phase ≠ .ready) ∧
    (∀ c, requires (.wcmd c) s = true ↔
      s.bmInited = true ∧ s.ctrlEnable = true ∧ s.txnOpen = false ∧ s.phase = .ready) ∧
    (∀ o, requires (.scur o) s = true ↔
      requires (.wcmd o) s = true ∧ o.toNat ≤ s.cfg.cursorOffsetMax ∧ o &&& s.cfg.cursorBase = 0) ∧
    (∀ o, requires (.sgly o) s = true ↔
      requires (.wcmd o) s = true ∧ (o = 0 ∨ o = 8 ∨ o = 16 ∨ o = 24 ∨ o = 32 ∨ o = 40)) ∧
    (∀ b, requires (.wchr b) s = true ↔ requires (.wcmd b) s = true) ∧
    (requires .wait s = true ↔ s.wif = true ∨ s.rif = true ∨ (s.ctrlEnable = true ∧ ∃ x ∈ s.q, x ≠ .stop))

/-! ### Bus recovery -/

/-- R190, R192: `BRST` on a free bus: one read of the data line, no attempt, `OK`. -/
def Obligations.BrstOnFreeBus : Prop :=
  ∀ (s : State) (ls : List Bool), s.quiet → s.q = [] → s.envLines = true :: ls →
    exec .brst s =
      .next { s with
        ctrlEnable := true, busState := .idle, txnOpen := false, busReset := true, result := .ok, rcOuter := 0
        sda := { s.sda with dir := .input, pu := true }
        scl := { s.scl with dir := .input, pu := true }
        envLines := ls
        violated := s.violated || !s.bmInited
        trace := s.trace ++ recoveryStep1Events ++ [.pinRead .sda true] ++ recoveryStep3Events ++ [.done .brst .ok] }

/-- R193, R194, R196: the data line is low and goes high after K pulses, 1 ≤ K ≤ 16: exactly K pulses, one manual stop, `OK`. -/
def Obligations.BrstFreedAfterPulses : Prop :=
  ∀ (s : State) (k : Nat) (ls : List Bool), s.quiet → s.q = [] → 1 ≤ k → k ≤ 16 →
    s.envLines = false :: (List.replicate (k - 1) false ++ true :: true :: ls) →
    exec .brst s =
      .next { s with
        ctrlEnable := true, busState := .idle, txnOpen := false, busReset := true, result := .ok, rcOuter := 1
        rcInner := BitVec.ofNat 5 k
        sda := { dir := .input, out := false, pu := true }
        scl := { dir := .input, out := true, pu := true }
        envLines := ls
        violated := s.violated || !s.bmInited
        trace := s.trace ++ recoveryStep1Events ++ [.pinRead .sda false, .pinOut .scl true, .pinDir .scl .output] ++
          (List.replicate (k - 1) (pulseEvents (halfPeriodUs s.cfg) false)).flatten ++
          pulseEvents (halfPeriodUs s.cfg) true ++ manualStopEvents (halfPeriodUs s.cfg) ++
          [.pinRead .sda true] ++ recoveryStep3Events ++ [.done .brst .ok] }

/-- R192, R195, V22: the data line never goes high: three attempts of sixteen pulses, then the engine is enabled again and the
exhaustion is reported. -/
def Obligations.BrstExhausted : Prop :=
  ∀ (s : State) (ls : List Bool), s.quiet → s.q = [] → s.envLines = List.replicate 51 false ++ ls →
    exec .brst s =
      .next { s with
        ctrlEnable := true, busState := .idle, txnOpen := false, busReset := true
        result := .recoveryExhausted, faults := s.faults ||| 0b010, rcOuter := 3, rcInner := 16
        sda := { dir := .input, out := false, pu := true }
        scl := { dir := .input, out := true, pu := true }
        envLines := ls
        violated := s.violated || !s.bmInited
        trace := s.trace ++ recoveryStep1Events ++
          (List.replicate 3
            ([.pinRead .sda false, .pinOut .scl true, .pinDir .scl .output] ++
              (List.replicate 16 (pulseEvents (halfPeriodUs s.cfg) false)).flatten ++
              manualStopEvents (halfPeriodUs s.cfg))).flatten ++
          recoveryStep3Events ++ [.done .brst .recoveryExhausted] }

/-- R195, R196: whatever the engine and the lines do, `BRST` ends, within the bounds of R196, with the engine enabled, both pins released
with pull-ups on, the queue empty and the transaction closed; its result is `OK` or `RECOVERY_EXHAUSTED`. -/
def Obligations.BrstAlwaysEndsEnabled : Prop :=
  ∀ s : State, s.accepts →
    ∃ t evs, exec .brst s = .next t ∧ controlEvents t.trace = controlEvents s.trace ++ evs ∧
      1 ≤ evs.countP (fun e => e = .pinRead .sda true ∨ e = .pinRead .sda false) ∧
      evs.countP (fun e => e = .pinRead .sda true ∨ e = .pinRead .sda false) ≤ 51 ∧
      evs.countP (fun e => e = .delayUs (halfPeriodUs s.cfg)) ≤ 108 ∧
      t.ctrlEnable = true ∧ t.busState = .idle ∧ t.q = [] ∧ t.txnOpen = false ∧ t.busReset = true ∧ t.seq = .idle ∧
      t.sda.dir = .input ∧ t.scl.dir = .input ∧ t.sda.pu = true ∧ t.scl.pu = true ∧
      ((t.result = .ok ∧ t.faults = s.faults) ∨ (t.result = .recoveryExhausted ∧ t.faults = s.faults ||| 0b010)) ∧
      t.maddr = s.maddr ∧ t.mdata = s.mdata ∧ t.divisor = s.divisor ∧ t.phase = s.phase ∧ t.dcIp = s.dcIp ∧
      t.rif = s.rif ∧ t.wc = s.wc ∧ t.bmInited = s.bmInited ∧ t.dispPhase = s.dispPhase ∧ t.dispMode = s.dispMode ∧
      t.host = s.host ∧ t.answer = s.answer ∧ t.cfg = s.cfg

/-! ### The Display Controller -/

/-- R211, R218, R219: `WCMD c` on an engine at rest that is granted its steps. Which bytes have the form of a set-address command, those
that hold every bit of a base, is the model's reading (log entry 13). -/
def Obligations.WcmdResult : Prop :=
  ∀ (c : Byte) (s : State) (g1 g2 g3 g4 : Nat) (gs : List Nat), s.quiet → s.engineAtRest →
    s.envGrants = (g1 + 1) :: (g2 + 1) :: (g3 + 1) :: (g4 + 1) :: gs →
    exec (.wcmd c) s =
      .next { s with
        maddr := 0x7C, mdata := c, wif := false, rif := false, wc := 0, txnOpen := false, result := .ok, envGrants := gs
        violated := s.violated || !requires (.wcmd c) s
        dispMode :=
          if c &&& s.cfg.cursorBase = s.cfg.cursorBase ∨ c &&& s.cfg.glyphBase = s.cfg.glyphBase then
            Config.freeMode s.draws
          else s.dispMode
        draws :=
          if c &&& s.cfg.cursorBase = s.cfg.cursorBase ∨ c &&& s.cfg.glyphBase = s.cfg.glyphBase then s.draws + 1
          else s.draws
        trace := s.trace ++ frameEvents 0x00 c ++ [.done .wcmd .ok] }

/-- R212, R117: `SCUR o`. The one free value drawn is the display's mode while the operation runs (log entry 13). -/
def Obligations.ScurResult : Prop :=
  ∀ (o : Byte) (s : State) (g1 g2 g3 g4 : Nat) (gs : List Nat), s.quiet → s.engineAtRest →
    s.envGrants = (g1 + 1) :: (g2 + 1) :: (g3 + 1) :: (g4 + 1) :: gs →
    exec (.scur o) s =
      .next { s with
        maddr := 0x7C, mdata := s.cfg.cursorBase ||| o, wif := false, rif := false, wc := 0, txnOpen := false
        result := .ok, envGrants := gs, draws := s.draws + 1, dispMode := .cursor
        violated := s.violated || !requires (.scur o) s
        trace := s.trace ++ frameEvents 0x00 (s.cfg.cursorBase ||| o) ++ [.done .scur .ok] }

/-- R213, R118: `SGLY o`. The one free value drawn is the display's mode while the operation runs (log entry 13). -/
def Obligations.SglyResult : Prop :=
  ∀ (o : Byte) (s : State) (g1 g2 g3 g4 : Nat) (gs : List Nat), s.quiet → s.engineAtRest →
    s.envGrants = (g1 + 1) :: (g2 + 1) :: (g3 + 1) :: (g4 + 1) :: gs →
    exec (.sgly o) s =
      .next { s with
        maddr := 0x7C, mdata := s.cfg.glyphBase ||| o, wif := false, rif := false, wc := 0, txnOpen := false
        result := .ok, envGrants := gs, draws := s.draws + 1, dispMode := .glyph
        violated := s.violated || !requires (.sgly o) s
        trace := s.trace ++ frameEvents 0x00 (s.cfg.glyphBase ||| o) ++ [.done .sgly .ok] }

/-- R214, R96: `WCHR b`; in the second clause the operation returns with its stop issued and not performed. -/
def Obligations.WchrResult : Prop :=
  ∀ (b : Byte) (s : State) (g1 g2 g3 : Nat) (gs : List Nat), s.quiet → s.engineAtRest →
    (∀ g4, s.envGrants = (g1 + 1) :: (g2 + 1) :: (g3 + 1) :: (g4 + 1) :: gs →
      exec (.wchr b) s =
        .next { s with
          maddr := 0x7C, mdata := b, wif := false, rif := false, wc := 0, txnOpen := false, result := .ok
          envGrants := gs
          violated := s.violated || !requires (.wchr b) s
          trace := s.trace ++ frameEvents 0x40 b ++ [.done .wchr .ok] }) ∧
    (s.envGrants = (g1 + 1) :: (g2 + 1) :: (g3 + 1) :: 0 :: 0 :: gs →
      exec (.wchr b) s =
        .next { s with
          maddr := 0x7C, mdata := b, wif := false, rif := false, wc := 0, txnOpen := false, result := .ok
          envGrants := gs, q := [.stop], busState := .busy
          violated := s.violated || !requires (.wchr b) s
          trace := s.trace ++
            [.issueAddr 0x7C, .wStart 0x7C, .issueData 0x40, .wByte 0x40, .issueData b, .wByte b, .issueStop,
             .done .wchr .ok] })

/-- R211, R214, R217, R219, R262: whatever the engine and the environment do, a framer operation that starts, or is resumed in one of its
waits, makes the issues it has left, in order. Ended `OK` it has made them all: address byte, selector, payload and stop, a function of
the operand and the configuration. Held in a wait, or ended `TIMED_OUT` at one, it has made exactly those before that wait, the stop not
among them. -/
def Obligations.FramerTrafficIsExact : Prop :=
  ∀ (s t : State) (i : Instr) (op : OpName) (sel x : Byte) (k : Stage), s.noReset →
    (s.seq = .idle ∧ k = .start ∨ s.seq = .waiting i k ∧ k ≠ .start) → framed s.cfg i = some (op, sel, x) →
    exec i s = .next t →
    (t.seq = .idle → t.result = .ok →
      controlEvents t.trace = controlEvents s.trace ++ framerLeft sel x k ++ [.done op .ok]) ∧
    (∀ j, t.seq = .waiting i j →
      j ≠ .start ∧ controlEvents t.trace ++ framerLeft sel x j = controlEvents s.trace ++ framerLeft sel x k) ∧
    (t.seq = .idle → t.result ≠ .ok →
      t.result = .timedOut ∧ ∃ j evs, j ≠ .start ∧ evs ++ framerLeft sel x j = framerLeft sel x k ∧
        controlEvents t.trace = controlEvents s.trace ++ evs ++ [.done op .timedOut])

/-- The frame of the framer operations, started by an idle block or resumed in a wait: whatever happens, ended, timed out or held, they
change no register of the block outside `MADDR`, `MDATA`, the flags, `WC`, `Q`, `G.TXN_OPEN`, `RESULT` and `FAULTS` (R211, R217); a start
loads `MADDR`, a resumption does not; and `WCHR` leaves `DISP.MODE` (R218, R306). -/
def Obligations.FramerFrame : Prop :=
  ∀ (s t : State) (i : Instr) (op : OpName) (sel x : Byte) (k : Stage), s.noReset →
    (s.seq = .idle ∧ k = .start ∨ s.seq = .waiting i k ∧ k ≠ .start) → framed s.cfg i = some (op, sel, x) →
    exec i s = .next t →
    t.divisor = s.divisor ∧ t.ctrlEnable = s.ctrlEnable ∧ t.phase = s.phase ∧ t.dcIp = s.dcIp ∧ t.rcOuter = s.rcOuter ∧
    t.rcInner = s.rcInner ∧ t.sda = s.sda ∧ t.scl = s.scl ∧ t.bmInited = s.bmInited ∧ t.busReset = s.busReset ∧
    t.dispPhase = s.dispPhase ∧ t.host = s.host ∧ t.answer = s.answer ∧ t.cfg = s.cfg ∧ t.envLines = s.envLines ∧
    t.noReset ∧
    (k = .start → t.maddr = 0x7C ∧ t.rif = false) ∧
    (k ≠ .start → t.maddr = s.maddr ∧ (s.rif = false → t.rif = false)) ∧
    (op = .wchr → t.dispMode = s.dispMode) ∧
    (op = .scur → t.seq = .idle → t.result = .ok → t.dispMode = .cursor) ∧
    (op = .sgly → t.seq = .idle → t.result = .ok → t.dispMode = .glyph)

/-- R219, R262, V16: a `WCHR` whose k-th wait fails with a poll limit of 1: the first k actions are issued, no stop is, the transaction
stays open, and the result is `TIMED_OUT`. -/
def Obligations.WchrTimesOutAtEachWait : Prop :=
  ∀ (b : Byte) (s : State) (g h : Nat) (gs : List Nat), s.quiet → s.engineAtRest →
    waitPollLimit s.cfg = some 1 →
    (s.envGrants = 0 :: gs →
      exec (.wchr b) s =
        .next { s with
          maddr := 0x7C, wif := false, rif := false, wc := 1, q := [.addr 0x7C], txnOpen := true, result := .timedOut
          faults := s.faults ||| 0b001, envGrants := gs, violated := s.violated || !requires (.wchr b) s
          trace := s.trace ++ [.issueAddr 0x7C, .done .wchr .timedOut] }) ∧
    (s.envGrants = (g + 1) :: 0 :: gs →
      exec (.wchr b) s =
        .next { s with
          maddr := 0x7C, mdata := 0x40, wif := false, rif := false, wc := 1, q := [.data 0x40], busState := .busy
          txnOpen := true, result := .timedOut
          faults := s.faults ||| 0b001, envGrants := gs, violated := s.violated || !requires (.wchr b) s
          trace := s.trace ++ [.issueAddr 0x7C, .wStart 0x7C, .issueData 0x40, .done .wchr .timedOut] }) ∧
    (s.envGrants = (g + 1) :: (h + 1) :: 0 :: gs →
      exec (.wchr b) s =
        .next { s with
          maddr := 0x7C, mdata := b, wif := false, rif := false, wc := 1, q := [.data b], busState := .busy
          txnOpen := true, result := .timedOut
          faults := s.faults ||| 0b001, envGrants := gs, violated := s.violated || !requires (.wchr b) s
          trace := s.trace ++
            [.issueAddr 0x7C, .wStart 0x7C, .issueData 0x40, .wByte 0x40, .issueData b, .done .wchr .timedOut] })

/-- R231 to R233: `DINIT` on an engine at rest that is granted its steps runs every entry of the table in order, each once, and ends
`READY`. What the display's ghost state becomes, free values where the spec leaves it open, is as log entry 13 says. -/
def Obligations.DinitRunsTheTable : Prop :=
  ∀ (s : State), s.quiet → s.engineAtRest → s.granted (4 * initLen s.cfg) →
    exec .dinit s =
      .next { s with
        phase := .ready
        dcIp := BitVec.ofNat 8 (initLen s.cfg)
        maddr := 0x7C
        mdata := 0x01
        wif := false
        rif := false
        wc := 0
        txnOpen := false
        result := .ok
        dispPhase := if s.cfg.displayFollows then .ready else Config.freePhase (s.draws + 2)
        dispMode := Config.freeMode (s.draws + 3)
        draws := s.draws + 4
        envGrants := s.envGrants.drop (4 * (initTable s.cfg).countP (fun e => (entryBytes e).1 == 0))
        violated := s.violated || !requires .dinit s
        trace := s.trace ++ (initTable s.cfg).flatMap entryEvents ++ [.done .dinit .ok] }

/-- R236: a command step of `DINIT` that times out ends it, at any command entry and any of its three waits: the phase stays
`INITIALIZING`, `DC.IP` stays at the failing entry, the transaction stays open, the settle delay is not made, and the display's mode is
unknown. First, from the start with a poll limit of 1, entry `n` failing at its wait `j + 1`; then, held at an entry in one of its waits,
with any limit that this poll reaches. -/
def Obligations.DinitTimesOutAtEntry : Prop :=
  (∀ (s : State) (n j : Nat) (v : Byte) (gs hs : List Nat), s.quiet → s.engineAtRest → waitPollLimit s.cfg = some 1 →
    (initTable s.cfg)[n]? = some (.command v) → j < 3 →
    gs.length = 4 * ((initTable s.cfg).take n).countP (fun e => (entryBytes e).1 == 0) + j → (∀ g ∈ gs, 1 ≤ g) →
    s.envGrants = gs ++ 0 :: hs →
    ∃ t, exec .dinit s = .next t ∧
      t.trace = s.trace ++ ((initTable s.cfg).take n).flatMap entryEvents ++ (frameEvents 0x00 v).take (2 * j + 1) ++
        [.done .dinit .timedOut] ∧
      t.phase = .initializing ∧ t.dcIp = BitVec.ofNat 8 n ∧ t.result = .timedOut ∧ t.faults = s.faults ||| 0b001 ∧
      t.txnOpen = true ∧ t.q = (match j with | 0 => [.addr 0x7C] | 1 => [.data 0x00] | _ => [.data v]) ∧ t.wc = 1 ∧
      t.seq = .idle ∧ t.envGrants = hs ∧ t.dispMode = Config.freeMode (s.draws + 1)) ∧
  (∀ (s : State) (k : Stage) (v : Byte) (l : Nat) (gs : List Nat), s.noReset → s.seq = .waiting .dinit k → k ≠ .start →
    (initTable s.cfg)[s.dcIp.toNat]? = some (.command v) → engineReady s = false → s.standsStill gs →
    waitPollLimit s.cfg = some l → l ≤ s.wc + 1 →
    exec .dinit s =
      .next { s with
        wc := s.wc + 1, seq := .idle, result := .timedOut, faults := s.faults ||| 0b001, envGrants := gs
        trace := s.trace ++ [.done .dinit .timedOut] })

/-! ### Rows without a command word, and reserved words -/

/-- R156: `WARR bytes` inside an open transaction with a flag up, on an engine that keeps up: every byte, in order, in the one
transaction. -/
def Obligations.WarrResult : Prop :=
  ∀ (bs : List Byte) (s : State), s.quiet → s.q = [] → s.ctrlEnable = true → s.busState = .busy → s.wif = true →
    s.txnOpen = true → s.granted bs.length →
    exec (.warr bs) s =
      .next { s with
        mdata := bs.getLast?.getD s.mdata
        rif := if bs = [] then s.rif else false
        wc := if bs = [] then s.wc else 0
        result := if bs = [] then s.result else .ok
        envGrants := s.envGrants.drop bs.length
        trace := s.trace ++ bs.flatMap (fun b => [.issueData b, .wByte b, .done .wrb .ok]) }

/-- R215: `DWARR bytes` on an engine at rest that keeps up: one display transaction per byte, in order; a `0x00` is sent. -/
def Obligations.DwarrResult : Prop :=
  ∀ (bs : List Byte) (s : State), s.quiet → s.engineAtRest → s.granted (4 * bs.length) →
    exec (.dwarr bs) s =
      .next { s with
        maddr := if bs = [] then s.maddr else 0x7C
        mdata := bs.getLast?.getD s.mdata
        wif := if bs = [] then s.wif else false
        rif := if bs = [] then s.rif else false
        wc := if bs = [] then s.wc else 0
        txnOpen := if bs = [] then s.txnOpen else false
        result := if bs = [] then s.result else .ok
        envGrants := s.envGrants.drop (4 * bs.length)
        violated := s.violated || !requires (.dwarr bs) s
        trace := s.trace ++ bs.flatMap (fun b => frameEvents 0x40 b ++ [.done .wchr .ok]) }

/-- R216: `DWSTR` sends the bytes before the first `0x00`, one transaction each, and neither the terminator nor what follows it. A list
without a terminator is outside the contract (U6), and the refusal is the model's (log entry 12). -/
def Obligations.DwstrResult : Prop :=
  (∀ (body tail : List Byte) (s : State), 0x00 ∉ body → s.quiet → s.engineAtRest → s.granted (4 * body.length) →
    exec (.dwstr (body ++ 0x00 :: tail)) s =
      .next { s with
        maddr := if body = [] then s.maddr else 0x7C
        mdata := body.getLast?.getD s.mdata
        wif := if body = [] then s.wif else false
        rif := if body = [] then s.rif else false
        wc := if body = [] then s.wc else 0
        txnOpen := if body = [] then s.txnOpen else false
        result := if body = [] then s.result else .ok
        envGrants := s.envGrants.drop (4 * body.length)
        violated := s.violated || !requires (.dwstr (body ++ 0x00 :: tail)) s
        trace := s.trace ++ body.flatMap (fun b => frameEvents 0x40 b ++ [.done .wchr .ok]) }) ∧
  (∀ (bs : List Byte) (s : State), 0x00 ∉ bs → exec (.dwstr bs) s = .refused .unterminatedString)

/-- R151: the value handed to the caller is the exact rational of the formula, truncated toward zero; no state of the block
changes. That the host calls it at run time and is handed the value in `answer` is the model's choice (log entry 11), and that the engine
has a turn before it is the model's reading (log entry 22). -/
def Obligations.ComputeDivisorResult : Prop :=
  ∀ (c t r : Nat) (s : State), s.accepts →
    t ≠ 0 → ∀ x : ℚ, x = ((c : ℚ) / t - 10 - (c : ℚ) * r / 1000000000) / 2 →
      exec (.computeDivisor c t r) s =
        .next { engineTurn s with answer := .divisor (if 0 ≤ x then ⌊x⌋ else ⌈x⌉) }

/-- R161 (d), U3: a bus frequency of 0 has no result. That the caller is then handed the answer `noValue`, and that the contract
violation is recorded, are the model's choices (log entries 11 and 5). -/
def Obligations.ZeroBusFrequencyHasNoResult : Prop :=
  ∀ (c r : Nat) (s : State), s.accepts →
    computeDivisor c 0 r = none ∧
    exec (.computeDivisor c 0 r) s = .next { engineTurn { s with violated := true } with answer := .noValue }

/-- R161 (f): `computeDivisor` is non-increasing in the bus frequency and in the rise time. -/
def Obligations.ComputeDivisorMonotone : Prop :=
  ∀ (c t t' r r' : Nat) (d d' : Int), t ≤ t' → r ≤ r' →
    computeDivisor c t r = some d → computeDivisor c t' r' = some d' → d' ≤ d

/-- R152: a divisor is admitted exactly when the bus frequency is not 0 and the result lies in 0..255; it is then the result. -/
def Obligations.DivisorAdmission : Prop :=
  ∀ (c t r : Nat) (d : Byte),
    admitDivisor c t r = some d ↔ t ≠ 0 ∧ computeDivisor c t r = some (d.toNat : Int)

/-- R255, R121, R152, R235 (and R13, R20): which configurations are built, and that the table, the divisor, the half-period and the poll
limit of the machine are the ones given. -/
def Obligations.BuildConfigAdmits : Prop :=
  ∀ r : RawConfig,
    ((∃ c, buildConfig r = .ok c) ↔
      ((∃ d : Byte, computeDivisor r.cpuHz r.busHz r.riseNs = some (d.toNat : Int)) ∧
        2 ≤ r.table.length ∧ r.table.length ≤ 255 ∧ (∀ kv ∈ r.table, kv.1 = 0 ∨ kv.1 = 1) ∧
        r.table.head? = some (1, 50) ∧ r.table.getLast? = some (0, 0x01) ∧
        25 ≤ r.halfPeriodUs ∧ r.halfPeriodUs ≤ 50 ∧ r.pollLimit ≠ some 0)) ∧
    (∀ c, buildConfig r = .ok c →
      (initTable c).map entryBytes = r.table ∧
      computeDivisor r.cpuHz r.busHz r.riseNs = some (c.divisorCfg.toNat : Int) ∧
      (halfPeriodUs c).toNat = r.halfPeriodUs ∧ waitPollLimit c = r.pollLimit ∧ c.cursorBase = r.cursorBase ∧
      c.glyphBase = r.glyphBase ∧ c.cursorOffsetMax = r.cursorOffsetMax)

/-- R15, R235 and R72: every configuration's table is an admitted one, and `INIT_ROM` holds entry i at bytes 2·i and 2·i + 1, in
strictly rising addresses and nowhere else. -/
def Obligations.InitRomLayout : Prop :=
  ∀ c : Config,
    2 ≤ initLen c ∧ initLen c ≤ 255 ∧ memRead c 0 = some (1, 50) ∧ memRead c (initLen c - 1) = some (0, 0x01) ∧
    (∀ i, initLen c ≤ i → memRead c i = none) ∧
    (∀ i, i < initLen c → ∃ kind value, memRead c i = some (kind, value) ∧ (kind = 0 ∨ kind = 1) ∧
      (initRom c)[2 * i]? = some (2 * i, kind) ∧ (initRom c)[2 * i + 1]? = some (2 * i + 1, value)) ∧
    (initRom c).length = 2 * initLen c ∧ romWf (initRom c) = true

/-- R253, R112: a reserved word changes `RESULT` and `FAULTS`, and emits its one event; nothing else changes. That the engine has a turn
before it, in which it touches nothing of the sequencer, is the model's reading of R8 and R78 (log entry 22). The last clause is the step that meets such a word, given by
its three fields. -/
def Obligations.IllegalResult : Prop :=
  ∀ (s : State) (w : Word), s.accepts →
    (s.q = [] →
      exec (.illegal w) s =
        .next { s with
          result := .illegalCommand
          faults := s.faults ||| 0b100
          trace := s.trace ++ [.done .illegal .illegalCommand] }) ∧
    exec (.illegal w) s =
      .next { engineTurn s with
        result := .illegalCommand
        faults := s.faults ||| 0b100
        trace := (engineTurn s).trace ++ [.done .illegal .illegalCommand] } ∧
    (engineTurn s).sequencerPart = s.sequencerPart ∧
    ∀ (unit fn imm : Nat) (rest : List Request),
      unit = w.toNat / 4096 → fn = w.toNat / 256 % 16 → imm = w.toNat % 256 →
      (2 ≤ unit ∨ (unit = 0 ∧ (fn = 0 ∨ 9 ≤ fn)) ∨ (unit = 1 ∧ 5 ≤ fn) ∨
        (((unit = 0 ∧ 4 ≤ fn ∧ fn ≤ 8) ∨ (unit = 1 ∧ fn = 0)) ∧ imm ≠ 0)) →
      s.host = .word w :: rest →
      step s =
        .next { engineTurn { s with host := rest } with
          result := .illegalCommand
          faults := s.faults ||| 0b100
          trace := (engineTurn { s with host := rest }).trace ++ [.done .illegal .illegalCommand] }

/-! ### Invariants of every step -/

/-- Reset satisfies the four invariants. -/
def Obligations.ResetSatisfiesInvariants : Prop :=
  State.reset.QueueOrder ∧ State.reset.RifClear ∧ State.reset.InitProgress ∧ State.reset.SingleBuffer

/-- R94: every step keeps that the performed actions, then the queued ones, are issued actions in issue order. -/
def Obligations.QueueOrderKept : Prop :=
  ∀ s t : State, s.QueueOrder → step s = .next t → t.QueueOrder

/-- R41: no step sets the read-complete flag. -/
def Obligations.ReadFlagNeverSet : Prop :=
  ∀ s t : State, s.RifClear → step s = .next t → t.RifClear

/-- R231, R234, R236: every step keeps the initialization state machine and its index together; and from such a state no step faults. -/
def Obligations.InitProgressKept : Prop :=
  ∀ s : State, s.InitProgress → (∀ t, step s = .next t → t.InitProgress) ∧ ∀ r, step s ≠ .fault r

/-- R50, R94, R301: every step keeps the single buffer, as long as every contract is kept, in the states in which the initialization
state machine is where R231 and R236 let it be (InitProgressKept). -/
def Obligations.SingleBufferKept : Prop :=
  ∀ s t : State, s.InitProgress → s.SingleBuffer → step s = .next t → t.SingleBuffer

/-- R45, R53, R24: every step but a reset keeps every bit of `FAULTS`, the configuration and the trace so far, and forgets no contract
violation; that a violation is recorded, in a bit that only a reset clears, is the model's choice (log entry 5). -/
def Obligations.StepForgetsNothing : Prop :=
  ∀ s t : State, s.resetIn = false → step s = .next t →
    s.faults &&& t.faults = s.faults ∧ t.cfg = s.cfg ∧ s.trace <+: t.trace ∧ (s.violated = true → t.violated = true)
end

