-- ==== Sys2Proof/Laws/Encoding.lean ====
section
/-! SUPPORT. The three fields of a command word (R110): what they are of a word put together, and that a word is put together from its fields. -/

namespace Sys2Proof

theorem commandWord_getLsbD (u f : BitVec 4) (x : Byte) (i : Nat) :
    (commandWord u f x).getLsbD i =
      if i < 8 then x.getLsbD i else if i - 8 < 4 then f.getLsbD (i - 8) else u.getLsbD (i - 8 - 4) :=
  (BitVec.getLsbD_append (x := u ++ f) (y := x)).trans (by rw [BitVec.getLsbD_append])

@[simp] theorem commandWord_unit (u f : BitVec 4) (x : Byte) : (commandWord u f x).unit = u := by
  apply BitVec.eq_of_getLsbD_eq
  intro i hi
  have h1 : ¬ 12 + i < 8 := by omega
  have h2 : ¬ 12 + i - 8 < 4 := by omega
  have h3 : 12 + i - 8 - 4 = i := by omega
  rw [Word.unit, BitVec.getLsbD_extractLsb', commandWord_getLsbD, if_neg h1, if_neg h2, h3]
  simp [hi]

@[simp] theorem commandWord_fn (u f : BitVec 4) (x : Byte) : (commandWord u f x).fn = f := by
  apply BitVec.eq_of_getLsbD_eq
  intro i hi
  have h1 : ¬ 8 + i < 8 := by omega
  have h2 : 8 + i - 8 = i := by omega
  rw [Word.fn, BitVec.getLsbD_extractLsb', commandWord_getLsbD, if_neg h1, h2, if_pos hi]
  simp [hi]

@[simp] theorem commandWord_imm (u f : BitVec 4) (x : Byte) : (commandWord u f x).imm = x := by
  apply BitVec.eq_of_getLsbD_eq
  intro i hi
  rw [Word.imm, BitVec.getLsbD_extractLsb', commandWord_getLsbD, Nat.zero_add, if_pos hi]
  simp [hi]

/-- A word is its three fields. -/
theorem commandWord_fields (w : Word) : commandWord w.unit w.fn w.imm = w := by
  apply BitVec.eq_of_getLsbD_eq
  intro i hi
  rw [commandWord_getLsbD]
  simp only [Word.unit, Word.fn, Word.imm, BitVec.getLsbD_extractLsb']
  by_cases h1 : i < 8
  · simp [h1]
  · by_cases h2 : i - 8 < 4
    · have h3 : 8 + (i - 8) = i := by omega
      simp [h1, h2, h3]
    · have h3 : 12 + (i - 8 - 4) = i := by omega
      have h4 : i - 8 - 4 < 4 := by omega
      simp [h1, h2, h3, h4]

end Sys2Proof
end

