-- ==== Sys2Proof/Laws/State.lean ====
section
/-! SUPPORT. One lemma per field and update of the state, so that no proof unfolds a record update. -/

namespace Sys2Proof.Machine

variable (s : State)

@[simp] theorem emit_maddr (e : Event) : (emit e s).maddr = s.maddr := rfl
@[simp] theorem emit_mdata (e : Event) : (emit e s).mdata = s.mdata := rfl
@[simp] theorem emit_divisor (e : Event) : (emit e s).divisor = s.divisor := rfl
@[simp] theorem emit_ctrlEnable (e : Event) : (emit e s).ctrlEnable = s.ctrlEnable := rfl
@[simp] theorem emit_wif (e : Event) : (emit e s).wif = s.wif := rfl
@[simp] theorem emit_rif (e : Event) : (emit e s).rif = s.rif := rfl
@[simp] theorem emit_busState (e : Event) : (emit e s).busState = s.busState := rfl
@[simp] theorem emit_result (e : Event) : (emit e s).result = s.result := rfl
@[simp] theorem emit_faults (e : Event) : (emit e s).faults = s.faults := rfl
@[simp] theorem emit_phase (e : Event) : (emit e s).phase = s.phase := rfl
@[simp] theorem emit_dcIp (e : Event) : (emit e s).dcIp = s.dcIp := rfl
@[simp] theorem emit_rcOuter (e : Event) : (emit e s).rcOuter = s.rcOuter := rfl
@[simp] theorem emit_rcInner (e : Event) : (emit e s).rcInner = s.rcInner := rfl
@[simp] theorem emit_wc (e : Event) : (emit e s).wc = s.wc := rfl
@[simp] theorem emit_sda (e : Event) : (emit e s).sda = s.sda := rfl
@[simp] theorem emit_scl (e : Event) : (emit e s).scl = s.scl := rfl
@[simp] theorem emit_q (e : Event) : (emit e s).q = s.q := rfl
@[simp] theorem emit_bmInited (e : Event) : (emit e s).bmInited = s.bmInited := rfl
@[simp] theorem emit_busReset (e : Event) : (emit e s).busReset = s.busReset := rfl
@[simp] theorem emit_txnOpen (e : Event) : (emit e s).txnOpen = s.txnOpen := rfl
@[simp] theorem emit_dispPhase (e : Event) : (emit e s).dispPhase = s.dispPhase := rfl
@[simp] theorem emit_dispMode (e : Event) : (emit e s).dispMode = s.dispMode := rfl
@[simp] theorem emit_trace (e : Event) : (emit e s).trace = s.trace ++ [e] := rfl
@[simp] theorem emit_violated (e : Event) : (emit e s).violated = s.violated := rfl
@[simp] theorem emit_seq (e : Event) : (emit e s).seq = s.seq := rfl
@[simp] theorem emit_host (e : Event) : (emit e s).host = s.host := rfl
@[simp] theorem emit_answer (e : Event) : (emit e s).answer = s.answer := rfl
@[simp] theorem emit_envGrants (e : Event) : (emit e s).envGrants = s.envGrants := rfl
@[simp] theorem emit_envLines (e : Event) : (emit e s).envLines = s.envLines := rfl
@[simp] theorem emit_envResets (e : Event) : (emit e s).envResets = s.envResets := rfl
@[simp] theorem emit_draws (e : Event) : (emit e s).draws = s.draws := rfl
@[simp] theorem emit_resetIn (e : Event) : (emit e s).resetIn = s.resetIn := rfl
@[simp] theorem emit_cfg (e : Event) : (emit e s).cfg = s.cfg := rfl

@[simp] theorem openTransaction_maddr (a : Byte) : (openTransaction a s).maddr = a := rfl
@[simp] theorem openTransaction_mdata (a : Byte) : (openTransaction a s).mdata = s.mdata := rfl
@[simp] theorem openTransaction_divisor (a : Byte) : (openTransaction a s).divisor = s.divisor := rfl
@[simp] theorem openTransaction_ctrlEnable (a : Byte) : (openTransaction a s).ctrlEnable = s.ctrlEnable := rfl
@[simp] theorem openTransaction_wif (a : Byte) : (openTransaction a s).wif = false := rfl
@[simp] theorem openTransaction_rif (a : Byte) : (openTransaction a s).rif = false := rfl
@[simp] theorem openTransaction_busState (a : Byte) : (openTransaction a s).busState = s.busState := rfl
@[simp] theorem openTransaction_result (a : Byte) : (openTransaction a s).result = s.result := rfl
@[simp] theorem openTransaction_faults (a : Byte) : (openTransaction a s).faults = s.faults := rfl
@[simp] theorem openTransaction_phase (a : Byte) : (openTransaction a s).phase = s.phase := rfl
@[simp] theorem openTransaction_dcIp (a : Byte) : (openTransaction a s).dcIp = s.dcIp := rfl
@[simp] theorem openTransaction_rcOuter (a : Byte) : (openTransaction a s).rcOuter = s.rcOuter := rfl
@[simp] theorem openTransaction_rcInner (a : Byte) : (openTransaction a s).rcInner = s.rcInner := rfl
@[simp] theorem openTransaction_wc (a : Byte) : (openTransaction a s).wc = s.wc := rfl
@[simp] theorem openTransaction_sda (a : Byte) : (openTransaction a s).sda = s.sda := rfl
@[simp] theorem openTransaction_scl (a : Byte) : (openTransaction a s).scl = s.scl := rfl
@[simp] theorem openTransaction_q (a : Byte) : (openTransaction a s).q = s.q ++ [.addr a] := rfl
@[simp] theorem openTransaction_bmInited (a : Byte) : (openTransaction a s).bmInited = s.bmInited := rfl
@[simp] theorem openTransaction_busReset (a : Byte) : (openTransaction a s).busReset = s.busReset := rfl
@[simp] theorem openTransaction_txnOpen (a : Byte) : (openTransaction a s).txnOpen = true := rfl
@[simp] theorem openTransaction_dispPhase (a : Byte) : (openTransaction a s).dispPhase = s.dispPhase := rfl
@[simp] theorem openTransaction_dispMode (a : Byte) : (openTransaction a s).dispMode = s.dispMode := rfl
@[simp] theorem openTransaction_trace (a : Byte) : (openTransaction a s).trace = s.trace ++ [.issueAddr a] := rfl
@[simp] theorem openTransaction_violated (a : Byte) : (openTransaction a s).violated = s.violated := rfl
@[simp] theorem openTransaction_seq (a : Byte) : (openTransaction a s).seq = s.seq := rfl
@[simp] theorem openTransaction_host (a : Byte) : (openTransaction a s).host = s.host := rfl
@[simp] theorem openTransaction_answer (a : Byte) : (openTransaction a s).answer = s.answer := rfl
@[simp] theorem openTransaction_envGrants (a : Byte) : (openTransaction a s).envGrants = s.envGrants := rfl
@[simp] theorem openTransaction_envLines (a : Byte) : (openTransaction a s).envLines = s.envLines := rfl
@[simp] theorem openTransaction_envResets (a : Byte) : (openTransaction a s).envResets = s.envResets := rfl
@[simp] theorem openTransaction_draws (a : Byte) : (openTransaction a s).draws = s.draws := rfl
@[simp] theorem openTransaction_resetIn (a : Byte) : (openTransaction a s).resetIn = s.resetIn := rfl
@[simp] theorem openTransaction_cfg (a : Byte) : (openTransaction a s).cfg = s.cfg := rfl

@[simp] theorem closeTransaction_maddr : (closeTransaction s).maddr = s.maddr := rfl
@[simp] theorem closeTransaction_mdata : (closeTransaction s).mdata = s.mdata := rfl
@[simp] theorem closeTransaction_divisor : (closeTransaction s).divisor = s.divisor := rfl
@[simp] theorem closeTransaction_ctrlEnable : (closeTransaction s).ctrlEnable = s.ctrlEnable := rfl
@[simp] theorem closeTransaction_wif : (closeTransaction s).wif = false := rfl
@[simp] theorem closeTransaction_rif : (closeTransaction s).rif = false := rfl
@[simp] theorem closeTransaction_busState : (closeTransaction s).busState = s.busState := rfl
@[simp] theorem closeTransaction_result : (closeTransaction s).result = s.result := rfl
@[simp] theorem closeTransaction_faults : (closeTransaction s).faults = s.faults := rfl
@[simp] theorem closeTransaction_phase : (closeTransaction s).phase = s.phase := rfl
@[simp] theorem closeTransaction_dcIp : (closeTransaction s).dcIp = s.dcIp := rfl
@[simp] theorem closeTransaction_rcOuter : (closeTransaction s).rcOuter = s.rcOuter := rfl
@[simp] theorem closeTransaction_rcInner : (closeTransaction s).rcInner = s.rcInner := rfl
@[simp] theorem closeTransaction_wc : (closeTransaction s).wc = s.wc := rfl
@[simp] theorem closeTransaction_sda : (closeTransaction s).sda = s.sda := rfl
@[simp] theorem closeTransaction_scl : (closeTransaction s).scl = s.scl := rfl
@[simp] theorem closeTransaction_q : (closeTransaction s).q = s.q ++ [.stop] := rfl
@[simp] theorem closeTransaction_bmInited : (closeTransaction s).bmInited = s.bmInited := rfl
@[simp] theorem closeTransaction_busReset : (closeTransaction s).busReset = s.busReset := rfl
@[simp] theorem closeTransaction_txnOpen : (closeTransaction s).txnOpen = false := rfl
@[simp] theorem closeTransaction_dispPhase : (closeTransaction s).dispPhase = s.dispPhase := rfl
@[simp] theorem closeTransaction_dispMode : (closeTransaction s).dispMode = s.dispMode := rfl
@[simp] theorem closeTransaction_trace : (closeTransaction s).trace = s.trace ++ [.issueStop] := rfl
@[simp] theorem closeTransaction_violated : (closeTransaction s).violated = s.violated := rfl
@[simp] theorem closeTransaction_seq : (closeTransaction s).seq = s.seq := rfl
@[simp] theorem closeTransaction_host : (closeTransaction s).host = s.host := rfl
@[simp] theorem closeTransaction_answer : (closeTransaction s).answer = s.answer := rfl
@[simp] theorem closeTransaction_envGrants : (closeTransaction s).envGrants = s.envGrants := rfl
@[simp] theorem closeTransaction_envLines : (closeTransaction s).envLines = s.envLines := rfl
@[simp] theorem closeTransaction_envResets : (closeTransaction s).envResets = s.envResets := rfl
@[simp] theorem closeTransaction_draws : (closeTransaction s).draws = s.draws := rfl
@[simp] theorem closeTransaction_resetIn : (closeTransaction s).resetIn = s.resetIn := rfl
@[simp] theorem closeTransaction_cfg : (closeTransaction s).cfg = s.cfg := rfl

@[simp] theorem setDivisor_maddr (d : Byte) : (setDivisor d s).maddr = s.maddr := rfl
@[simp] theorem setDivisor_mdata (d : Byte) : (setDivisor d s).mdata = s.mdata := rfl
@[simp] theorem setDivisor_divisor (d : Byte) : (setDivisor d s).divisor = d := rfl
@[simp] theorem setDivisor_ctrlEnable (d : Byte) : (setDivisor d s).ctrlEnable = s.ctrlEnable := rfl
@[simp] theorem setDivisor_wif (d : Byte) : (setDivisor d s).wif = s.wif := rfl
@[simp] theorem setDivisor_rif (d : Byte) : (setDivisor d s).rif = s.rif := rfl
@[simp] theorem setDivisor_busState (d : Byte) : (setDivisor d s).busState = s.busState := rfl
@[simp] theorem setDivisor_result (d : Byte) : (setDivisor d s).result = s.result := rfl
@[simp] theorem setDivisor_faults (d : Byte) : (setDivisor d s).faults = s.faults := rfl
@[simp] theorem setDivisor_phase (d : Byte) : (setDivisor d s).phase = s.phase := rfl
@[simp] theorem setDivisor_dcIp (d : Byte) : (setDivisor d s).dcIp = s.dcIp := rfl
@[simp] theorem setDivisor_rcOuter (d : Byte) : (setDivisor d s).rcOuter = s.rcOuter := rfl
@[simp] theorem setDivisor_rcInner (d : Byte) : (setDivisor d s).rcInner = s.rcInner := rfl
@[simp] theorem setDivisor_wc (d : Byte) : (setDivisor d s).wc = s.wc := rfl
@[simp] theorem setDivisor_sda (d : Byte) : (setDivisor d s).sda = s.sda := rfl
@[simp] theorem setDivisor_scl (d : Byte) : (setDivisor d s).scl = s.scl := rfl
@[simp] theorem setDivisor_q (d : Byte) : (setDivisor d s).q = s.q := rfl
@[simp] theorem setDivisor_bmInited (d : Byte) : (setDivisor d s).bmInited = s.bmInited := rfl
@[simp] theorem setDivisor_busReset (d : Byte) : (setDivisor d s).busReset = s.busReset := rfl
@[simp] theorem setDivisor_txnOpen (d : Byte) : (setDivisor d s).txnOpen = s.txnOpen := rfl
@[simp] theorem setDivisor_dispPhase (d : Byte) : (setDivisor d s).dispPhase = s.dispPhase := rfl
@[simp] theorem setDivisor_dispMode (d : Byte) : (setDivisor d s).dispMode = s.dispMode := rfl
@[simp] theorem setDivisor_trace (d : Byte) : (setDivisor d s).trace = s.trace ++ [.setDivisor d] := rfl
@[simp] theorem setDivisor_violated (d : Byte) : (setDivisor d s).violated = s.violated := rfl
@[simp] theorem setDivisor_seq (d : Byte) : (setDivisor d s).seq = s.seq := rfl
@[simp] theorem setDivisor_host (d : Byte) : (setDivisor d s).host = s.host := rfl
@[simp] theorem setDivisor_answer (d : Byte) : (setDivisor d s).answer = s.answer := rfl
@[simp] theorem setDivisor_envGrants (d : Byte) : (setDivisor d s).envGrants = s.envGrants := rfl
@[simp] theorem setDivisor_envLines (d : Byte) : (setDivisor d s).envLines = s.envLines := rfl
@[simp] theorem setDivisor_envResets (d : Byte) : (setDivisor d s).envResets = s.envResets := rfl
@[simp] theorem setDivisor_draws (d : Byte) : (setDivisor d s).draws = s.draws := rfl
@[simp] theorem setDivisor_resetIn (d : Byte) : (setDivisor d s).resetIn = s.resetIn := rfl
@[simp] theorem setDivisor_cfg (d : Byte) : (setDivisor d s).cfg = s.cfg := rfl

@[simp] theorem enableEngine_maddr : (enableEngine s).maddr = s.maddr := rfl
@[simp] theorem enableEngine_mdata : (enableEngine s).mdata = s.mdata := rfl
@[simp] theorem enableEngine_divisor : (enableEngine s).divisor = s.divisor := rfl
@[simp] theorem enableEngine_ctrlEnable : (enableEngine s).ctrlEnable = true := rfl
@[simp] theorem enableEngine_wif : (enableEngine s).wif = s.wif := rfl
@[simp] theorem enableEngine_rif : (enableEngine s).rif = s.rif := rfl
@[simp] theorem enableEngine_busState : (enableEngine s).busState = s.busState := rfl
@[simp] theorem enableEngine_result : (enableEngine s).result = s.result := rfl
@[simp] theorem enableEngine_faults : (enableEngine s).faults = s.faults := rfl
@[simp] theorem enableEngine_phase : (enableEngine s).phase = s.phase := rfl
@[simp] theorem enableEngine_dcIp : (enableEngine s).dcIp = s.dcIp := rfl
@[simp] theorem enableEngine_rcOuter : (enableEngine s).rcOuter = s.rcOuter := rfl
@[simp] theorem enableEngine_rcInner : (enableEngine s).rcInner = s.rcInner := rfl
@[simp] theorem enableEngine_wc : (enableEngine s).wc = s.wc := rfl
@[simp] theorem enableEngine_sda : (enableEngine s).sda = s.sda := rfl
@[simp] theorem enableEngine_scl : (enableEngine s).scl = s.scl := rfl
@[simp] theorem enableEngine_q : (enableEngine s).q = s.q := rfl
@[simp] theorem enableEngine_bmInited : (enableEngine s).bmInited = s.bmInited := rfl
@[simp] theorem enableEngine_busReset : (enableEngine s).busReset = s.busReset := rfl
@[simp] theorem enableEngine_txnOpen : (enableEngine s).txnOpen = s.txnOpen := rfl
@[simp] theorem enableEngine_dispPhase : (enableEngine s).dispPhase = s.dispPhase := rfl
@[simp] theorem enableEngine_dispMode : (enableEngine s).dispMode = s.dispMode := rfl
@[simp] theorem enableEngine_trace : (enableEngine s).trace = s.trace ++ [.enable] := rfl
@[simp] theorem enableEngine_violated : (enableEngine s).violated = s.violated := rfl
@[simp] theorem enableEngine_seq : (enableEngine s).seq = s.seq := rfl
@[simp] theorem enableEngine_host : (enableEngine s).host = s.host := rfl
@[simp] theorem enableEngine_answer : (enableEngine s).answer = s.answer := rfl
@[simp] theorem enableEngine_envGrants : (enableEngine s).envGrants = s.envGrants := rfl
@[simp] theorem enableEngine_envLines : (enableEngine s).envLines = s.envLines := rfl
@[simp] theorem enableEngine_envResets : (enableEngine s).envResets = s.envResets := rfl
@[simp] theorem enableEngine_draws : (enableEngine s).draws = s.draws := rfl
@[simp] theorem enableEngine_resetIn : (enableEngine s).resetIn = s.resetIn := rfl
@[simp] theorem enableEngine_cfg : (enableEngine s).cfg = s.cfg := rfl

@[simp] theorem clearFlags_maddr : (clearFlags s).maddr = s.maddr := rfl
@[simp] theorem clearFlags_mdata : (clearFlags s).mdata = s.mdata := rfl
@[simp] theorem clearFlags_divisor : (clearFlags s).divisor = s.divisor := rfl
@[simp] theorem clearFlags_ctrlEnable : (clearFlags s).ctrlEnable = s.ctrlEnable := rfl
@[simp] theorem clearFlags_wif : (clearFlags s).wif = false := rfl
@[simp] theorem clearFlags_rif : (clearFlags s).rif = false := rfl
@[simp] theorem clearFlags_busState : (clearFlags s).busState = s.busState := rfl
@[simp] theorem clearFlags_result : (clearFlags s).result = s.result := rfl
@[simp] theorem clearFlags_faults : (clearFlags s).faults = s.faults := rfl
@[simp] theorem clearFlags_phase : (clearFlags s).phase = s.phase := rfl
@[simp] theorem clearFlags_dcIp : (clearFlags s).dcIp = s.dcIp := rfl
@[simp] theorem clearFlags_rcOuter : (clearFlags s).rcOuter = s.rcOuter := rfl
@[simp] theorem clearFlags_rcInner : (clearFlags s).rcInner = s.rcInner := rfl
@[simp] theorem clearFlags_wc : (clearFlags s).wc = s.wc := rfl
@[simp] theorem clearFlags_sda : (clearFlags s).sda = s.sda := rfl
@[simp] theorem clearFlags_scl : (clearFlags s).scl = s.scl := rfl
@[simp] theorem clearFlags_q : (clearFlags s).q = s.q := rfl
@[simp] theorem clearFlags_bmInited : (clearFlags s).bmInited = s.bmInited := rfl
@[simp] theorem clearFlags_busReset : (clearFlags s).busReset = s.busReset := rfl
@[simp] theorem clearFlags_txnOpen : (clearFlags s).txnOpen = s.txnOpen := rfl
@[simp] theorem clearFlags_dispPhase : (clearFlags s).dispPhase = s.dispPhase := rfl
@[simp] theorem clearFlags_dispMode : (clearFlags s).dispMode = s.dispMode := rfl
@[simp] theorem clearFlags_trace : (clearFlags s).trace = s.trace ++ [.clearFlags] := rfl
@[simp] theorem clearFlags_violated : (clearFlags s).violated = s.violated := rfl
@[simp] theorem clearFlags_seq : (clearFlags s).seq = s.seq := rfl
@[simp] theorem clearFlags_host : (clearFlags s).host = s.host := rfl
@[simp] theorem clearFlags_answer : (clearFlags s).answer = s.answer := rfl
@[simp] theorem clearFlags_envGrants : (clearFlags s).envGrants = s.envGrants := rfl
@[simp] theorem clearFlags_envLines : (clearFlags s).envLines = s.envLines := rfl
@[simp] theorem clearFlags_envResets : (clearFlags s).envResets = s.envResets := rfl
@[simp] theorem clearFlags_draws : (clearFlags s).draws = s.draws := rfl
@[simp] theorem clearFlags_resetIn : (clearFlags s).resetIn = s.resetIn := rfl
@[simp] theorem clearFlags_cfg : (clearFlags s).cfg = s.cfg := rfl

@[simp] theorem forceIdle_maddr : (forceIdle s).maddr = s.maddr := rfl
@[simp] theorem forceIdle_mdata : (forceIdle s).mdata = s.mdata := rfl
@[simp] theorem forceIdle_divisor : (forceIdle s).divisor = s.divisor := rfl
@[simp] theorem forceIdle_ctrlEnable : (forceIdle s).ctrlEnable = s.ctrlEnable := rfl
@[simp] theorem forceIdle_wif : (forceIdle s).wif = s.wif := rfl
@[simp] theorem forceIdle_rif : (forceIdle s).rif = s.rif := rfl
@[simp] theorem forceIdle_busState : (forceIdle s).busState = .idle := rfl
@[simp] theorem forceIdle_result : (forceIdle s).result = s.result := rfl
@[simp] theorem forceIdle_faults : (forceIdle s).faults = s.faults := rfl
@[simp] theorem forceIdle_phase : (forceIdle s).phase = s.phase := rfl
@[simp] theorem forceIdle_dcIp : (forceIdle s).dcIp = s.dcIp := rfl
@[simp] theorem forceIdle_rcOuter : (forceIdle s).rcOuter = s.rcOuter := rfl
@[simp] theorem forceIdle_rcInner : (forceIdle s).rcInner = s.rcInner := rfl
@[simp] theorem forceIdle_wc : (forceIdle s).wc = s.wc := rfl
@[simp] theorem forceIdle_sda : (forceIdle s).sda = s.sda := rfl
@[simp] theorem forceIdle_scl : (forceIdle s).scl = s.scl := rfl
@[simp] theorem forceIdle_q : (forceIdle s).q = s.q := rfl
@[simp] theorem forceIdle_bmInited : (forceIdle s).bmInited = s.bmInited := rfl
@[simp] theorem forceIdle_busReset : (forceIdle s).busReset = s.busReset := rfl
@[simp] theorem forceIdle_txnOpen : (forceIdle s).txnOpen = s.txnOpen := rfl
@[simp] theorem forceIdle_dispPhase : (forceIdle s).dispPhase = s.dispPhase := rfl
@[simp] theorem forceIdle_dispMode : (forceIdle s).dispMode = s.dispMode := rfl
@[simp] theorem forceIdle_trace : (forceIdle s).trace = s.trace ++ [.forceIdle] := rfl
@[simp] theorem forceIdle_violated : (forceIdle s).violated = s.violated := rfl
@[simp] theorem forceIdle_seq : (forceIdle s).seq = s.seq := rfl
@[simp] theorem forceIdle_host : (forceIdle s).host = s.host := rfl
@[simp] theorem forceIdle_answer : (forceIdle s).answer = s.answer := rfl
@[simp] theorem forceIdle_envGrants : (forceIdle s).envGrants = s.envGrants := rfl
@[simp] theorem forceIdle_envLines : (forceIdle s).envLines = s.envLines := rfl
@[simp] theorem forceIdle_envResets : (forceIdle s).envResets = s.envResets := rfl
@[simp] theorem forceIdle_draws : (forceIdle s).draws = s.draws := rfl
@[simp] theorem forceIdle_resetIn : (forceIdle s).resetIn = s.resetIn := rfl
@[simp] theorem forceIdle_cfg : (forceIdle s).cfg = s.cfg := rfl

@[simp] theorem disableEngine_maddr : (disableEngine s).maddr = s.maddr := rfl
@[simp] theorem disableEngine_mdata : (disableEngine s).mdata = s.mdata := rfl
@[simp] theorem disableEngine_divisor : (disableEngine s).divisor = s.divisor := rfl
@[simp] theorem disableEngine_ctrlEnable : (disableEngine s).ctrlEnable = false := rfl
@[simp] theorem disableEngine_wif : (disableEngine s).wif = s.wif := rfl
@[simp] theorem disableEngine_rif : (disableEngine s).rif = s.rif := rfl
@[simp] theorem disableEngine_busState : (disableEngine s).busState = s.busState := rfl
@[simp] theorem disableEngine_result : (disableEngine s).result = s.result := rfl
@[simp] theorem disableEngine_faults : (disableEngine s).faults = s.faults := rfl
@[simp] theorem disableEngine_phase : (disableEngine s).phase = s.phase := rfl
@[simp] theorem disableEngine_dcIp : (disableEngine s).dcIp = s.dcIp := rfl
@[simp] theorem disableEngine_rcOuter : (disableEngine s).rcOuter = s.rcOuter := rfl
@[simp] theorem disableEngine_rcInner : (disableEngine s).rcInner = s.rcInner := rfl
@[simp] theorem disableEngine_wc : (disableEngine s).wc = s.wc := rfl
@[simp] theorem disableEngine_sda : (disableEngine s).sda = s.sda := rfl
@[simp] theorem disableEngine_scl : (disableEngine s).scl = s.scl := rfl
@[simp] theorem disableEngine_q : (disableEngine s).q = [] := rfl
@[simp] theorem disableEngine_bmInited : (disableEngine s).bmInited = s.bmInited := rfl
@[simp] theorem disableEngine_busReset : (disableEngine s).busReset = s.busReset := rfl
@[simp] theorem disableEngine_txnOpen : (disableEngine s).txnOpen = false := rfl
@[simp] theorem disableEngine_dispPhase : (disableEngine s).dispPhase = s.dispPhase := rfl
@[simp] theorem disableEngine_dispMode : (disableEngine s).dispMode = s.dispMode := rfl
@[simp] theorem disableEngine_trace : (disableEngine s).trace = s.trace ++ [.disable] := rfl
@[simp] theorem disableEngine_violated : (disableEngine s).violated = s.violated := rfl
@[simp] theorem disableEngine_seq : (disableEngine s).seq = s.seq := rfl
@[simp] theorem disableEngine_host : (disableEngine s).host = s.host := rfl
@[simp] theorem disableEngine_answer : (disableEngine s).answer = s.answer := rfl
@[simp] theorem disableEngine_envGrants : (disableEngine s).envGrants = s.envGrants := rfl
@[simp] theorem disableEngine_envLines : (disableEngine s).envLines = s.envLines := rfl
@[simp] theorem disableEngine_envResets : (disableEngine s).envResets = s.envResets := rfl
@[simp] theorem disableEngine_draws : (disableEngine s).draws = s.draws := rfl
@[simp] theorem disableEngine_resetIn : (disableEngine s).resetIn = s.resetIn := rfl
@[simp] theorem disableEngine_cfg : (disableEngine s).cfg = s.cfg := rfl

@[simp] theorem delayUs_maddr (n : BitVec 16) : (delayUs n s).maddr = s.maddr := rfl
@[simp] theorem delayUs_mdata (n : BitVec 16) : (delayUs n s).mdata = s.mdata := rfl
@[simp] theorem delayUs_divisor (n : BitVec 16) : (delayUs n s).divisor = s.divisor := rfl
@[simp] theorem delayUs_ctrlEnable (n : BitVec 16) : (delayUs n s).ctrlEnable = s.ctrlEnable := rfl
@[simp] theorem delayUs_wif (n : BitVec 16) : (delayUs n s).wif = s.wif := rfl
@[simp] theorem delayUs_rif (n : BitVec 16) : (delayUs n s).rif = s.rif := rfl
@[simp] theorem delayUs_busState (n : BitVec 16) : (delayUs n s).busState = s.busState := rfl
@[simp] theorem delayUs_result (n : BitVec 16) : (delayUs n s).result = s.result := rfl
@[simp] theorem delayUs_faults (n : BitVec 16) : (delayUs n s).faults = s.faults := rfl
@[simp] theorem delayUs_phase (n : BitVec 16) : (delayUs n s).phase = s.phase := rfl
@[simp] theorem delayUs_dcIp (n : BitVec 16) : (delayUs n s).dcIp = s.dcIp := rfl
@[simp] theorem delayUs_rcOuter (n : BitVec 16) : (delayUs n s).rcOuter = s.rcOuter := rfl
@[simp] theorem delayUs_rcInner (n : BitVec 16) : (delayUs n s).rcInner = s.rcInner := rfl
@[simp] theorem delayUs_wc (n : BitVec 16) : (delayUs n s).wc = s.wc := rfl
@[simp] theorem delayUs_sda (n : BitVec 16) : (delayUs n s).sda = s.sda := rfl
@[simp] theorem delayUs_scl (n : BitVec 16) : (delayUs n s).scl = s.scl := rfl
@[simp] theorem delayUs_q (n : BitVec 16) : (delayUs n s).q = s.q := rfl
@[simp] theorem delayUs_bmInited (n : BitVec 16) : (delayUs n s).bmInited = s.bmInited := rfl
@[simp] theorem delayUs_busReset (n : BitVec 16) : (delayUs n s).busReset = s.busReset := rfl
@[simp] theorem delayUs_txnOpen (n : BitVec 16) : (delayUs n s).txnOpen = s.txnOpen := rfl
@[simp] theorem delayUs_dispPhase (n : BitVec 16) : (delayUs n s).dispPhase = s.dispPhase := rfl
@[simp] theorem delayUs_dispMode (n : BitVec 16) : (delayUs n s).dispMode = s.dispMode := rfl
@[simp] theorem delayUs_trace (n : BitVec 16) : (delayUs n s).trace = s.trace ++ [.delayUs n] := rfl
@[simp] theorem delayUs_violated (n : BitVec 16) : (delayUs n s).violated = s.violated := rfl
@[simp] theorem delayUs_seq (n : BitVec 16) : (delayUs n s).seq = s.seq := rfl
@[simp] theorem delayUs_host (n : BitVec 16) : (delayUs n s).host = s.host := rfl
@[simp] theorem delayUs_answer (n : BitVec 16) : (delayUs n s).answer = s.answer := rfl
@[simp] theorem delayUs_envGrants (n : BitVec 16) : (delayUs n s).envGrants = s.envGrants := rfl
@[simp] theorem delayUs_envLines (n : BitVec 16) : (delayUs n s).envLines = s.envLines := rfl
@[simp] theorem delayUs_envResets (n : BitVec 16) : (delayUs n s).envResets = s.envResets := rfl
@[simp] theorem delayUs_draws (n : BitVec 16) : (delayUs n s).draws = s.draws := rfl
@[simp] theorem delayUs_resetIn (n : BitVec 16) : (delayUs n s).resetIn = s.resetIn := rfl
@[simp] theorem delayUs_cfg (n : BitVec 16) : (delayUs n s).cfg = s.cfg := rfl

@[simp] theorem delayMs_maddr (n : BitVec 16) : (delayMs n s).maddr = s.maddr := rfl
@[simp] theorem delayMs_mdata (n : BitVec 16) : (delayMs n s).mdata = s.mdata := rfl
@[simp] theorem delayMs_divisor (n : BitVec 16) : (delayMs n s).divisor = s.divisor := rfl
@[simp] theorem delayMs_ctrlEnable (n : BitVec 16) : (delayMs n s).ctrlEnable = s.ctrlEnable := rfl
@[simp] theorem delayMs_wif (n : BitVec 16) : (delayMs n s).wif = s.wif := rfl
@[simp] theorem delayMs_rif (n : BitVec 16) : (delayMs n s).rif = s.rif := rfl
@[simp] theorem delayMs_busState (n : BitVec 16) : (delayMs n s).busState = s.busState := rfl
@[simp] theorem delayMs_result (n : BitVec 16) : (delayMs n s).result = s.result := rfl
@[simp] theorem delayMs_faults (n : BitVec 16) : (delayMs n s).faults = s.faults := rfl
@[simp] theorem delayMs_phase (n : BitVec 16) : (delayMs n s).phase = s.phase := rfl
@[simp] theorem delayMs_dcIp (n : BitVec 16) : (delayMs n s).dcIp = s.dcIp := rfl
@[simp] theorem delayMs_rcOuter (n : BitVec 16) : (delayMs n s).rcOuter = s.rcOuter := rfl
@[simp] theorem delayMs_rcInner (n : BitVec 16) : (delayMs n s).rcInner = s.rcInner := rfl
@[simp] theorem delayMs_wc (n : BitVec 16) : (delayMs n s).wc = s.wc := rfl
@[simp] theorem delayMs_sda (n : BitVec 16) : (delayMs n s).sda = s.sda := rfl
@[simp] theorem delayMs_scl (n : BitVec 16) : (delayMs n s).scl = s.scl := rfl
@[simp] theorem delayMs_q (n : BitVec 16) : (delayMs n s).q = s.q := rfl
@[simp] theorem delayMs_bmInited (n : BitVec 16) : (delayMs n s).bmInited = s.bmInited := rfl
@[simp] theorem delayMs_busReset (n : BitVec 16) : (delayMs n s).busReset = s.busReset := rfl
@[simp] theorem delayMs_txnOpen (n : BitVec 16) : (delayMs n s).txnOpen = s.txnOpen := rfl
@[simp] theorem delayMs_dispPhase (n : BitVec 16) : (delayMs n s).dispPhase = s.dispPhase := rfl
@[simp] theorem delayMs_dispMode (n : BitVec 16) : (delayMs n s).dispMode = s.dispMode := rfl
@[simp] theorem delayMs_trace (n : BitVec 16) : (delayMs n s).trace = s.trace ++ [.delayMs n] := rfl
@[simp] theorem delayMs_violated (n : BitVec 16) : (delayMs n s).violated = s.violated := rfl
@[simp] theorem delayMs_seq (n : BitVec 16) : (delayMs n s).seq = s.seq := rfl
@[simp] theorem delayMs_host (n : BitVec 16) : (delayMs n s).host = s.host := rfl
@[simp] theorem delayMs_answer (n : BitVec 16) : (delayMs n s).answer = s.answer := rfl
@[simp] theorem delayMs_envGrants (n : BitVec 16) : (delayMs n s).envGrants = s.envGrants := rfl
@[simp] theorem delayMs_envLines (n : BitVec 16) : (delayMs n s).envLines = s.envLines := rfl
@[simp] theorem delayMs_envResets (n : BitVec 16) : (delayMs n s).envResets = s.envResets := rfl
@[simp] theorem delayMs_draws (n : BitVec 16) : (delayMs n s).draws = s.draws := rfl
@[simp] theorem delayMs_resetIn (n : BitVec 16) : (delayMs n s).resetIn = s.resetIn := rfl
@[simp] theorem delayMs_cfg (n : BitVec 16) : (delayMs n s).cfg = s.cfg := rfl

@[simp] theorem halfPeriod_maddr : (halfPeriod s).maddr = s.maddr := rfl
@[simp] theorem halfPeriod_mdata : (halfPeriod s).mdata = s.mdata := rfl
@[simp] theorem halfPeriod_divisor : (halfPeriod s).divisor = s.divisor := rfl
@[simp] theorem halfPeriod_ctrlEnable : (halfPeriod s).ctrlEnable = s.ctrlEnable := rfl
@[simp] theorem halfPeriod_wif : (halfPeriod s).wif = s.wif := rfl
@[simp] theorem halfPeriod_rif : (halfPeriod s).rif = s.rif := rfl
@[simp] theorem halfPeriod_busState : (halfPeriod s).busState = s.busState := rfl
@[simp] theorem halfPeriod_result : (halfPeriod s).result = s.result := rfl
@[simp] theorem halfPeriod_faults : (halfPeriod s).faults = s.faults := rfl
@[simp] theorem halfPeriod_phase : (halfPeriod s).phase = s.phase := rfl
@[simp] theorem halfPeriod_dcIp : (halfPeriod s).dcIp = s.dcIp := rfl
@[simp] theorem halfPeriod_rcOuter : (halfPeriod s).rcOuter = s.rcOuter := rfl
@[simp] theorem halfPeriod_rcInner : (halfPeriod s).rcInner = s.rcInner := rfl
@[simp] theorem halfPeriod_wc : (halfPeriod s).wc = s.wc := rfl
@[simp] theorem halfPeriod_sda : (halfPeriod s).sda = s.sda := rfl
@[simp] theorem halfPeriod_scl : (halfPeriod s).scl = s.scl := rfl
@[simp] theorem halfPeriod_q : (halfPeriod s).q = s.q := rfl
@[simp] theorem halfPeriod_bmInited : (halfPeriod s).bmInited = s.bmInited := rfl
@[simp] theorem halfPeriod_busReset : (halfPeriod s).busReset = s.busReset := rfl
@[simp] theorem halfPeriod_txnOpen : (halfPeriod s).txnOpen = s.txnOpen := rfl
@[simp] theorem halfPeriod_dispPhase : (halfPeriod s).dispPhase = s.dispPhase := rfl
@[simp] theorem halfPeriod_dispMode : (halfPeriod s).dispMode = s.dispMode := rfl
@[simp] theorem halfPeriod_trace : (halfPeriod s).trace = s.trace ++ [.delayUs (halfPeriodUs s.cfg)] := rfl
@[simp] theorem halfPeriod_violated : (halfPeriod s).violated = s.violated := rfl
@[simp] theorem halfPeriod_seq : (halfPeriod s).seq = s.seq := rfl
@[simp] theorem halfPeriod_host : (halfPeriod s).host = s.host := rfl
@[simp] theorem halfPeriod_answer : (halfPeriod s).answer = s.answer := rfl
@[simp] theorem halfPeriod_envGrants : (halfPeriod s).envGrants = s.envGrants := rfl
@[simp] theorem halfPeriod_envLines : (halfPeriod s).envLines = s.envLines := rfl
@[simp] theorem halfPeriod_envResets : (halfPeriod s).envResets = s.envResets := rfl
@[simp] theorem halfPeriod_draws : (halfPeriod s).draws = s.draws := rfl
@[simp] theorem halfPeriod_resetIn : (halfPeriod s).resetIn = s.resetIn := rfl
@[simp] theorem halfPeriod_cfg : (halfPeriod s).cfg = s.cfg := rfl

@[simp] theorem setMode_maddr (m : DispMode) : (setMode m s).maddr = s.maddr := rfl
@[simp] theorem setMode_mdata (m : DispMode) : (setMode m s).mdata = s.mdata := rfl
@[simp] theorem setMode_divisor (m : DispMode) : (setMode m s).divisor = s.divisor := rfl
@[simp] theorem setMode_ctrlEnable (m : DispMode) : (setMode m s).ctrlEnable = s.ctrlEnable := rfl
@[simp] theorem setMode_wif (m : DispMode) : (setMode m s).wif = s.wif := rfl
@[simp] theorem setMode_rif (m : DispMode) : (setMode m s).rif = s.rif := rfl
@[simp] theorem setMode_busState (m : DispMode) : (setMode m s).busState = s.busState := rfl
@[simp] theorem setMode_result (m : DispMode) : (setMode m s).result = s.result := rfl
@[simp] theorem setMode_faults (m : DispMode) : (setMode m s).faults = s.faults := rfl
@[simp] theorem setMode_phase (m : DispMode) : (setMode m s).phase = s.phase := rfl
@[simp] theorem setMode_dcIp (m : DispMode) : (setMode m s).dcIp = s.dcIp := rfl
@[simp] theorem setMode_rcOuter (m : DispMode) : (setMode m s).rcOuter = s.rcOuter := rfl
@[simp] theorem setMode_rcInner (m : DispMode) : (setMode m s).rcInner = s.rcInner := rfl
@[simp] theorem setMode_wc (m : DispMode) : (setMode m s).wc = s.wc := rfl
@[simp] theorem setMode_sda (m : DispMode) : (setMode m s).sda = s.sda := rfl
@[simp] theorem setMode_scl (m : DispMode) : (setMode m s).scl = s.scl := rfl
@[simp] theorem setMode_q (m : DispMode) : (setMode m s).q = s.q := rfl
@[simp] theorem setMode_bmInited (m : DispMode) : (setMode m s).bmInited = s.bmInited := rfl
@[simp] theorem setMode_busReset (m : DispMode) : (setMode m s).busReset = s.busReset := rfl
@[simp] theorem setMode_txnOpen (m : DispMode) : (setMode m s).txnOpen = s.txnOpen := rfl
@[simp] theorem setMode_dispPhase (m : DispMode) : (setMode m s).dispPhase = s.dispPhase := rfl
@[simp] theorem setMode_dispMode (m : DispMode) : (setMode m s).dispMode = m := rfl
@[simp] theorem setMode_trace (m : DispMode) : (setMode m s).trace = s.trace := rfl
@[simp] theorem setMode_violated (m : DispMode) : (setMode m s).violated = s.violated := rfl
@[simp] theorem setMode_seq (m : DispMode) : (setMode m s).seq = s.seq := rfl
@[simp] theorem setMode_host (m : DispMode) : (setMode m s).host = s.host := rfl
@[simp] theorem setMode_answer (m : DispMode) : (setMode m s).answer = s.answer := rfl
@[simp] theorem setMode_envGrants (m : DispMode) : (setMode m s).envGrants = s.envGrants := rfl
@[simp] theorem setMode_envLines (m : DispMode) : (setMode m s).envLines = s.envLines := rfl
@[simp] theorem setMode_envResets (m : DispMode) : (setMode m s).envResets = s.envResets := rfl
@[simp] theorem setMode_draws (m : DispMode) : (setMode m s).draws = s.draws := rfl
@[simp] theorem setMode_resetIn (m : DispMode) : (setMode m s).resetIn = s.resetIn := rfl
@[simp] theorem setMode_cfg (m : DispMode) : (setMode m s).cfg = s.cfg := rfl

@[simp] theorem drawMode_maddr : (drawMode s).maddr = s.maddr := rfl
@[simp] theorem drawMode_mdata : (drawMode s).mdata = s.mdata := rfl
@[simp] theorem drawMode_divisor : (drawMode s).divisor = s.divisor := rfl
@[simp] theorem drawMode_ctrlEnable : (drawMode s).ctrlEnable = s.ctrlEnable := rfl
@[simp] theorem drawMode_wif : (drawMode s).wif = s.wif := rfl
@[simp] theorem drawMode_rif : (drawMode s).rif = s.rif := rfl
@[simp] theorem drawMode_busState : (drawMode s).busState = s.busState := rfl
@[simp] theorem drawMode_result : (drawMode s).result = s.result := rfl
@[simp] theorem drawMode_faults : (drawMode s).faults = s.faults := rfl
@[simp] theorem drawMode_phase : (drawMode s).phase = s.phase := rfl
@[simp] theorem drawMode_dcIp : (drawMode s).dcIp = s.dcIp := rfl
@[simp] theorem drawMode_rcOuter : (drawMode s).rcOuter = s.rcOuter := rfl
@[simp] theorem drawMode_rcInner : (drawMode s).rcInner = s.rcInner := rfl
@[simp] theorem drawMode_wc : (drawMode s).wc = s.wc := rfl
@[simp] theorem drawMode_sda : (drawMode s).sda = s.sda := rfl
@[simp] theorem drawMode_scl : (drawMode s).scl = s.scl := rfl
@[simp] theorem drawMode_q : (drawMode s).q = s.q := rfl
@[simp] theorem drawMode_bmInited : (drawMode s).bmInited = s.bmInited := rfl
@[simp] theorem drawMode_busReset : (drawMode s).busReset = s.busReset := rfl
@[simp] theorem drawMode_txnOpen : (drawMode s).txnOpen = s.txnOpen := rfl
@[simp] theorem drawMode_dispPhase : (drawMode s).dispPhase = s.dispPhase := rfl
@[simp] theorem drawMode_dispMode : (drawMode s).dispMode = Config.freeMode s.draws := rfl
@[simp] theorem drawMode_trace : (drawMode s).trace = s.trace := rfl
@[simp] theorem drawMode_violated : (drawMode s).violated = s.violated := rfl
@[simp] theorem drawMode_seq : (drawMode s).seq = s.seq := rfl
@[simp] theorem drawMode_host : (drawMode s).host = s.host := rfl
@[simp] theorem drawMode_answer : (drawMode s).answer = s.answer := rfl
@[simp] theorem drawMode_envGrants : (drawMode s).envGrants = s.envGrants := rfl
@[simp] theorem drawMode_envLines : (drawMode s).envLines = s.envLines := rfl
@[simp] theorem drawMode_envResets : (drawMode s).envResets = s.envResets := rfl
@[simp] theorem drawMode_draws : (drawMode s).draws = s.draws + 1 := rfl
@[simp] theorem drawMode_resetIn : (drawMode s).resetIn = s.resetIn := rfl
@[simp] theorem drawMode_cfg : (drawMode s).cfg = s.cfg := rfl

@[simp] theorem displayPhase_maddr (p : Phase) : (displayPhase p s).maddr = s.maddr := rfl
@[simp] theorem displayPhase_mdata (p : Phase) : (displayPhase p s).mdata = s.mdata := rfl
@[simp] theorem displayPhase_divisor (p : Phase) : (displayPhase p s).divisor = s.divisor := rfl
@[simp] theorem displayPhase_ctrlEnable (p : Phase) : (displayPhase p s).ctrlEnable = s.ctrlEnable := rfl
@[simp] theorem displayPhase_wif (p : Phase) : (displayPhase p s).wif = s.wif := rfl
@[simp] theorem displayPhase_rif (p : Phase) : (displayPhase p s).rif = s.rif := rfl
@[simp] theorem displayPhase_busState (p : Phase) : (displayPhase p s).busState = s.busState := rfl
@[simp] theorem displayPhase_result (p : Phase) : (displayPhase p s).result = s.result := rfl
@[simp] theorem displayPhase_faults (p : Phase) : (displayPhase p s).faults = s.faults := rfl
@[simp] theorem displayPhase_phase (p : Phase) : (displayPhase p s).phase = s.phase := rfl
@[simp] theorem displayPhase_dcIp (p : Phase) : (displayPhase p s).dcIp = s.dcIp := rfl
@[simp] theorem displayPhase_rcOuter (p : Phase) : (displayPhase p s).rcOuter = s.rcOuter := rfl
@[simp] theorem displayPhase_rcInner (p : Phase) : (displayPhase p s).rcInner = s.rcInner := rfl
@[simp] theorem displayPhase_wc (p : Phase) : (displayPhase p s).wc = s.wc := rfl
@[simp] theorem displayPhase_sda (p : Phase) : (displayPhase p s).sda = s.sda := rfl
@[simp] theorem displayPhase_scl (p : Phase) : (displayPhase p s).scl = s.scl := rfl
@[simp] theorem displayPhase_q (p : Phase) : (displayPhase p s).q = s.q := rfl
@[simp] theorem displayPhase_bmInited (p : Phase) : (displayPhase p s).bmInited = s.bmInited := rfl
@[simp] theorem displayPhase_busReset (p : Phase) : (displayPhase p s).busReset = s.busReset := rfl
@[simp] theorem displayPhase_txnOpen (p : Phase) : (displayPhase p s).txnOpen = s.txnOpen := rfl
@[simp] theorem displayPhase_dispPhase (p : Phase) : (displayPhase p s).dispPhase = if s.cfg.displayFollows then p else Config.freePhase s.draws := rfl
@[simp] theorem displayPhase_dispMode (p : Phase) : (displayPhase p s).dispMode = s.dispMode := rfl
@[simp] theorem displayPhase_trace (p : Phase) : (displayPhase p s).trace = s.trace := rfl
@[simp] theorem displayPhase_violated (p : Phase) : (displayPhase p s).violated = s.violated := rfl
@[simp] theorem displayPhase_seq (p : Phase) : (displayPhase p s).seq = s.seq := rfl
@[simp] theorem displayPhase_host (p : Phase) : (displayPhase p s).host = s.host := rfl
@[simp] theorem displayPhase_answer (p : Phase) : (displayPhase p s).answer = s.answer := rfl
@[simp] theorem displayPhase_envGrants (p : Phase) : (displayPhase p s).envGrants = s.envGrants := rfl
@[simp] theorem displayPhase_envLines (p : Phase) : (displayPhase p s).envLines = s.envLines := rfl
@[simp] theorem displayPhase_envResets (p : Phase) : (displayPhase p s).envResets = s.envResets := rfl
@[simp] theorem displayPhase_draws (p : Phase) : (displayPhase p s).draws = s.draws + 1 := rfl
@[simp] theorem displayPhase_resetIn (p : Phase) : (displayPhase p s).resetIn = s.resetIn := rfl
@[simp] theorem displayPhase_cfg (p : Phase) : (displayPhase p s).cfg = s.cfg := rfl

@[simp] theorem doneWith_maddr (op : OpName) : (doneWith op s).maddr = s.maddr := rfl
@[simp] theorem doneWith_mdata (op : OpName) : (doneWith op s).mdata = s.mdata := rfl
@[simp] theorem doneWith_divisor (op : OpName) : (doneWith op s).divisor = s.divisor := rfl
@[simp] theorem doneWith_ctrlEnable (op : OpName) : (doneWith op s).ctrlEnable = s.ctrlEnable := rfl
@[simp] theorem doneWith_wif (op : OpName) : (doneWith op s).wif = s.wif := rfl
@[simp] theorem doneWith_rif (op : OpName) : (doneWith op s).rif = s.rif := rfl
@[simp] theorem doneWith_busState (op : OpName) : (doneWith op s).busState = s.busState := rfl
@[simp] theorem doneWith_result (op : OpName) : (doneWith op s).result = .ok := rfl
@[simp] theorem doneWith_faults (op : OpName) : (doneWith op s).faults = s.faults := rfl
@[simp] theorem doneWith_phase (op : OpName) : (doneWith op s).phase = s.phase := rfl
@[simp] theorem doneWith_dcIp (op : OpName) : (doneWith op s).dcIp = s.dcIp := rfl
@[simp] theorem doneWith_rcOuter (op : OpName) : (doneWith op s).rcOuter = s.rcOuter := rfl
@[simp] theorem doneWith_rcInner (op : OpName) : (doneWith op s).rcInner = s.rcInner := rfl
@[simp] theorem doneWith_wc (op : OpName) : (doneWith op s).wc = s.wc := rfl
@[simp] theorem doneWith_sda (op : OpName) : (doneWith op s).sda = s.sda := rfl
@[simp] theorem doneWith_scl (op : OpName) : (doneWith op s).scl = s.scl := rfl
@[simp] theorem doneWith_q (op : OpName) : (doneWith op s).q = s.q := rfl
@[simp] theorem doneWith_bmInited (op : OpName) : (doneWith op s).bmInited = s.bmInited := rfl
@[simp] theorem doneWith_busReset (op : OpName) : (doneWith op s).busReset = s.busReset := rfl
@[simp] theorem doneWith_txnOpen (op : OpName) : (doneWith op s).txnOpen = s.txnOpen := rfl
@[simp] theorem doneWith_dispPhase (op : OpName) : (doneWith op s).dispPhase = s.dispPhase := rfl
@[simp] theorem doneWith_dispMode (op : OpName) : (doneWith op s).dispMode = s.dispMode := rfl
@[simp] theorem doneWith_trace (op : OpName) : (doneWith op s).trace = s.trace ++ [.done op .ok] := rfl
@[simp] theorem doneWith_violated (op : OpName) : (doneWith op s).violated = s.violated := rfl
@[simp] theorem doneWith_seq (op : OpName) : (doneWith op s).seq = .idle := rfl
@[simp] theorem doneWith_host (op : OpName) : (doneWith op s).host = s.host := rfl
@[simp] theorem doneWith_answer (op : OpName) : (doneWith op s).answer = s.answer := rfl
@[simp] theorem doneWith_envGrants (op : OpName) : (doneWith op s).envGrants = s.envGrants := rfl
@[simp] theorem doneWith_envLines (op : OpName) : (doneWith op s).envLines = s.envLines := rfl
@[simp] theorem doneWith_envResets (op : OpName) : (doneWith op s).envResets = s.envResets := rfl
@[simp] theorem doneWith_draws (op : OpName) : (doneWith op s).draws = s.draws := rfl
@[simp] theorem doneWith_resetIn (op : OpName) : (doneWith op s).resetIn = s.resetIn := rfl
@[simp] theorem doneWith_cfg (op : OpName) : (doneWith op s).cfg = s.cfg := rfl

@[simp] theorem failWith_maddr (op : OpName) (c : ResultCode) : (failWith op c s).maddr = s.maddr := rfl
@[simp] theorem failWith_mdata (op : OpName) (c : ResultCode) : (failWith op c s).mdata = s.mdata := rfl
@[simp] theorem failWith_divisor (op : OpName) (c : ResultCode) : (failWith op c s).divisor = s.divisor := rfl
@[simp] theorem failWith_ctrlEnable (op : OpName) (c : ResultCode) : (failWith op c s).ctrlEnable = s.ctrlEnable := rfl
@[simp] theorem failWith_wif (op : OpName) (c : ResultCode) : (failWith op c s).wif = s.wif := rfl
@[simp] theorem failWith_rif (op : OpName) (c : ResultCode) : (failWith op c s).rif = s.rif := rfl
@[simp] theorem failWith_busState (op : OpName) (c : ResultCode) : (failWith op c s).busState = s.busState := rfl
@[simp] theorem failWith_result (op : OpName) (c : ResultCode) : (failWith op c s).result = c := rfl
@[simp] theorem failWith_faults (op : OpName) (c : ResultCode) : (failWith op c s).faults = s.faults ||| c.faultBit := rfl
@[simp] theorem failWith_phase (op : OpName) (c : ResultCode) : (failWith op c s).phase = s.phase := rfl
@[simp] theorem failWith_dcIp (op : OpName) (c : ResultCode) : (failWith op c s).dcIp = s.dcIp := rfl
@[simp] theorem failWith_rcOuter (op : OpName) (c : ResultCode) : (failWith op c s).rcOuter = s.rcOuter := rfl
@[simp] theorem failWith_rcInner (op : OpName) (c : ResultCode) : (failWith op c s).rcInner = s.rcInner := rfl
@[simp] theorem failWith_wc (op : OpName) (c : ResultCode) : (failWith op c s).wc = s.wc := rfl
@[simp] theorem failWith_sda (op : OpName) (c : ResultCode) : (failWith op c s).sda = s.sda := rfl
@[simp] theorem failWith_scl (op : OpName) (c : ResultCode) : (failWith op c s).scl = s.scl := rfl
@[simp] theorem failWith_q (op : OpName) (c : ResultCode) : (failWith op c s).q = s.q := rfl
@[simp] theorem failWith_bmInited (op : OpName) (c : ResultCode) : (failWith op c s).bmInited = s.bmInited := rfl
@[simp] theorem failWith_busReset (op : OpName) (c : ResultCode) : (failWith op c s).busReset = s.busReset := rfl
@[simp] theorem failWith_txnOpen (op : OpName) (c : ResultCode) : (failWith op c s).txnOpen = s.txnOpen := rfl
@[simp] theorem failWith_dispPhase (op : OpName) (c : ResultCode) : (failWith op c s).dispPhase = s.dispPhase := rfl
@[simp] theorem failWith_dispMode (op : OpName) (c : ResultCode) : (failWith op c s).dispMode = s.dispMode := rfl
@[simp] theorem failWith_trace (op : OpName) (c : ResultCode) : (failWith op c s).trace = s.trace ++ [.done op c] := rfl
@[simp] theorem failWith_violated (op : OpName) (c : ResultCode) : (failWith op c s).violated = s.violated := rfl
@[simp] theorem failWith_seq (op : OpName) (c : ResultCode) : (failWith op c s).seq = .idle := rfl
@[simp] theorem failWith_host (op : OpName) (c : ResultCode) : (failWith op c s).host = s.host := rfl
@[simp] theorem failWith_answer (op : OpName) (c : ResultCode) : (failWith op c s).answer = s.answer := rfl
@[simp] theorem failWith_envGrants (op : OpName) (c : ResultCode) : (failWith op c s).envGrants = s.envGrants := rfl
@[simp] theorem failWith_envLines (op : OpName) (c : ResultCode) : (failWith op c s).envLines = s.envLines := rfl
@[simp] theorem failWith_envResets (op : OpName) (c : ResultCode) : (failWith op c s).envResets = s.envResets := rfl
@[simp] theorem failWith_draws (op : OpName) (c : ResultCode) : (failWith op c s).draws = s.draws := rfl
@[simp] theorem failWith_resetIn (op : OpName) (c : ResultCode) : (failWith op c s).resetIn = s.resetIn := rfl
@[simp] theorem failWith_cfg (op : OpName) (c : ResultCode) : (failWith op c s).cfg = s.cfg := rfl

@[simp] theorem clearPolls_maddr : (clearPolls s).maddr = s.maddr := rfl
@[simp] theorem clearPolls_mdata : (clearPolls s).mdata = s.mdata := rfl
@[simp] theorem clearPolls_divisor : (clearPolls s).divisor = s.divisor := rfl
@[simp] theorem clearPolls_ctrlEnable : (clearPolls s).ctrlEnable = s.ctrlEnable := rfl
@[simp] theorem clearPolls_wif : (clearPolls s).wif = s.wif := rfl
@[simp] theorem clearPolls_rif : (clearPolls s).rif = s.rif := rfl
@[simp] theorem clearPolls_busState : (clearPolls s).busState = s.busState := rfl
@[simp] theorem clearPolls_result : (clearPolls s).result = s.result := rfl
@[simp] theorem clearPolls_faults : (clearPolls s).faults = s.faults := rfl
@[simp] theorem clearPolls_phase : (clearPolls s).phase = s.phase := rfl
@[simp] theorem clearPolls_dcIp : (clearPolls s).dcIp = s.dcIp := rfl
@[simp] theorem clearPolls_rcOuter : (clearPolls s).rcOuter = s.rcOuter := rfl
@[simp] theorem clearPolls_rcInner : (clearPolls s).rcInner = s.rcInner := rfl
@[simp] theorem clearPolls_wc : (clearPolls s).wc = 0 := rfl
@[simp] theorem clearPolls_sda : (clearPolls s).sda = s.sda := rfl
@[simp] theorem clearPolls_scl : (clearPolls s).scl = s.scl := rfl
@[simp] theorem clearPolls_q : (clearPolls s).q = s.q := rfl
@[simp] theorem clearPolls_bmInited : (clearPolls s).bmInited = s.bmInited := rfl
@[simp] theorem clearPolls_busReset : (clearPolls s).busReset = s.busReset := rfl
@[simp] theorem clearPolls_txnOpen : (clearPolls s).txnOpen = s.txnOpen := rfl
@[simp] theorem clearPolls_dispPhase : (clearPolls s).dispPhase = s.dispPhase := rfl
@[simp] theorem clearPolls_dispMode : (clearPolls s).dispMode = s.dispMode := rfl
@[simp] theorem clearPolls_trace : (clearPolls s).trace = s.trace := rfl
@[simp] theorem clearPolls_violated : (clearPolls s).violated = s.violated := rfl
@[simp] theorem clearPolls_seq : (clearPolls s).seq = s.seq := rfl
@[simp] theorem clearPolls_host : (clearPolls s).host = s.host := rfl
@[simp] theorem clearPolls_answer : (clearPolls s).answer = s.answer := rfl
@[simp] theorem clearPolls_envGrants : (clearPolls s).envGrants = s.envGrants := rfl
@[simp] theorem clearPolls_envLines : (clearPolls s).envLines = s.envLines := rfl
@[simp] theorem clearPolls_envResets : (clearPolls s).envResets = s.envResets := rfl
@[simp] theorem clearPolls_draws : (clearPolls s).draws = s.draws := rfl
@[simp] theorem clearPolls_resetIn : (clearPolls s).resetIn = s.resetIn := rfl
@[simp] theorem clearPolls_cfg : (clearPolls s).cfg = s.cfg := rfl

@[simp] theorem countPoll_maddr : (countPoll s).maddr = s.maddr := rfl
@[simp] theorem countPoll_mdata : (countPoll s).mdata = s.mdata := rfl
@[simp] theorem countPoll_divisor : (countPoll s).divisor = s.divisor := rfl
@[simp] theorem countPoll_ctrlEnable : (countPoll s).ctrlEnable = s.ctrlEnable := rfl
@[simp] theorem countPoll_wif : (countPoll s).wif = s.wif := rfl
@[simp] theorem countPoll_rif : (countPoll s).rif = s.rif := rfl
@[simp] theorem countPoll_busState : (countPoll s).busState = s.busState := rfl
@[simp] theorem countPoll_result : (countPoll s).result = s.result := rfl
@[simp] theorem countPoll_faults : (countPoll s).faults = s.faults := rfl
@[simp] theorem countPoll_phase : (countPoll s).phase = s.phase := rfl
@[simp] theorem countPoll_dcIp : (countPoll s).dcIp = s.dcIp := rfl
@[simp] theorem countPoll_rcOuter : (countPoll s).rcOuter = s.rcOuter := rfl
@[simp] theorem countPoll_rcInner : (countPoll s).rcInner = s.rcInner := rfl
@[simp] theorem countPoll_wc : (countPoll s).wc = s.wc + 1 := rfl
@[simp] theorem countPoll_sda : (countPoll s).sda = s.sda := rfl
@[simp] theorem countPoll_scl : (countPoll s).scl = s.scl := rfl
@[simp] theorem countPoll_q : (countPoll s).q = s.q := rfl
@[simp] theorem countPoll_bmInited : (countPoll s).bmInited = s.bmInited := rfl
@[simp] theorem countPoll_busReset : (countPoll s).busReset = s.busReset := rfl
@[simp] theorem countPoll_txnOpen : (countPoll s).txnOpen = s.txnOpen := rfl
@[simp] theorem countPoll_dispPhase : (countPoll s).dispPhase = s.dispPhase := rfl
@[simp] theorem countPoll_dispMode : (countPoll s).dispMode = s.dispMode := rfl
@[simp] theorem countPoll_trace : (countPoll s).trace = s.trace := rfl
@[simp] theorem countPoll_violated : (countPoll s).violated = s.violated := rfl
@[simp] theorem countPoll_seq : (countPoll s).seq = s.seq := rfl
@[simp] theorem countPoll_host : (countPoll s).host = s.host := rfl
@[simp] theorem countPoll_answer : (countPoll s).answer = s.answer := rfl
@[simp] theorem countPoll_envGrants : (countPoll s).envGrants = s.envGrants := rfl
@[simp] theorem countPoll_envLines : (countPoll s).envLines = s.envLines := rfl
@[simp] theorem countPoll_envResets : (countPoll s).envResets = s.envResets := rfl
@[simp] theorem countPoll_draws : (countPoll s).draws = s.draws := rfl
@[simp] theorem countPoll_resetIn : (countPoll s).resetIn = s.resetIn := rfl
@[simp] theorem countPoll_cfg : (countPoll s).cfg = s.cfg := rfl

@[simp] theorem holdIn_maddr (i : Instr) (k : Stage) : (holdIn i k s).maddr = s.maddr := rfl
@[simp] theorem holdIn_mdata (i : Instr) (k : Stage) : (holdIn i k s).mdata = s.mdata := rfl
@[simp] theorem holdIn_divisor (i : Instr) (k : Stage) : (holdIn i k s).divisor = s.divisor := rfl
@[simp] theorem holdIn_ctrlEnable (i : Instr) (k : Stage) : (holdIn i k s).ctrlEnable = s.ctrlEnable := rfl
@[simp] theorem holdIn_wif (i : Instr) (k : Stage) : (holdIn i k s).wif = s.wif := rfl
@[simp] theorem holdIn_rif (i : Instr) (k : Stage) : (holdIn i k s).rif = s.rif := rfl
@[simp] theorem holdIn_busState (i : Instr) (k : Stage) : (holdIn i k s).busState = s.busState := rfl
@[simp] theorem holdIn_result (i : Instr) (k : Stage) : (holdIn i k s).result = s.result := rfl
@[simp] theorem holdIn_faults (i : Instr) (k : Stage) : (holdIn i k s).faults = s.faults := rfl
@[simp] theorem holdIn_phase (i : Instr) (k : Stage) : (holdIn i k s).phase = s.phase := rfl
@[simp] theorem holdIn_dcIp (i : Instr) (k : Stage) : (holdIn i k s).dcIp = s.dcIp := rfl
@[simp] theorem holdIn_rcOuter (i : Instr) (k : Stage) : (holdIn i k s).rcOuter = s.rcOuter := rfl
@[simp] theorem holdIn_rcInner (i : Instr) (k : Stage) : (holdIn i k s).rcInner = s.rcInner := rfl
@[simp] theorem holdIn_wc (i : Instr) (k : Stage) : (holdIn i k s).wc = s.wc := rfl
@[simp] theorem holdIn_sda (i : Instr) (k : Stage) : (holdIn i k s).sda = s.sda := rfl
@[simp] theorem holdIn_scl (i : Instr) (k : Stage) : (holdIn i k s).scl = s.scl := rfl
@[simp] theorem holdIn_q (i : Instr) (k : Stage) : (holdIn i k s).q = s.q := rfl
@[simp] theorem holdIn_bmInited (i : Instr) (k : Stage) : (holdIn i k s).bmInited = s.bmInited := rfl
@[simp] theorem holdIn_busReset (i : Instr) (k : Stage) : (holdIn i k s).busReset = s.busReset := rfl
@[simp] theorem holdIn_txnOpen (i : Instr) (k : Stage) : (holdIn i k s).txnOpen = s.txnOpen := rfl
@[simp] theorem holdIn_dispPhase (i : Instr) (k : Stage) : (holdIn i k s).dispPhase = s.dispPhase := rfl
@[simp] theorem holdIn_dispMode (i : Instr) (k : Stage) : (holdIn i k s).dispMode = s.dispMode := rfl
@[simp] theorem holdIn_trace (i : Instr) (k : Stage) : (holdIn i k s).trace = s.trace := rfl
@[simp] theorem holdIn_violated (i : Instr) (k : Stage) : (holdIn i k s).violated = s.violated := rfl
@[simp] theorem holdIn_seq (i : Instr) (k : Stage) : (holdIn i k s).seq = .waiting i k := rfl
@[simp] theorem holdIn_host (i : Instr) (k : Stage) : (holdIn i k s).host = s.host := rfl
@[simp] theorem holdIn_answer (i : Instr) (k : Stage) : (holdIn i k s).answer = s.answer := rfl
@[simp] theorem holdIn_envGrants (i : Instr) (k : Stage) : (holdIn i k s).envGrants = s.envGrants := rfl
@[simp] theorem holdIn_envLines (i : Instr) (k : Stage) : (holdIn i k s).envLines = s.envLines := rfl
@[simp] theorem holdIn_envResets (i : Instr) (k : Stage) : (holdIn i k s).envResets = s.envResets := rfl
@[simp] theorem holdIn_draws (i : Instr) (k : Stage) : (holdIn i k s).draws = s.draws := rfl
@[simp] theorem holdIn_resetIn (i : Instr) (k : Stage) : (holdIn i k s).resetIn = s.resetIn := rfl
@[simp] theorem holdIn_cfg (i : Instr) (k : Stage) : (holdIn i k s).cfg = s.cfg := rfl

@[simp] theorem recordContract_maddr (i : Instr) : (recordContract i s).maddr = s.maddr := rfl
@[simp] theorem recordContract_mdata (i : Instr) : (recordContract i s).mdata = s.mdata := rfl
@[simp] theorem recordContract_divisor (i : Instr) : (recordContract i s).divisor = s.divisor := rfl
@[simp] theorem recordContract_ctrlEnable (i : Instr) : (recordContract i s).ctrlEnable = s.ctrlEnable := rfl
@[simp] theorem recordContract_wif (i : Instr) : (recordContract i s).wif = s.wif := rfl
@[simp] theorem recordContract_rif (i : Instr) : (recordContract i s).rif = s.rif := rfl
@[simp] theorem recordContract_busState (i : Instr) : (recordContract i s).busState = s.busState := rfl
@[simp] theorem recordContract_result (i : Instr) : (recordContract i s).result = s.result := rfl
@[simp] theorem recordContract_faults (i : Instr) : (recordContract i s).faults = s.faults := rfl
@[simp] theorem recordContract_phase (i : Instr) : (recordContract i s).phase = s.phase := rfl
@[simp] theorem recordContract_dcIp (i : Instr) : (recordContract i s).dcIp = s.dcIp := rfl
@[simp] theorem recordContract_rcOuter (i : Instr) : (recordContract i s).rcOuter = s.rcOuter := rfl
@[simp] theorem recordContract_rcInner (i : Instr) : (recordContract i s).rcInner = s.rcInner := rfl
@[simp] theorem recordContract_wc (i : Instr) : (recordContract i s).wc = s.wc := rfl
@[simp] theorem recordContract_sda (i : Instr) : (recordContract i s).sda = s.sda := rfl
@[simp] theorem recordContract_scl (i : Instr) : (recordContract i s).scl = s.scl := rfl
@[simp] theorem recordContract_q (i : Instr) : (recordContract i s).q = s.q := rfl
@[simp] theorem recordContract_bmInited (i : Instr) : (recordContract i s).bmInited = s.bmInited := rfl
@[simp] theorem recordContract_busReset (i : Instr) : (recordContract i s).busReset = s.busReset := rfl
@[simp] theorem recordContract_txnOpen (i : Instr) : (recordContract i s).txnOpen = s.txnOpen := rfl
@[simp] theorem recordContract_dispPhase (i : Instr) : (recordContract i s).dispPhase = s.dispPhase := rfl
@[simp] theorem recordContract_dispMode (i : Instr) : (recordContract i s).dispMode = s.dispMode := rfl
@[simp] theorem recordContract_trace (i : Instr) : (recordContract i s).trace = s.trace := rfl
@[simp] theorem recordContract_violated (i : Instr) : (recordContract i s).violated = (s.violated || !requires i s) := rfl
@[simp] theorem recordContract_seq (i : Instr) : (recordContract i s).seq = s.seq := rfl
@[simp] theorem recordContract_host (i : Instr) : (recordContract i s).host = s.host := rfl
@[simp] theorem recordContract_answer (i : Instr) : (recordContract i s).answer = s.answer := rfl
@[simp] theorem recordContract_envGrants (i : Instr) : (recordContract i s).envGrants = s.envGrants := rfl
@[simp] theorem recordContract_envLines (i : Instr) : (recordContract i s).envLines = s.envLines := rfl
@[simp] theorem recordContract_envResets (i : Instr) : (recordContract i s).envResets = s.envResets := rfl
@[simp] theorem recordContract_draws (i : Instr) : (recordContract i s).draws = s.draws := rfl
@[simp] theorem recordContract_resetIn (i : Instr) : (recordContract i s).resetIn = s.resetIn := rfl
@[simp] theorem recordContract_cfg (i : Instr) : (recordContract i s).cfg = s.cfg := rfl

@[simp] theorem binitGhost_maddr : (binitGhost s).maddr = s.maddr := rfl
@[simp] theorem binitGhost_mdata : (binitGhost s).mdata = s.mdata := rfl
@[simp] theorem binitGhost_divisor : (binitGhost s).divisor = s.divisor := rfl
@[simp] theorem binitGhost_ctrlEnable : (binitGhost s).ctrlEnable = s.ctrlEnable := rfl
@[simp] theorem binitGhost_wif : (binitGhost s).wif = s.wif := rfl
@[simp] theorem binitGhost_rif : (binitGhost s).rif = s.rif := rfl
@[simp] theorem binitGhost_busState : (binitGhost s).busState = s.busState := rfl
@[simp] theorem binitGhost_result : (binitGhost s).result = s.result := rfl
@[simp] theorem binitGhost_faults : (binitGhost s).faults = s.faults := rfl
@[simp] theorem binitGhost_phase : (binitGhost s).phase = s.phase := rfl
@[simp] theorem binitGhost_dcIp : (binitGhost s).dcIp = s.dcIp := rfl
@[simp] theorem binitGhost_rcOuter : (binitGhost s).rcOuter = s.rcOuter := rfl
@[simp] theorem binitGhost_rcInner : (binitGhost s).rcInner = s.rcInner := rfl
@[simp] theorem binitGhost_wc : (binitGhost s).wc = s.wc := rfl
@[simp] theorem binitGhost_sda : (binitGhost s).sda = s.sda := rfl
@[simp] theorem binitGhost_scl : (binitGhost s).scl = s.scl := rfl
@[simp] theorem binitGhost_q : (binitGhost s).q = [] := rfl
@[simp] theorem binitGhost_bmInited : (binitGhost s).bmInited = true := rfl
@[simp] theorem binitGhost_busReset : (binitGhost s).busReset = false := rfl
@[simp] theorem binitGhost_txnOpen : (binitGhost s).txnOpen = false := rfl
@[simp] theorem binitGhost_dispPhase : (binitGhost s).dispPhase = s.dispPhase := rfl
@[simp] theorem binitGhost_dispMode : (binitGhost s).dispMode = s.dispMode := rfl
@[simp] theorem binitGhost_trace : (binitGhost s).trace = s.trace := rfl
@[simp] theorem binitGhost_violated : (binitGhost s).violated = s.violated := rfl
@[simp] theorem binitGhost_seq : (binitGhost s).seq = s.seq := rfl
@[simp] theorem binitGhost_host : (binitGhost s).host = s.host := rfl
@[simp] theorem binitGhost_answer : (binitGhost s).answer = s.answer := rfl
@[simp] theorem binitGhost_envGrants : (binitGhost s).envGrants = s.envGrants := rfl
@[simp] theorem binitGhost_envLines : (binitGhost s).envLines = s.envLines := rfl
@[simp] theorem binitGhost_envResets : (binitGhost s).envResets = s.envResets := rfl
@[simp] theorem binitGhost_draws : (binitGhost s).draws = s.draws := rfl
@[simp] theorem binitGhost_resetIn : (binitGhost s).resetIn = s.resetIn := rfl
@[simp] theorem binitGhost_cfg : (binitGhost s).cfg = s.cfg := rfl

@[simp] theorem nextEntry_maddr : (nextEntry s).maddr = s.maddr := rfl
@[simp] theorem nextEntry_mdata : (nextEntry s).mdata = s.mdata := rfl
@[simp] theorem nextEntry_divisor : (nextEntry s).divisor = s.divisor := rfl
@[simp] theorem nextEntry_ctrlEnable : (nextEntry s).ctrlEnable = s.ctrlEnable := rfl
@[simp] theorem nextEntry_wif : (nextEntry s).wif = s.wif := rfl
@[simp] theorem nextEntry_rif : (nextEntry s).rif = s.rif := rfl
@[simp] theorem nextEntry_busState : (nextEntry s).busState = s.busState := rfl
@[simp] theorem nextEntry_result : (nextEntry s).result = s.result := rfl
@[simp] theorem nextEntry_faults : (nextEntry s).faults = s.faults := rfl
@[simp] theorem nextEntry_phase : (nextEntry s).phase = s.phase := rfl
@[simp] theorem nextEntry_dcIp : (nextEntry s).dcIp = s.dcIp + 1 := rfl
@[simp] theorem nextEntry_rcOuter : (nextEntry s).rcOuter = s.rcOuter := rfl
@[simp] theorem nextEntry_rcInner : (nextEntry s).rcInner = s.rcInner := rfl
@[simp] theorem nextEntry_wc : (nextEntry s).wc = s.wc := rfl
@[simp] theorem nextEntry_sda : (nextEntry s).sda = s.sda := rfl
@[simp] theorem nextEntry_scl : (nextEntry s).scl = s.scl := rfl
@[simp] theorem nextEntry_q : (nextEntry s).q = s.q := rfl
@[simp] theorem nextEntry_bmInited : (nextEntry s).bmInited = s.bmInited := rfl
@[simp] theorem nextEntry_busReset : (nextEntry s).busReset = s.busReset := rfl
@[simp] theorem nextEntry_txnOpen : (nextEntry s).txnOpen = s.txnOpen := rfl
@[simp] theorem nextEntry_dispPhase : (nextEntry s).dispPhase = s.dispPhase := rfl
@[simp] theorem nextEntry_dispMode : (nextEntry s).dispMode = s.dispMode := rfl
@[simp] theorem nextEntry_trace : (nextEntry s).trace = s.trace := rfl
@[simp] theorem nextEntry_violated : (nextEntry s).violated = s.violated := rfl
@[simp] theorem nextEntry_seq : (nextEntry s).seq = s.seq := rfl
@[simp] theorem nextEntry_host : (nextEntry s).host = s.host := rfl
@[simp] theorem nextEntry_answer : (nextEntry s).answer = s.answer := rfl
@[simp] theorem nextEntry_envGrants : (nextEntry s).envGrants = s.envGrants := rfl
@[simp] theorem nextEntry_envLines : (nextEntry s).envLines = s.envLines := rfl
@[simp] theorem nextEntry_envResets : (nextEntry s).envResets = s.envResets := rfl
@[simp] theorem nextEntry_draws : (nextEntry s).draws = s.draws := rfl
@[simp] theorem nextEntry_resetIn : (nextEntry s).resetIn = s.resetIn := rfl
@[simp] theorem nextEntry_cfg : (nextEntry s).cfg = s.cfg := rfl

@[simp] theorem clearInner_maddr : (clearInner s).maddr = s.maddr := rfl
@[simp] theorem clearInner_mdata : (clearInner s).mdata = s.mdata := rfl
@[simp] theorem clearInner_divisor : (clearInner s).divisor = s.divisor := rfl
@[simp] theorem clearInner_ctrlEnable : (clearInner s).ctrlEnable = s.ctrlEnable := rfl
@[simp] theorem clearInner_wif : (clearInner s).wif = s.wif := rfl
@[simp] theorem clearInner_rif : (clearInner s).rif = s.rif := rfl
@[simp] theorem clearInner_busState : (clearInner s).busState = s.busState := rfl
@[simp] theorem clearInner_result : (clearInner s).result = s.result := rfl
@[simp] theorem clearInner_faults : (clearInner s).faults = s.faults := rfl
@[simp] theorem clearInner_phase : (clearInner s).phase = s.phase := rfl
@[simp] theorem clearInner_dcIp : (clearInner s).dcIp = s.dcIp := rfl
@[simp] theorem clearInner_rcOuter : (clearInner s).rcOuter = s.rcOuter := rfl
@[simp] theorem clearInner_rcInner : (clearInner s).rcInner = 0 := rfl
@[simp] theorem clearInner_wc : (clearInner s).wc = s.wc := rfl
@[simp] theorem clearInner_sda : (clearInner s).sda = s.sda := rfl
@[simp] theorem clearInner_scl : (clearInner s).scl = s.scl := rfl
@[simp] theorem clearInner_q : (clearInner s).q = s.q := rfl
@[simp] theorem clearInner_bmInited : (clearInner s).bmInited = s.bmInited := rfl
@[simp] theorem clearInner_busReset : (clearInner s).busReset = s.busReset := rfl
@[simp] theorem clearInner_txnOpen : (clearInner s).txnOpen = s.txnOpen := rfl
@[simp] theorem clearInner_dispPhase : (clearInner s).dispPhase = s.dispPhase := rfl
@[simp] theorem clearInner_dispMode : (clearInner s).dispMode = s.dispMode := rfl
@[simp] theorem clearInner_trace : (clearInner s).trace = s.trace := rfl
@[simp] theorem clearInner_violated : (clearInner s).violated = s.violated := rfl
@[simp] theorem clearInner_seq : (clearInner s).seq = s.seq := rfl
@[simp] theorem clearInner_host : (clearInner s).host = s.host := rfl
@[simp] theorem clearInner_answer : (clearInner s).answer = s.answer := rfl
@[simp] theorem clearInner_envGrants : (clearInner s).envGrants = s.envGrants := rfl
@[simp] theorem clearInner_envLines : (clearInner s).envLines = s.envLines := rfl
@[simp] theorem clearInner_envResets : (clearInner s).envResets = s.envResets := rfl
@[simp] theorem clearInner_draws : (clearInner s).draws = s.draws := rfl
@[simp] theorem clearInner_resetIn : (clearInner s).resetIn = s.resetIn := rfl
@[simp] theorem clearInner_cfg : (clearInner s).cfg = s.cfg := rfl

@[simp] theorem countPulse_maddr : (countPulse s).maddr = s.maddr := rfl
@[simp] theorem countPulse_mdata : (countPulse s).mdata = s.mdata := rfl
@[simp] theorem countPulse_divisor : (countPulse s).divisor = s.divisor := rfl
@[simp] theorem countPulse_ctrlEnable : (countPulse s).ctrlEnable = s.ctrlEnable := rfl
@[simp] theorem countPulse_wif : (countPulse s).wif = s.wif := rfl
@[simp] theorem countPulse_rif : (countPulse s).rif = s.rif := rfl
@[simp] theorem countPulse_busState : (countPulse s).busState = s.busState := rfl
@[simp] theorem countPulse_result : (countPulse s).result = s.result := rfl
@[simp] theorem countPulse_faults : (countPulse s).faults = s.faults := rfl
@[simp] theorem countPulse_phase : (countPulse s).phase = s.phase := rfl
@[simp] theorem countPulse_dcIp : (countPulse s).dcIp = s.dcIp := rfl
@[simp] theorem countPulse_rcOuter : (countPulse s).rcOuter = s.rcOuter := rfl
@[simp] theorem countPulse_rcInner : (countPulse s).rcInner = s.rcInner + 1 := rfl
@[simp] theorem countPulse_wc : (countPulse s).wc = s.wc := rfl
@[simp] theorem countPulse_sda : (countPulse s).sda = s.sda := rfl
@[simp] theorem countPulse_scl : (countPulse s).scl = s.scl := rfl
@[simp] theorem countPulse_q : (countPulse s).q = s.q := rfl
@[simp] theorem countPulse_bmInited : (countPulse s).bmInited = s.bmInited := rfl
@[simp] theorem countPulse_busReset : (countPulse s).busReset = s.busReset := rfl
@[simp] theorem countPulse_txnOpen : (countPulse s).txnOpen = s.txnOpen := rfl
@[simp] theorem countPulse_dispPhase : (countPulse s).dispPhase = s.dispPhase := rfl
@[simp] theorem countPulse_dispMode : (countPulse s).dispMode = s.dispMode := rfl
@[simp] theorem countPulse_trace : (countPulse s).trace = s.trace := rfl
@[simp] theorem countPulse_violated : (countPulse s).violated = s.violated := rfl
@[simp] theorem countPulse_seq : (countPulse s).seq = s.seq := rfl
@[simp] theorem countPulse_host : (countPulse s).host = s.host := rfl
@[simp] theorem countPulse_answer : (countPulse s).answer = s.answer := rfl
@[simp] theorem countPulse_envGrants : (countPulse s).envGrants = s.envGrants := rfl
@[simp] theorem countPulse_envLines : (countPulse s).envLines = s.envLines := rfl
@[simp] theorem countPulse_envResets : (countPulse s).envResets = s.envResets := rfl
@[simp] theorem countPulse_draws : (countPulse s).draws = s.draws := rfl
@[simp] theorem countPulse_resetIn : (countPulse s).resetIn = s.resetIn := rfl
@[simp] theorem countPulse_cfg : (countPulse s).cfg = s.cfg := rfl

@[simp] theorem clearOuter_maddr : (clearOuter s).maddr = s.maddr := rfl
@[simp] theorem clearOuter_mdata : (clearOuter s).mdata = s.mdata := rfl
@[simp] theorem clearOuter_divisor : (clearOuter s).divisor = s.divisor := rfl
@[simp] theorem clearOuter_ctrlEnable : (clearOuter s).ctrlEnable = s.ctrlEnable := rfl
@[simp] theorem clearOuter_wif : (clearOuter s).wif = s.wif := rfl
@[simp] theorem clearOuter_rif : (clearOuter s).rif = s.rif := rfl
@[simp] theorem clearOuter_busState : (clearOuter s).busState = s.busState := rfl
@[simp] theorem clearOuter_result : (clearOuter s).result = s.result := rfl
@[simp] theorem clearOuter_faults : (clearOuter s).faults = s.faults := rfl
@[simp] theorem clearOuter_phase : (clearOuter s).phase = s.phase := rfl
@[simp] theorem clearOuter_dcIp : (clearOuter s).dcIp = s.dcIp := rfl
@[simp] theorem clearOuter_rcOuter : (clearOuter s).rcOuter = 0 := rfl
@[simp] theorem clearOuter_rcInner : (clearOuter s).rcInner = s.rcInner := rfl
@[simp] theorem clearOuter_wc : (clearOuter s).wc = s.wc := rfl
@[simp] theorem clearOuter_sda : (clearOuter s).sda = s.sda := rfl
@[simp] theorem clearOuter_scl : (clearOuter s).scl = s.scl := rfl
@[simp] theorem clearOuter_q : (clearOuter s).q = s.q := rfl
@[simp] theorem clearOuter_bmInited : (clearOuter s).bmInited = s.bmInited := rfl
@[simp] theorem clearOuter_busReset : (clearOuter s).busReset = s.busReset := rfl
@[simp] theorem clearOuter_txnOpen : (clearOuter s).txnOpen = s.txnOpen := rfl
@[simp] theorem clearOuter_dispPhase : (clearOuter s).dispPhase = s.dispPhase := rfl
@[simp] theorem clearOuter_dispMode : (clearOuter s).dispMode = s.dispMode := rfl
@[simp] theorem clearOuter_trace : (clearOuter s).trace = s.trace := rfl
@[simp] theorem clearOuter_violated : (clearOuter s).violated = s.violated := rfl
@[simp] theorem clearOuter_seq : (clearOuter s).seq = s.seq := rfl
@[simp] theorem clearOuter_host : (clearOuter s).host = s.host := rfl
@[simp] theorem clearOuter_answer : (clearOuter s).answer = s.answer := rfl
@[simp] theorem clearOuter_envGrants : (clearOuter s).envGrants = s.envGrants := rfl
@[simp] theorem clearOuter_envLines : (clearOuter s).envLines = s.envLines := rfl
@[simp] theorem clearOuter_envResets : (clearOuter s).envResets = s.envResets := rfl
@[simp] theorem clearOuter_draws : (clearOuter s).draws = s.draws := rfl
@[simp] theorem clearOuter_resetIn : (clearOuter s).resetIn = s.resetIn := rfl
@[simp] theorem clearOuter_cfg : (clearOuter s).cfg = s.cfg := rfl

@[simp] theorem countAttempt_maddr : (countAttempt s).maddr = s.maddr := rfl
@[simp] theorem countAttempt_mdata : (countAttempt s).mdata = s.mdata := rfl
@[simp] theorem countAttempt_divisor : (countAttempt s).divisor = s.divisor := rfl
@[simp] theorem countAttempt_ctrlEnable : (countAttempt s).ctrlEnable = s.ctrlEnable := rfl
@[simp] theorem countAttempt_wif : (countAttempt s).wif = s.wif := rfl
@[simp] theorem countAttempt_rif : (countAttempt s).rif = s.rif := rfl
@[simp] theorem countAttempt_busState : (countAttempt s).busState = s.busState := rfl
@[simp] theorem countAttempt_result : (countAttempt s).result = s.result := rfl
@[simp] theorem countAttempt_faults : (countAttempt s).faults = s.faults := rfl
@[simp] theorem countAttempt_phase : (countAttempt s).phase = s.phase := rfl
@[simp] theorem countAttempt_dcIp : (countAttempt s).dcIp = s.dcIp := rfl
@[simp] theorem countAttempt_rcOuter : (countAttempt s).rcOuter = s.rcOuter + 1 := rfl
@[simp] theorem countAttempt_rcInner : (countAttempt s).rcInner = s.rcInner := rfl
@[simp] theorem countAttempt_wc : (countAttempt s).wc = s.wc := rfl
@[simp] theorem countAttempt_sda : (countAttempt s).sda = s.sda := rfl
@[simp] theorem countAttempt_scl : (countAttempt s).scl = s.scl := rfl
@[simp] theorem countAttempt_q : (countAttempt s).q = s.q := rfl
@[simp] theorem countAttempt_bmInited : (countAttempt s).bmInited = s.bmInited := rfl
@[simp] theorem countAttempt_busReset : (countAttempt s).busReset = s.busReset := rfl
@[simp] theorem countAttempt_txnOpen : (countAttempt s).txnOpen = s.txnOpen := rfl
@[simp] theorem countAttempt_dispPhase : (countAttempt s).dispPhase = s.dispPhase := rfl
@[simp] theorem countAttempt_dispMode : (countAttempt s).dispMode = s.dispMode := rfl
@[simp] theorem countAttempt_trace : (countAttempt s).trace = s.trace := rfl
@[simp] theorem countAttempt_violated : (countAttempt s).violated = s.violated := rfl
@[simp] theorem countAttempt_seq : (countAttempt s).seq = s.seq := rfl
@[simp] theorem countAttempt_host : (countAttempt s).host = s.host := rfl
@[simp] theorem countAttempt_answer : (countAttempt s).answer = s.answer := rfl
@[simp] theorem countAttempt_envGrants : (countAttempt s).envGrants = s.envGrants := rfl
@[simp] theorem countAttempt_envLines : (countAttempt s).envLines = s.envLines := rfl
@[simp] theorem countAttempt_envResets : (countAttempt s).envResets = s.envResets := rfl
@[simp] theorem countAttempt_draws : (countAttempt s).draws = s.draws := rfl
@[simp] theorem countAttempt_resetIn : (countAttempt s).resetIn = s.resetIn := rfl
@[simp] theorem countAttempt_cfg : (countAttempt s).cfg = s.cfg := rfl

@[simp] theorem busResetDone_maddr : (busResetDone s).maddr = s.maddr := rfl
@[simp] theorem busResetDone_mdata : (busResetDone s).mdata = s.mdata := rfl
@[simp] theorem busResetDone_divisor : (busResetDone s).divisor = s.divisor := rfl
@[simp] theorem busResetDone_ctrlEnable : (busResetDone s).ctrlEnable = s.ctrlEnable := rfl
@[simp] theorem busResetDone_wif : (busResetDone s).wif = s.wif := rfl
@[simp] theorem busResetDone_rif : (busResetDone s).rif = s.rif := rfl
@[simp] theorem busResetDone_busState : (busResetDone s).busState = s.busState := rfl
@[simp] theorem busResetDone_result : (busResetDone s).result = s.result := rfl
@[simp] theorem busResetDone_faults : (busResetDone s).faults = s.faults := rfl
@[simp] theorem busResetDone_phase : (busResetDone s).phase = s.phase := rfl
@[simp] theorem busResetDone_dcIp : (busResetDone s).dcIp = s.dcIp := rfl
@[simp] theorem busResetDone_rcOuter : (busResetDone s).rcOuter = s.rcOuter := rfl
@[simp] theorem busResetDone_rcInner : (busResetDone s).rcInner = s.rcInner := rfl
@[simp] theorem busResetDone_wc : (busResetDone s).wc = s.wc := rfl
@[simp] theorem busResetDone_sda : (busResetDone s).sda = s.sda := rfl
@[simp] theorem busResetDone_scl : (busResetDone s).scl = s.scl := rfl
@[simp] theorem busResetDone_q : (busResetDone s).q = s.q := rfl
@[simp] theorem busResetDone_bmInited : (busResetDone s).bmInited = s.bmInited := rfl
@[simp] theorem busResetDone_busReset : (busResetDone s).busReset = true := rfl
@[simp] theorem busResetDone_txnOpen : (busResetDone s).txnOpen = s.txnOpen := rfl
@[simp] theorem busResetDone_dispPhase : (busResetDone s).dispPhase = s.dispPhase := rfl
@[simp] theorem busResetDone_dispMode : (busResetDone s).dispMode = s.dispMode := rfl
@[simp] theorem busResetDone_trace : (busResetDone s).trace = s.trace := rfl
@[simp] theorem busResetDone_violated : (busResetDone s).violated = s.violated := rfl
@[simp] theorem busResetDone_seq : (busResetDone s).seq = s.seq := rfl
@[simp] theorem busResetDone_host : (busResetDone s).host = s.host := rfl
@[simp] theorem busResetDone_answer : (busResetDone s).answer = s.answer := rfl
@[simp] theorem busResetDone_envGrants : (busResetDone s).envGrants = s.envGrants := rfl
@[simp] theorem busResetDone_envLines : (busResetDone s).envLines = s.envLines := rfl
@[simp] theorem busResetDone_envResets : (busResetDone s).envResets = s.envResets := rfl
@[simp] theorem busResetDone_draws : (busResetDone s).draws = s.draws := rfl
@[simp] theorem busResetDone_resetIn : (busResetDone s).resetIn = s.resetIn := rfl
@[simp] theorem busResetDone_cfg : (busResetDone s).cfg = s.cfg := rfl

@[simp] theorem beginInit_maddr : (beginInit s).maddr = s.maddr := rfl
@[simp] theorem beginInit_mdata : (beginInit s).mdata = s.mdata := rfl
@[simp] theorem beginInit_divisor : (beginInit s).divisor = s.divisor := rfl
@[simp] theorem beginInit_ctrlEnable : (beginInit s).ctrlEnable = s.ctrlEnable := rfl
@[simp] theorem beginInit_wif : (beginInit s).wif = s.wif := rfl
@[simp] theorem beginInit_rif : (beginInit s).rif = s.rif := rfl
@[simp] theorem beginInit_busState : (beginInit s).busState = s.busState := rfl
@[simp] theorem beginInit_result : (beginInit s).result = s.result := rfl
@[simp] theorem beginInit_faults : (beginInit s).faults = s.faults := rfl
@[simp] theorem beginInit_phase : (beginInit s).phase = .initializing := rfl
@[simp] theorem beginInit_dcIp : (beginInit s).dcIp = 0 := rfl
@[simp] theorem beginInit_rcOuter : (beginInit s).rcOuter = s.rcOuter := rfl
@[simp] theorem beginInit_rcInner : (beginInit s).rcInner = s.rcInner := rfl
@[simp] theorem beginInit_wc : (beginInit s).wc = s.wc := rfl
@[simp] theorem beginInit_sda : (beginInit s).sda = s.sda := rfl
@[simp] theorem beginInit_scl : (beginInit s).scl = s.scl := rfl
@[simp] theorem beginInit_q : (beginInit s).q = s.q := rfl
@[simp] theorem beginInit_bmInited : (beginInit s).bmInited = s.bmInited := rfl
@[simp] theorem beginInit_busReset : (beginInit s).busReset = s.busReset := rfl
@[simp] theorem beginInit_txnOpen : (beginInit s).txnOpen = s.txnOpen := rfl
@[simp] theorem beginInit_dispPhase : (beginInit s).dispPhase = if s.cfg.displayFollows then .initializing else Config.freePhase s.draws := rfl
@[simp] theorem beginInit_dispMode : (beginInit s).dispMode = Config.freeMode (s.draws + 1) := rfl
@[simp] theorem beginInit_trace : (beginInit s).trace = s.trace := rfl
@[simp] theorem beginInit_violated : (beginInit s).violated = s.violated := rfl
@[simp] theorem beginInit_seq : (beginInit s).seq = s.seq := rfl
@[simp] theorem beginInit_host : (beginInit s).host = s.host := rfl
@[simp] theorem beginInit_answer : (beginInit s).answer = s.answer := rfl
@[simp] theorem beginInit_envGrants : (beginInit s).envGrants = s.envGrants := rfl
@[simp] theorem beginInit_envLines : (beginInit s).envLines = s.envLines := rfl
@[simp] theorem beginInit_envResets : (beginInit s).envResets = s.envResets := rfl
@[simp] theorem beginInit_draws : (beginInit s).draws = s.draws + 2 := rfl
@[simp] theorem beginInit_resetIn : (beginInit s).resetIn = s.resetIn := rfl
@[simp] theorem beginInit_cfg : (beginInit s).cfg = s.cfg := rfl

@[simp] theorem giveAnswer_maddr (a : Answer) : (giveAnswer a s).maddr = s.maddr := rfl
@[simp] theorem giveAnswer_mdata (a : Answer) : (giveAnswer a s).mdata = s.mdata := rfl
@[simp] theorem giveAnswer_divisor (a : Answer) : (giveAnswer a s).divisor = s.divisor := rfl
@[simp] theorem giveAnswer_ctrlEnable (a : Answer) : (giveAnswer a s).ctrlEnable = s.ctrlEnable := rfl
@[simp] theorem giveAnswer_wif (a : Answer) : (giveAnswer a s).wif = s.wif := rfl
@[simp] theorem giveAnswer_rif (a : Answer) : (giveAnswer a s).rif = s.rif := rfl
@[simp] theorem giveAnswer_busState (a : Answer) : (giveAnswer a s).busState = s.busState := rfl
@[simp] theorem giveAnswer_result (a : Answer) : (giveAnswer a s).result = s.result := rfl
@[simp] theorem giveAnswer_faults (a : Answer) : (giveAnswer a s).faults = s.faults := rfl
@[simp] theorem giveAnswer_phase (a : Answer) : (giveAnswer a s).phase = s.phase := rfl
@[simp] theorem giveAnswer_dcIp (a : Answer) : (giveAnswer a s).dcIp = s.dcIp := rfl
@[simp] theorem giveAnswer_rcOuter (a : Answer) : (giveAnswer a s).rcOuter = s.rcOuter := rfl
@[simp] theorem giveAnswer_rcInner (a : Answer) : (giveAnswer a s).rcInner = s.rcInner := rfl
@[simp] theorem giveAnswer_wc (a : Answer) : (giveAnswer a s).wc = s.wc := rfl
@[simp] theorem giveAnswer_sda (a : Answer) : (giveAnswer a s).sda = s.sda := rfl
@[simp] theorem giveAnswer_scl (a : Answer) : (giveAnswer a s).scl = s.scl := rfl
@[simp] theorem giveAnswer_q (a : Answer) : (giveAnswer a s).q = s.q := rfl
@[simp] theorem giveAnswer_bmInited (a : Answer) : (giveAnswer a s).bmInited = s.bmInited := rfl
@[simp] theorem giveAnswer_busReset (a : Answer) : (giveAnswer a s).busReset = s.busReset := rfl
@[simp] theorem giveAnswer_txnOpen (a : Answer) : (giveAnswer a s).txnOpen = s.txnOpen := rfl
@[simp] theorem giveAnswer_dispPhase (a : Answer) : (giveAnswer a s).dispPhase = s.dispPhase := rfl
@[simp] theorem giveAnswer_dispMode (a : Answer) : (giveAnswer a s).dispMode = s.dispMode := rfl
@[simp] theorem giveAnswer_trace (a : Answer) : (giveAnswer a s).trace = s.trace := rfl
@[simp] theorem giveAnswer_violated (a : Answer) : (giveAnswer a s).violated = s.violated := rfl
@[simp] theorem giveAnswer_seq (a : Answer) : (giveAnswer a s).seq = s.seq := rfl
@[simp] theorem giveAnswer_host (a : Answer) : (giveAnswer a s).host = s.host := rfl
@[simp] theorem giveAnswer_answer (a : Answer) : (giveAnswer a s).answer = a := rfl
@[simp] theorem giveAnswer_envGrants (a : Answer) : (giveAnswer a s).envGrants = s.envGrants := rfl
@[simp] theorem giveAnswer_envLines (a : Answer) : (giveAnswer a s).envLines = s.envLines := rfl
@[simp] theorem giveAnswer_envResets (a : Answer) : (giveAnswer a s).envResets = s.envResets := rfl
@[simp] theorem giveAnswer_draws (a : Answer) : (giveAnswer a s).draws = s.draws := rfl
@[simp] theorem giveAnswer_resetIn (a : Answer) : (giveAnswer a s).resetIn = s.resetIn := rfl
@[simp] theorem giveAnswer_cfg (a : Answer) : (giveAnswer a s).cfg = s.cfg := rfl

@[simp] theorem endInit_maddr : (endInit s).maddr = s.maddr := rfl
@[simp] theorem endInit_mdata : (endInit s).mdata = s.mdata := rfl
@[simp] theorem endInit_divisor : (endInit s).divisor = s.divisor := rfl
@[simp] theorem endInit_ctrlEnable : (endInit s).ctrlEnable = s.ctrlEnable := rfl
@[simp] theorem endInit_wif : (endInit s).wif = s.wif := rfl
@[simp] theorem endInit_rif : (endInit s).rif = s.rif := rfl
@[simp] theorem endInit_busState : (endInit s).busState = s.busState := rfl
@[simp] theorem endInit_result : (endInit s).result = s.result := rfl
@[simp] theorem endInit_faults : (endInit s).faults = s.faults := rfl
@[simp] theorem endInit_phase : (endInit s).phase = .ready := rfl
@[simp] theorem endInit_dcIp : (endInit s).dcIp = s.dcIp := rfl
@[simp] theorem endInit_rcOuter : (endInit s).rcOuter = s.rcOuter := rfl
@[simp] theorem endInit_rcInner : (endInit s).rcInner = s.rcInner := rfl
@[simp] theorem endInit_wc : (endInit s).wc = s.wc := rfl
@[simp] theorem endInit_sda : (endInit s).sda = s.sda := rfl
@[simp] theorem endInit_scl : (endInit s).scl = s.scl := rfl
@[simp] theorem endInit_q : (endInit s).q = s.q := rfl
@[simp] theorem endInit_bmInited : (endInit s).bmInited = s.bmInited := rfl
@[simp] theorem endInit_busReset : (endInit s).busReset = s.busReset := rfl
@[simp] theorem endInit_txnOpen : (endInit s).txnOpen = s.txnOpen := rfl
@[simp] theorem endInit_dispPhase : (endInit s).dispPhase = if s.cfg.displayFollows then .ready else Config.freePhase s.draws := rfl
@[simp] theorem endInit_dispMode : (endInit s).dispMode = Config.freeMode (s.draws + 1) := rfl
@[simp] theorem endInit_trace : (endInit s).trace = s.trace := rfl
@[simp] theorem endInit_violated : (endInit s).violated = s.violated := rfl
@[simp] theorem endInit_seq : (endInit s).seq = s.seq := rfl
@[simp] theorem endInit_host : (endInit s).host = s.host := rfl
@[simp] theorem endInit_answer : (endInit s).answer = s.answer := rfl
@[simp] theorem endInit_envGrants : (endInit s).envGrants = s.envGrants := rfl
@[simp] theorem endInit_envLines : (endInit s).envLines = s.envLines := rfl
@[simp] theorem endInit_envResets : (endInit s).envResets = s.envResets := rfl
@[simp] theorem endInit_draws : (endInit s).draws = s.draws + 2 := rfl
@[simp] theorem endInit_resetIn : (endInit s).resetIn = s.resetIn := rfl
@[simp] theorem endInit_cfg : (endInit s).cfg = s.cfg := rfl

@[simp] theorem busIssue_divisor (a : WireAction) : (busIssue a s).divisor = s.divisor := rfl
@[simp] theorem busIssue_ctrlEnable (a : WireAction) : (busIssue a s).ctrlEnable = s.ctrlEnable := rfl
@[simp] theorem busIssue_wif (a : WireAction) : (busIssue a s).wif = false := rfl
@[simp] theorem busIssue_rif (a : WireAction) : (busIssue a s).rif = false := rfl
@[simp] theorem busIssue_busState (a : WireAction) : (busIssue a s).busState = s.busState := rfl
@[simp] theorem busIssue_result (a : WireAction) : (busIssue a s).result = s.result := rfl
@[simp] theorem busIssue_faults (a : WireAction) : (busIssue a s).faults = s.faults := rfl
@[simp] theorem busIssue_phase (a : WireAction) : (busIssue a s).phase = s.phase := rfl
@[simp] theorem busIssue_dcIp (a : WireAction) : (busIssue a s).dcIp = s.dcIp := rfl
@[simp] theorem busIssue_rcOuter (a : WireAction) : (busIssue a s).rcOuter = s.rcOuter := rfl
@[simp] theorem busIssue_rcInner (a : WireAction) : (busIssue a s).rcInner = s.rcInner := rfl
@[simp] theorem busIssue_wc (a : WireAction) : (busIssue a s).wc = s.wc := rfl
@[simp] theorem busIssue_sda (a : WireAction) : (busIssue a s).sda = s.sda := rfl
@[simp] theorem busIssue_scl (a : WireAction) : (busIssue a s).scl = s.scl := rfl
@[simp] theorem busIssue_q (a : WireAction) : (busIssue a s).q = s.q ++ [a] := rfl
@[simp] theorem busIssue_bmInited (a : WireAction) : (busIssue a s).bmInited = s.bmInited := rfl
@[simp] theorem busIssue_busReset (a : WireAction) : (busIssue a s).busReset = s.busReset := rfl
@[simp] theorem busIssue_txnOpen (a : WireAction) : (busIssue a s).txnOpen = s.txnOpen := rfl
@[simp] theorem busIssue_dispPhase (a : WireAction) : (busIssue a s).dispPhase = s.dispPhase := rfl
@[simp] theorem busIssue_dispMode (a : WireAction) : (busIssue a s).dispMode = s.dispMode := rfl
@[simp] theorem busIssue_trace (a : WireAction) : (busIssue a s).trace = s.trace ++ [issueEvent a] := rfl
@[simp] theorem busIssue_violated (a : WireAction) : (busIssue a s).violated = s.violated := rfl
@[simp] theorem busIssue_seq (a : WireAction) : (busIssue a s).seq = s.seq := rfl
@[simp] theorem busIssue_host (a : WireAction) : (busIssue a s).host = s.host := rfl
@[simp] theorem busIssue_answer (a : WireAction) : (busIssue a s).answer = s.answer := rfl
@[simp] theorem busIssue_envGrants (a : WireAction) : (busIssue a s).envGrants = s.envGrants := rfl
@[simp] theorem busIssue_envLines (a : WireAction) : (busIssue a s).envLines = s.envLines := rfl
@[simp] theorem busIssue_envResets (a : WireAction) : (busIssue a s).envResets = s.envResets := rfl
@[simp] theorem busIssue_draws (a : WireAction) : (busIssue a s).draws = s.draws := rfl
@[simp] theorem busIssue_resetIn (a : WireAction) : (busIssue a s).resetIn = s.resetIn := rfl
@[simp] theorem busIssue_cfg (a : WireAction) : (busIssue a s).cfg = s.cfg := rfl
@[simp] theorem busIssue_maddr_addr (x : Byte) : (busIssue (.addr x) s).maddr = x := rfl
@[simp] theorem busIssue_maddr_data (x : Byte) : (busIssue (.data x) s).maddr = s.maddr := rfl
@[simp] theorem busIssue_maddr_stop : (busIssue .stop s).maddr = s.maddr := rfl
@[simp] theorem busIssue_mdata_addr (x : Byte) : (busIssue (.addr x) s).mdata = s.mdata := rfl
@[simp] theorem busIssue_mdata_data (x : Byte) : (busIssue (.data x) s).mdata = x := rfl
@[simp] theorem busIssue_mdata_stop : (busIssue .stop s).mdata = s.mdata := rfl

@[simp] theorem pinSetDirection_maddr (p : PinName) (d : PinDir) : (pinSetDirection p d s).maddr = s.maddr := by cases p <;> rfl
@[simp] theorem pinSetDirection_mdata (p : PinName) (d : PinDir) : (pinSetDirection p d s).mdata = s.mdata := by cases p <;> rfl
@[simp] theorem pinSetDirection_divisor (p : PinName) (d : PinDir) : (pinSetDirection p d s).divisor = s.divisor := by cases p <;> rfl
@[simp] theorem pinSetDirection_ctrlEnable (p : PinName) (d : PinDir) : (pinSetDirection p d s).ctrlEnable = s.ctrlEnable := by cases p <;> rfl
@[simp] theorem pinSetDirection_wif (p : PinName) (d : PinDir) : (pinSetDirection p d s).wif = s.wif := by cases p <;> rfl
@[simp] theorem pinSetDirection_rif (p : PinName) (d : PinDir) : (pinSetDirection p d s).rif = s.rif := by cases p <;> rfl
@[simp] theorem pinSetDirection_busState (p : PinName) (d : PinDir) : (pinSetDirection p d s).busState = s.busState := by cases p <;> rfl
@[simp] theorem pinSetDirection_result (p : PinName) (d : PinDir) : (pinSetDirection p d s).result = s.result := by cases p <;> rfl
@[simp] theorem pinSetDirection_faults (p : PinName) (d : PinDir) : (pinSetDirection p d s).faults = s.faults := by cases p <;> rfl
@[simp] theorem pinSetDirection_phase (p : PinName) (d : PinDir) : (pinSetDirection p d s).phase = s.phase := by cases p <;> rfl
@[simp] theorem pinSetDirection_dcIp (p : PinName) (d : PinDir) : (pinSetDirection p d s).dcIp = s.dcIp := by cases p <;> rfl
@[simp] theorem pinSetDirection_rcOuter (p : PinName) (d : PinDir) : (pinSetDirection p d s).rcOuter = s.rcOuter := by cases p <;> rfl
@[simp] theorem pinSetDirection_rcInner (p : PinName) (d : PinDir) : (pinSetDirection p d s).rcInner = s.rcInner := by cases p <;> rfl
@[simp] theorem pinSetDirection_wc (p : PinName) (d : PinDir) : (pinSetDirection p d s).wc = s.wc := by cases p <;> rfl
@[simp] theorem pinSetDirection_q (p : PinName) (d : PinDir) : (pinSetDirection p d s).q = s.q := by cases p <;> rfl
@[simp] theorem pinSetDirection_bmInited (p : PinName) (d : PinDir) : (pinSetDirection p d s).bmInited = s.bmInited := by cases p <;> rfl
@[simp] theorem pinSetDirection_busReset (p : PinName) (d : PinDir) : (pinSetDirection p d s).busReset = s.busReset := by cases p <;> rfl
@[simp] theorem pinSetDirection_txnOpen (p : PinName) (d : PinDir) : (pinSetDirection p d s).txnOpen = s.txnOpen := by cases p <;> rfl
@[simp] theorem pinSetDirection_dispPhase (p : PinName) (d : PinDir) : (pinSetDirection p d s).dispPhase = s.dispPhase := by cases p <;> rfl
@[simp] theorem pinSetDirection_dispMode (p : PinName) (d : PinDir) : (pinSetDirection p d s).dispMode = s.dispMode := by cases p <;> rfl
@[simp] theorem pinSetDirection_trace (p : PinName) (d : PinDir) : (pinSetDirection p d s).trace = s.trace ++ [.pinDir p d] := by cases p <;> rfl
@[simp] theorem pinSetDirection_violated (p : PinName) (d : PinDir) : (pinSetDirection p d s).violated = s.violated := by cases p <;> rfl
@[simp] theorem pinSetDirection_seq (p : PinName) (d : PinDir) : (pinSetDirection p d s).seq = s.seq := by cases p <;> rfl
@[simp] theorem pinSetDirection_host (p : PinName) (d : PinDir) : (pinSetDirection p d s).host = s.host := by cases p <;> rfl
@[simp] theorem pinSetDirection_answer (p : PinName) (d : PinDir) : (pinSetDirection p d s).answer = s.answer := by cases p <;> rfl
@[simp] theorem pinSetDirection_envGrants (p : PinName) (d : PinDir) : (pinSetDirection p d s).envGrants = s.envGrants := by cases p <;> rfl
@[simp] theorem pinSetDirection_envLines (p : PinName) (d : PinDir) : (pinSetDirection p d s).envLines = s.envLines := by cases p <;> rfl
@[simp] theorem pinSetDirection_envResets (p : PinName) (d : PinDir) : (pinSetDirection p d s).envResets = s.envResets := by cases p <;> rfl
@[simp] theorem pinSetDirection_draws (p : PinName) (d : PinDir) : (pinSetDirection p d s).draws = s.draws := by cases p <;> rfl
@[simp] theorem pinSetDirection_resetIn (p : PinName) (d : PinDir) : (pinSetDirection p d s).resetIn = s.resetIn := by cases p <;> rfl
@[simp] theorem pinSetDirection_cfg (p : PinName) (d : PinDir) : (pinSetDirection p d s).cfg = s.cfg := by cases p <;> rfl

@[simp] theorem pinWrite_maddr (p : PinName) (l : Bool) : (pinWrite p l s).maddr = s.maddr := by cases p <;> rfl
@[simp] theorem pinWrite_mdata (p : PinName) (l : Bool) : (pinWrite p l s).mdata = s.mdata := by cases p <;> rfl
@[simp] theorem pinWrite_divisor (p : PinName) (l : Bool) : (pinWrite p l s).divisor = s.divisor := by cases p <;> rfl
@[simp] theorem pinWrite_ctrlEnable (p : PinName) (l : Bool) : (pinWrite p l s).ctrlEnable = s.ctrlEnable := by cases p <;> rfl
@[simp] theorem pinWrite_wif (p : PinName) (l : Bool) : (pinWrite p l s).wif = s.wif := by cases p <;> rfl
@[simp] theorem pinWrite_rif (p : PinName) (l : Bool) : (pinWrite p l s).rif = s.rif := by cases p <;> rfl
@[simp] theorem pinWrite_busState (p : PinName) (l : Bool) : (pinWrite p l s).busState = s.busState := by cases p <;> rfl
@[simp] theorem pinWrite_result (p : PinName) (l : Bool) : (pinWrite p l s).result = s.result := by cases p <;> rfl
@[simp] theorem pinWrite_faults (p : PinName) (l : Bool) : (pinWrite p l s).faults = s.faults := by cases p <;> rfl
@[simp] theorem pinWrite_phase (p : PinName) (l : Bool) : (pinWrite p l s).phase = s.phase := by cases p <;> rfl
@[simp] theorem pinWrite_dcIp (p : PinName) (l : Bool) : (pinWrite p l s).dcIp = s.dcIp := by cases p <;> rfl
@[simp] theorem pinWrite_rcOuter (p : PinName) (l : Bool) : (pinWrite p l s).rcOuter = s.rcOuter := by cases p <;> rfl
@[simp] theorem pinWrite_rcInner (p : PinName) (l : Bool) : (pinWrite p l s).rcInner = s.rcInner := by cases p <;> rfl
@[simp] theorem pinWrite_wc (p : PinName) (l : Bool) : (pinWrite p l s).wc = s.wc := by cases p <;> rfl
@[simp] theorem pinWrite_q (p : PinName) (l : Bool) : (pinWrite p l s).q = s.q := by cases p <;> rfl
@[simp] theorem pinWrite_bmInited (p : PinName) (l : Bool) : (pinWrite p l s).bmInited = s.bmInited := by cases p <;> rfl
@[simp] theorem pinWrite_busReset (p : PinName) (l : Bool) : (pinWrite p l s).busReset = s.busReset := by cases p <;> rfl
@[simp] theorem pinWrite_txnOpen (p : PinName) (l : Bool) : (pinWrite p l s).txnOpen = s.txnOpen := by cases p <;> rfl
@[simp] theorem pinWrite_dispPhase (p : PinName) (l : Bool) : (pinWrite p l s).dispPhase = s.dispPhase := by cases p <;> rfl
@[simp] theorem pinWrite_dispMode (p : PinName) (l : Bool) : (pinWrite p l s).dispMode = s.dispMode := by cases p <;> rfl
@[simp] theorem pinWrite_trace (p : PinName) (l : Bool) : (pinWrite p l s).trace = s.trace ++ [.pinOut p l] := by cases p <;> rfl
@[simp] theorem pinWrite_violated (p : PinName) (l : Bool) : (pinWrite p l s).violated = s.violated := by cases p <;> rfl
@[simp] theorem pinWrite_seq (p : PinName) (l : Bool) : (pinWrite p l s).seq = s.seq := by cases p <;> rfl
@[simp] theorem pinWrite_host (p : PinName) (l : Bool) : (pinWrite p l s).host = s.host := by cases p <;> rfl
@[simp] theorem pinWrite_answer (p : PinName) (l : Bool) : (pinWrite p l s).answer = s.answer := by cases p <;> rfl
@[simp] theorem pinWrite_envGrants (p : PinName) (l : Bool) : (pinWrite p l s).envGrants = s.envGrants := by cases p <;> rfl
@[simp] theorem pinWrite_envLines (p : PinName) (l : Bool) : (pinWrite p l s).envLines = s.envLines := by cases p <;> rfl
@[simp] theorem pinWrite_envResets (p : PinName) (l : Bool) : (pinWrite p l s).envResets = s.envResets := by cases p <;> rfl
@[simp] theorem pinWrite_draws (p : PinName) (l : Bool) : (pinWrite p l s).draws = s.draws := by cases p <;> rfl
@[simp] theorem pinWrite_resetIn (p : PinName) (l : Bool) : (pinWrite p l s).resetIn = s.resetIn := by cases p <;> rfl
@[simp] theorem pinWrite_cfg (p : PinName) (l : Bool) : (pinWrite p l s).cfg = s.cfg := by cases p <;> rfl

@[simp] theorem pinSetPullup_maddr (p : PinName) (e : Bool) : (pinSetPullup p e s).maddr = s.maddr := by cases p <;> rfl
@[simp] theorem pinSetPullup_mdata (p : PinName) (e : Bool) : (pinSetPullup p e s).mdata = s.mdata := by cases p <;> rfl
@[simp] theorem pinSetPullup_divisor (p : PinName) (e : Bool) : (pinSetPullup p e s).divisor = s.divisor := by cases p <;> rfl
@[simp] theorem pinSetPullup_ctrlEnable (p : PinName) (e : Bool) : (pinSetPullup p e s).ctrlEnable = s.ctrlEnable := by cases p <;> rfl
@[simp] theorem pinSetPullup_wif (p : PinName) (e : Bool) : (pinSetPullup p e s).wif = s.wif := by cases p <;> rfl
@[simp] theorem pinSetPullup_rif (p : PinName) (e : Bool) : (pinSetPullup p e s).rif = s.rif := by cases p <;> rfl
@[simp] theorem pinSetPullup_busState (p : PinName) (e : Bool) : (pinSetPullup p e s).busState = s.busState := by cases p <;> rfl
@[simp] theorem pinSetPullup_result (p : PinName) (e : Bool) : (pinSetPullup p e s).result = s.result := by cases p <;> rfl
@[simp] theorem pinSetPullup_faults (p : PinName) (e : Bool) : (pinSetPullup p e s).faults = s.faults := by cases p <;> rfl
@[simp] theorem pinSetPullup_phase (p : PinName) (e : Bool) : (pinSetPullup p e s).phase = s.phase := by cases p <;> rfl
@[simp] theorem pinSetPullup_dcIp (p : PinName) (e : Bool) : (pinSetPullup p e s).dcIp = s.dcIp := by cases p <;> rfl
@[simp] theorem pinSetPullup_rcOuter (p : PinName) (e : Bool) : (pinSetPullup p e s).rcOuter = s.rcOuter := by cases p <;> rfl
@[simp] theorem pinSetPullup_rcInner (p : PinName) (e : Bool) : (pinSetPullup p e s).rcInner = s.rcInner := by cases p <;> rfl
@[simp] theorem pinSetPullup_wc (p : PinName) (e : Bool) : (pinSetPullup p e s).wc = s.wc := by cases p <;> rfl
@[simp] theorem pinSetPullup_q (p : PinName) (e : Bool) : (pinSetPullup p e s).q = s.q := by cases p <;> rfl
@[simp] theorem pinSetPullup_bmInited (p : PinName) (e : Bool) : (pinSetPullup p e s).bmInited = s.bmInited := by cases p <;> rfl
@[simp] theorem pinSetPullup_busReset (p : PinName) (e : Bool) : (pinSetPullup p e s).busReset = s.busReset := by cases p <;> rfl
@[simp] theorem pinSetPullup_txnOpen (p : PinName) (e : Bool) : (pinSetPullup p e s).txnOpen = s.txnOpen := by cases p <;> rfl
@[simp] theorem pinSetPullup_dispPhase (p : PinName) (e : Bool) : (pinSetPullup p e s).dispPhase = s.dispPhase := by cases p <;> rfl
@[simp] theorem pinSetPullup_dispMode (p : PinName) (e : Bool) : (pinSetPullup p e s).dispMode = s.dispMode := by cases p <;> rfl
@[simp] theorem pinSetPullup_trace (p : PinName) (e : Bool) : (pinSetPullup p e s).trace = s.trace ++ [.pinPu p e] := by cases p <;> rfl
@[simp] theorem pinSetPullup_violated (p : PinName) (e : Bool) : (pinSetPullup p e s).violated = s.violated := by cases p <;> rfl
@[simp] theorem pinSetPullup_seq (p : PinName) (e : Bool) : (pinSetPullup p e s).seq = s.seq := by cases p <;> rfl
@[simp] theorem pinSetPullup_host (p : PinName) (e : Bool) : (pinSetPullup p e s).host = s.host := by cases p <;> rfl
@[simp] theorem pinSetPullup_answer (p : PinName) (e : Bool) : (pinSetPullup p e s).answer = s.answer := by cases p <;> rfl
@[simp] theorem pinSetPullup_envGrants (p : PinName) (e : Bool) : (pinSetPullup p e s).envGrants = s.envGrants := by cases p <;> rfl
@[simp] theorem pinSetPullup_envLines (p : PinName) (e : Bool) : (pinSetPullup p e s).envLines = s.envLines := by cases p <;> rfl
@[simp] theorem pinSetPullup_envResets (p : PinName) (e : Bool) : (pinSetPullup p e s).envResets = s.envResets := by cases p <;> rfl
@[simp] theorem pinSetPullup_draws (p : PinName) (e : Bool) : (pinSetPullup p e s).draws = s.draws := by cases p <;> rfl
@[simp] theorem pinSetPullup_resetIn (p : PinName) (e : Bool) : (pinSetPullup p e s).resetIn = s.resetIn := by cases p <;> rfl
@[simp] theorem pinSetPullup_cfg (p : PinName) (e : Bool) : (pinSetPullup p e s).cfg = s.cfg := by cases p <;> rfl

@[simp] theorem pinSetDirection_sda_sda (d : PinDir) : (pinSetDirection .sda d s).sda = { s.sda with dir := d } := rfl
@[simp] theorem pinSetDirection_sda_scl (d : PinDir) : (pinSetDirection .sda d s).scl = s.scl := rfl
@[simp] theorem pinSetDirection_scl_scl (d : PinDir) : (pinSetDirection .scl d s).scl = { s.scl with dir := d } := rfl
@[simp] theorem pinSetDirection_scl_sda (d : PinDir) : (pinSetDirection .scl d s).sda = s.sda := rfl
@[simp] theorem pinWrite_sda_sda (l : Bool) : (pinWrite .sda l s).sda = { s.sda with out := l } := rfl
@[simp] theorem pinWrite_sda_scl (l : Bool) : (pinWrite .sda l s).scl = s.scl := rfl
@[simp] theorem pinWrite_scl_scl (l : Bool) : (pinWrite .scl l s).scl = { s.scl with out := l } := rfl
@[simp] theorem pinWrite_scl_sda (l : Bool) : (pinWrite .scl l s).sda = s.sda := rfl
@[simp] theorem pinSetPullup_sda_sda (e : Bool) : (pinSetPullup .sda e s).sda = { s.sda with pu := e } := rfl
@[simp] theorem pinSetPullup_sda_scl (e : Bool) : (pinSetPullup .sda e s).scl = s.scl := rfl
@[simp] theorem pinSetPullup_scl_scl (e : Bool) : (pinSetPullup .scl e s).scl = { s.scl with pu := e } := rfl
@[simp] theorem pinSetPullup_scl_sda (e : Bool) : (pinSetPullup .scl e s).sda = s.sda := rfl

@[simp] theorem grantTaken_maddr : (grantTaken s).maddr = s.maddr := by unfold grantTaken; split <;> rfl
@[simp] theorem grantTaken_mdata : (grantTaken s).mdata = s.mdata := by unfold grantTaken; split <;> rfl
@[simp] theorem grantTaken_divisor : (grantTaken s).divisor = s.divisor := by unfold grantTaken; split <;> rfl
@[simp] theorem grantTaken_ctrlEnable : (grantTaken s).ctrlEnable = s.ctrlEnable := by unfold grantTaken; split <;> rfl
@[simp] theorem grantTaken_wif : (grantTaken s).wif = s.wif := by unfold grantTaken; split <;> rfl
@[simp] theorem grantTaken_rif : (grantTaken s).rif = s.rif := by unfold grantTaken; split <;> rfl
@[simp] theorem grantTaken_busState : (grantTaken s).busState = s.busState := by unfold grantTaken; split <;> rfl
@[simp] theorem grantTaken_result : (grantTaken s).result = s.result := by unfold grantTaken; split <;> rfl
@[simp] theorem grantTaken_faults : (grantTaken s).faults = s.faults := by unfold grantTaken; split <;> rfl
@[simp] theorem grantTaken_phase : (grantTaken s).phase = s.phase := by unfold grantTaken; split <;> rfl
@[simp] theorem grantTaken_dcIp : (grantTaken s).dcIp = s.dcIp := by unfold grantTaken; split <;> rfl
@[simp] theorem grantTaken_rcOuter : (grantTaken s).rcOuter = s.rcOuter := by unfold grantTaken; split <;> rfl
@[simp] theorem grantTaken_rcInner : (grantTaken s).rcInner = s.rcInner := by unfold grantTaken; split <;> rfl
@[simp] theorem grantTaken_wc : (grantTaken s).wc = s.wc := by unfold grantTaken; split <;> rfl
@[simp] theorem grantTaken_sda : (grantTaken s).sda = s.sda := by unfold grantTaken; split <;> rfl
@[simp] theorem grantTaken_scl : (grantTaken s).scl = s.scl := by unfold grantTaken; split <;> rfl
@[simp] theorem grantTaken_q : (grantTaken s).q = s.q := by unfold grantTaken; split <;> rfl
@[simp] theorem grantTaken_bmInited : (grantTaken s).bmInited = s.bmInited := by unfold grantTaken; split <;> rfl
@[simp] theorem grantTaken_busReset : (grantTaken s).busReset = s.busReset := by unfold grantTaken; split <;> rfl
@[simp] theorem grantTaken_txnOpen : (grantTaken s).txnOpen = s.txnOpen := by unfold grantTaken; split <;> rfl
@[simp] theorem grantTaken_dispPhase : (grantTaken s).dispPhase = s.dispPhase := by unfold grantTaken; split <;> rfl
@[simp] theorem grantTaken_dispMode : (grantTaken s).dispMode = s.dispMode := by unfold grantTaken; split <;> rfl
@[simp] theorem grantTaken_trace : (grantTaken s).trace = s.trace := by unfold grantTaken; split <;> rfl
@[simp] theorem grantTaken_violated : (grantTaken s).violated = s.violated := by unfold grantTaken; split <;> rfl
@[simp] theorem grantTaken_seq : (grantTaken s).seq = s.seq := by unfold grantTaken; split <;> rfl
@[simp] theorem grantTaken_host : (grantTaken s).host = s.host := by unfold grantTaken; split <;> rfl
@[simp] theorem grantTaken_answer : (grantTaken s).answer = s.answer := by unfold grantTaken; split <;> rfl
@[simp] theorem grantTaken_envLines : (grantTaken s).envLines = s.envLines := by unfold grantTaken; split <;> rfl
@[simp] theorem grantTaken_envResets : (grantTaken s).envResets = s.envResets := by unfold grantTaken; split <;> rfl
@[simp] theorem grantTaken_resetIn : (grantTaken s).resetIn = s.resetIn := by unfold grantTaken; split <;> rfl
@[simp] theorem grantTaken_cfg : (grantTaken s).cfg = s.cfg := by unfold grantTaken; split <;> rfl

@[simp] theorem lineTaken_maddr : (lineTaken s).maddr = s.maddr := by unfold lineTaken; split <;> rfl
@[simp] theorem lineTaken_mdata : (lineTaken s).mdata = s.mdata := by unfold lineTaken; split <;> rfl
@[simp] theorem lineTaken_divisor : (lineTaken s).divisor = s.divisor := by unfold lineTaken; split <;> rfl
@[simp] theorem lineTaken_ctrlEnable : (lineTaken s).ctrlEnable = s.ctrlEnable := by unfold lineTaken; split <;> rfl
@[simp] theorem lineTaken_wif : (lineTaken s).wif = s.wif := by unfold lineTaken; split <;> rfl
@[simp] theorem lineTaken_rif : (lineTaken s).rif = s.rif := by unfold lineTaken; split <;> rfl
@[simp] theorem lineTaken_busState : (lineTaken s).busState = s.busState := by unfold lineTaken; split <;> rfl
@[simp] theorem lineTaken_result : (lineTaken s).result = s.result := by unfold lineTaken; split <;> rfl
@[simp] theorem lineTaken_faults : (lineTaken s).faults = s.faults := by unfold lineTaken; split <;> rfl
@[simp] theorem lineTaken_phase : (lineTaken s).phase = s.phase := by unfold lineTaken; split <;> rfl
@[simp] theorem lineTaken_dcIp : (lineTaken s).dcIp = s.dcIp := by unfold lineTaken; split <;> rfl
@[simp] theorem lineTaken_rcOuter : (lineTaken s).rcOuter = s.rcOuter := by unfold lineTaken; split <;> rfl
@[simp] theorem lineTaken_rcInner : (lineTaken s).rcInner = s.rcInner := by unfold lineTaken; split <;> rfl
@[simp] theorem lineTaken_wc : (lineTaken s).wc = s.wc := by unfold lineTaken; split <;> rfl
@[simp] theorem lineTaken_sda : (lineTaken s).sda = s.sda := by unfold lineTaken; split <;> rfl
@[simp] theorem lineTaken_scl : (lineTaken s).scl = s.scl := by unfold lineTaken; split <;> rfl
@[simp] theorem lineTaken_q : (lineTaken s).q = s.q := by unfold lineTaken; split <;> rfl
@[simp] theorem lineTaken_bmInited : (lineTaken s).bmInited = s.bmInited := by unfold lineTaken; split <;> rfl
@[simp] theorem lineTaken_busReset : (lineTaken s).busReset = s.busReset := by unfold lineTaken; split <;> rfl
@[simp] theorem lineTaken_txnOpen : (lineTaken s).txnOpen = s.txnOpen := by unfold lineTaken; split <;> rfl
@[simp] theorem lineTaken_dispPhase : (lineTaken s).dispPhase = s.dispPhase := by unfold lineTaken; split <;> rfl
@[simp] theorem lineTaken_dispMode : (lineTaken s).dispMode = s.dispMode := by unfold lineTaken; split <;> rfl
@[simp] theorem lineTaken_trace : (lineTaken s).trace = s.trace := by unfold lineTaken; split <;> rfl
@[simp] theorem lineTaken_violated : (lineTaken s).violated = s.violated := by unfold lineTaken; split <;> rfl
@[simp] theorem lineTaken_seq : (lineTaken s).seq = s.seq := by unfold lineTaken; split <;> rfl
@[simp] theorem lineTaken_host : (lineTaken s).host = s.host := by unfold lineTaken; split <;> rfl
@[simp] theorem lineTaken_answer : (lineTaken s).answer = s.answer := by unfold lineTaken; split <;> rfl
@[simp] theorem lineTaken_envGrants : (lineTaken s).envGrants = s.envGrants := by unfold lineTaken; split <;> rfl
@[simp] theorem lineTaken_envResets : (lineTaken s).envResets = s.envResets := by unfold lineTaken; split <;> rfl
@[simp] theorem lineTaken_resetIn : (lineTaken s).resetIn = s.resetIn := by unfold lineTaken; split <;> rfl
@[simp] theorem lineTaken_cfg : (lineTaken s).cfg = s.cfg := by unfold lineTaken; split <;> rfl

@[simp] theorem resetPoint_maddr : (resetPoint s).maddr = s.maddr := by unfold resetPoint; split <;> [rfl; (split <;> rfl)]
@[simp] theorem resetPoint_mdata : (resetPoint s).mdata = s.mdata := by unfold resetPoint; split <;> [rfl; (split <;> rfl)]
@[simp] theorem resetPoint_divisor : (resetPoint s).divisor = s.divisor := by unfold resetPoint; split <;> [rfl; (split <;> rfl)]
@[simp] theorem resetPoint_ctrlEnable : (resetPoint s).ctrlEnable = s.ctrlEnable := by unfold resetPoint; split <;> [rfl; (split <;> rfl)]
@[simp] theorem resetPoint_wif : (resetPoint s).wif = s.wif := by unfold resetPoint; split <;> [rfl; (split <;> rfl)]
@[simp] theorem resetPoint_rif : (resetPoint s).rif = s.rif := by unfold resetPoint; split <;> [rfl; (split <;> rfl)]
@[simp] theorem resetPoint_busState : (resetPoint s).busState = s.busState := by unfold resetPoint; split <;> [rfl; (split <;> rfl)]
@[simp] theorem resetPoint_result : (resetPoint s).result = s.result := by unfold resetPoint; split <;> [rfl; (split <;> rfl)]
@[simp] theorem resetPoint_faults : (resetPoint s).faults = s.faults := by unfold resetPoint; split <;> [rfl; (split <;> rfl)]
@[simp] theorem resetPoint_phase : (resetPoint s).phase = s.phase := by unfold resetPoint; split <;> [rfl; (split <;> rfl)]
@[simp] theorem resetPoint_dcIp : (resetPoint s).dcIp = s.dcIp := by unfold resetPoint; split <;> [rfl; (split <;> rfl)]
@[simp] theorem resetPoint_rcOuter : (resetPoint s).rcOuter = s.rcOuter := by unfold resetPoint; split <;> [rfl; (split <;> rfl)]
@[simp] theorem resetPoint_rcInner : (resetPoint s).rcInner = s.rcInner := by unfold resetPoint; split <;> [rfl; (split <;> rfl)]
@[simp] theorem resetPoint_wc : (resetPoint s).wc = s.wc := by unfold resetPoint; split <;> [rfl; (split <;> rfl)]
@[simp] theorem resetPoint_sda : (resetPoint s).sda = s.sda := by unfold resetPoint; split <;> [rfl; (split <;> rfl)]
@[simp] theorem resetPoint_scl : (resetPoint s).scl = s.scl := by unfold resetPoint; split <;> [rfl; (split <;> rfl)]
@[simp] theorem resetPoint_q : (resetPoint s).q = s.q := by unfold resetPoint; split <;> [rfl; (split <;> rfl)]
@[simp] theorem resetPoint_bmInited : (resetPoint s).bmInited = s.bmInited := by unfold resetPoint; split <;> [rfl; (split <;> rfl)]
@[simp] theorem resetPoint_busReset : (resetPoint s).busReset = s.busReset := by unfold resetPoint; split <;> [rfl; (split <;> rfl)]
@[simp] theorem resetPoint_txnOpen : (resetPoint s).txnOpen = s.txnOpen := by unfold resetPoint; split <;> [rfl; (split <;> rfl)]
@[simp] theorem resetPoint_dispPhase : (resetPoint s).dispPhase = s.dispPhase := by unfold resetPoint; split <;> [rfl; (split <;> rfl)]
@[simp] theorem resetPoint_dispMode : (resetPoint s).dispMode = s.dispMode := by unfold resetPoint; split <;> [rfl; (split <;> rfl)]
@[simp] theorem resetPoint_trace : (resetPoint s).trace = s.trace := by unfold resetPoint; split <;> [rfl; (split <;> rfl)]
@[simp] theorem resetPoint_violated : (resetPoint s).violated = s.violated := by unfold resetPoint; split <;> [rfl; (split <;> rfl)]
@[simp] theorem resetPoint_seq : (resetPoint s).seq = s.seq := by unfold resetPoint; split <;> [rfl; (split <;> rfl)]
@[simp] theorem resetPoint_host : (resetPoint s).host = s.host := by unfold resetPoint; split <;> [rfl; (split <;> rfl)]
@[simp] theorem resetPoint_answer : (resetPoint s).answer = s.answer := by unfold resetPoint; split <;> [rfl; (split <;> rfl)]
@[simp] theorem resetPoint_envGrants : (resetPoint s).envGrants = s.envGrants := by unfold resetPoint; split <;> [rfl; (split <;> rfl)]
@[simp] theorem resetPoint_envLines : (resetPoint s).envLines = s.envLines := by unfold resetPoint; split <;> [rfl; (split <;> rfl)]
@[simp] theorem resetPoint_draws : (resetPoint s).draws = s.draws := by unfold resetPoint; split <;> [rfl; (split <;> rfl)]
@[simp] theorem resetPoint_cfg : (resetPoint s).cfg = s.cfg := by unfold resetPoint; split <;> [rfl; (split <;> rfl)]

/-- With no reset asserted or ahead, a point changes nothing (R290). -/
theorem resetPoint_none {s : State} (h : s.resetIn = false) (he : s.envResets = []) : resetPoint s = s := by
  simp [resetPoint, h, he]

/-- Under an asserted reset a point changes nothing. -/
theorem resetPoint_asserted {s : State} (h : s.resetIn = true) : resetPoint s = s := by simp [resetPoint, h]

/-- The environment's next reset comes at this point. -/
theorem resetPoint_now {s : State} {ns : List Nat} (h : s.resetIn = false) (he : s.envResets = 0 :: ns) :
    resetPoint s = { s with resetIn := true, envResets := ns } := by simp [resetPoint, h, he]

/-- The environment's next reset is one point nearer. -/
theorem resetPoint_later {s : State} {n : Nat} {ns : List Nat} (h : s.resetIn = false) (he : s.envResets = (n + 1) :: ns) :
    resetPoint s = { s with envResets := n :: ns } := by simp [resetPoint, h, he]

end Sys2Proof.Machine
end

