-- ==== Sys2Proof/Laws/Engine.lean ====
section
/-! SUPPORT. What the engine can do: nothing when it is off or has nothing queued; otherwise it performs a beginning of its queue and
leaves the sequencer's part of the state alone (R78, R79, R81, R94). -/

namespace Sys2Proof.Machine

/-! ### One step -/

theorem perform_addr {s : State} {a : Byte} {q : List WireAction} (h : s.q = .addr a :: q) :
    perform s =
      { s with
        q := q
        busState := .busy
        wif := true
        trace := s.trace ++ [startEvent s.busState a] } := by
  simp [perform, h]

theorem perform_data {s : State} {b : Byte} {q : List WireAction} (h : s.q = .data b :: q) :
    perform s = { s with q := q, wif := true, trace := s.trace ++ [.wByte b] } := by
  simp [perform, h]

theorem perform_stop {s : State} {q : List WireAction} (h : s.q = .stop :: q) :
    perform s = { s with q := q, busState := .idle, trace := s.trace ++ [.wStop] } := by
  simp [perform, h]

/-- The three steps the engine can take, in one place. -/
theorem perform_cases {s : State} (h : performable s = true) :
    (∃ a q, s.q = .addr a :: q ∧ perform s =
        { s with q := q, busState := .busy, wif := true,
                 trace := s.trace ++ [startEvent s.busState a] }) ∨
    (∃ b q, s.q = .data b :: q ∧ s.busState = .busy ∧
        perform s = { s with q := q, wif := true, trace := s.trace ++ [.wByte b] }) ∨
    (∃ q, s.q = .stop :: q ∧ perform s = { s with q := q, busState := .idle, trace := s.trace ++ [.wStop] }) := by
  cases hq : s.q with
  | nil => simp [performable, hq] at h
  | cons x q =>
    cases x with
    | addr a => exact .inl ⟨a, q, rfl, perform_addr hq⟩
    | data b =>
      refine .inr (.inl ⟨b, q, rfl, ?_, perform_data hq⟩)
      cases hb : s.busState with
      | idle => simp [performable, atUndefinedByte, hq, hb] at h
      | busy => rfl
    | stop => exact .inr (.inr ⟨q, rfl, perform_stop hq⟩)

/-- Under an asserted reset the engine takes no step (R290). -/
theorem performable_asserted {s : State} (h : s.resetIn = true) : performable s = false := by
  simp [performable, h]

theorem performable_off {s : State} (h : s.ctrlEnable = false) : performable s = false := by
  simp [performable, h]

theorem performable_empty {s : State} (h : s.q = []) : performable s = false := by
  simp [performable, h]

@[simp] theorem controlEvents_append (a b : List Event) : controlEvents (a ++ b) = controlEvents a ++ controlEvents b :=
  List.filter_append ..

@[simp] theorem issuedActions_append (a b : List Event) : issuedActions (a ++ b) = issuedActions a ++ issuedActions b :=
  List.filterMap_append ..

@[simp] theorem performedActions_append (a b : List Event) :
    performedActions (a ++ b) = performedActions a ++ performedActions b := List.filterMap_append ..

theorem perform_sequencerPart {s : State} (h : performable s = true) :
    (perform s).sequencerPart = s.sequencerPart := by
  obtain ⟨a, q, -, e⟩ | ⟨b, q, -, -, e⟩ | ⟨q, -, e⟩ := perform_cases h
  · rw [e]; cases s.busState <;> simp [State.sequencerPart, controlEvents, Event.isWire, startEvent]
  · rw [e]; simp [State.sequencerPart, controlEvents, Event.isWire]
  · rw [e]; simp [State.sequencerPart, controlEvents, Event.isWire]

theorem grantTaken_sequencerPart (s : State) : (grantTaken s).sequencerPart = s.sequencerPart := by
  unfold grantTaken; split <;> simp [State.sequencerPart]

/-! ### Turns -/

/-- What every engine step and every grant keeps. -/
structure EngineKeeps (P : State → Prop) : Prop where
  perform : ∀ s, performable s = true → P s → P (perform s)
  grant : ∀ s, P s → P (grantTaken s)

/-- Whatever every engine step keeps, a run of engine steps keeps. -/
theorem EngineKeeps.performUpTo {P : State → Prop} (he : EngineKeeps P) : ∀ n s, P s → P (performUpTo n s) := by
  intro n
  induction n with
  | zero => intro s h; exact h
  | succ n ih =>
    intro s h
    rw [Machine.performUpTo]
    split
    · exact ih _ (he.perform _ ‹_› h)
    · exact h

/-- Whatever every engine step and every grant keeps, an engine turn keeps. -/
theorem EngineKeeps.turn {P : State → Prop} (he : EngineKeeps P) (s : State) (h : P s) : P (engineTurn s) := by
  unfold engineTurn
  split
  · exact he.performUpTo _ _ (he.grant _ h)
  · exact h

@[simp] theorem engineTurn_sequencerPart (s : State) : (engineTurn s).sequencerPart = s.sequencerPart :=
  EngineKeeps.turn (P := fun t => t.sequencerPart = s.sequencerPart)
    ⟨fun _ h e => (perform_sequencerPart h).trans e, fun t e => (grantTaken_sequencerPart t).trans e⟩ s rfl

theorem engineTurn_off {s : State} (h : s.ctrlEnable = false) : engineTurn s = s := by
  simp [engineTurn, performable_off h]

theorem engineTurn_asserted {s : State} (h : s.resetIn = true) : engineTurn s = s := by
  simp [engineTurn, performable_asserted h]

theorem engineTurn_empty {s : State} (h : s.q = []) : engineTurn s = s := by
  simp [engineTurn, performable_empty h]

/-- An engine that is withheld performs nothing (R79). -/
theorem engineTurn_withheld {s : State} {gs : List Nat} (h : s.envGrants = 0 :: gs) (hp : performable s = true) :
    engineTurn s = { s with envGrants := gs } := by
  simp [engineTurn, hp, grantNow, grantTaken, h, performUpTo]

/-- A granted engine with one action queued performs it (R78). -/
theorem engineTurn_single {s : State} {x : WireAction} {g : Nat} {gs : List Nat} (hq : s.q = [x])
    (he : s.envGrants = g :: gs) (hg : 1 ≤ g) (hp : performable s = true) :
    engineTurn s = perform { s with envGrants := gs } := by
  have hp' : performable { s with envGrants := gs } = true := hp
  have hm : min (grantNow s) s.q.length = 1 := by simp [grantNow, he, hq]; omega
  have ht : grantTaken s = { s with envGrants := gs } := by simp [grantTaken, he]
  rw [engineTurn, if_pos hp, hm, ht, performUpTo, if_pos hp', performUpTo]

/-- An engine that is on may take the action at the head of its queue, a data byte only while the bus is busy (R78). -/
theorem performable_cons {s : State} {x : WireAction} {q : List WireAction} (h : s.ctrlEnable = true)
    (hr : s.resetIn = false) (hq : s.q = x :: q) (hb : ∀ b, x = .data b → s.busState = .busy) : performable s = true := by
  cases x <;> simp_all [performable, atUndefinedByte]

/-- A granted engine with only a stop queued releases the bus (R78). -/
theorem engineTurn_stop {s : State} {g : Nat} {gs : List Nat} (hc : s.ctrlEnable = true) (hr : s.resetIn = false) (hq : s.q = [.stop])
    (he : s.envGrants = (g + 1) :: gs) :
    engineTurn s = { s with q := [], busState := .idle, envGrants := gs, trace := s.trace ++ [.wStop] } := by
  rw [engineTurn_single hq he (Nat.succ_le_succ (Nat.zero_le g)) (performable_cons hc hr hq (by simp)),
    perform_stop (s := { s with envGrants := gs }) (q := []) hq]

@[simp] theorem engineTurn_maddr (s : State) : (engineTurn s).maddr = s.maddr :=
  show (engineTurn s).sequencerPart.maddr = s.sequencerPart.maddr by rw [engineTurn_sequencerPart]
@[simp] theorem engineTurn_mdata (s : State) : (engineTurn s).mdata = s.mdata :=
  show (engineTurn s).sequencerPart.mdata = s.sequencerPart.mdata by rw [engineTurn_sequencerPart]
@[simp] theorem engineTurn_divisor (s : State) : (engineTurn s).divisor = s.divisor :=
  show (engineTurn s).sequencerPart.divisor = s.sequencerPart.divisor by rw [engineTurn_sequencerPart]
@[simp] theorem engineTurn_ctrlEnable (s : State) : (engineTurn s).ctrlEnable = s.ctrlEnable :=
  show (engineTurn s).sequencerPart.ctrlEnable = s.sequencerPart.ctrlEnable by rw [engineTurn_sequencerPart]
@[simp] theorem engineTurn_rif (s : State) : (engineTurn s).rif = s.rif :=
  show (engineTurn s).sequencerPart.rif = s.sequencerPart.rif by rw [engineTurn_sequencerPart]
@[simp] theorem engineTurn_result (s : State) : (engineTurn s).result = s.result :=
  show (engineTurn s).sequencerPart.result = s.sequencerPart.result by rw [engineTurn_sequencerPart]
@[simp] theorem engineTurn_faults (s : State) : (engineTurn s).faults = s.faults :=
  show (engineTurn s).sequencerPart.faults = s.sequencerPart.faults by rw [engineTurn_sequencerPart]
@[simp] theorem engineTurn_phase (s : State) : (engineTurn s).phase = s.phase :=
  show (engineTurn s).sequencerPart.phase = s.sequencerPart.phase by rw [engineTurn_sequencerPart]
@[simp] theorem engineTurn_dcIp (s : State) : (engineTurn s).dcIp = s.dcIp :=
  show (engineTurn s).sequencerPart.dcIp = s.sequencerPart.dcIp by rw [engineTurn_sequencerPart]
@[simp] theorem engineTurn_rcOuter (s : State) : (engineTurn s).rcOuter = s.rcOuter :=
  show (engineTurn s).sequencerPart.rcOuter = s.sequencerPart.rcOuter by rw [engineTurn_sequencerPart]
@[simp] theorem engineTurn_rcInner (s : State) : (engineTurn s).rcInner = s.rcInner :=
  show (engineTurn s).sequencerPart.rcInner = s.sequencerPart.rcInner by rw [engineTurn_sequencerPart]
@[simp] theorem engineTurn_wc (s : State) : (engineTurn s).wc = s.wc :=
  show (engineTurn s).sequencerPart.wc = s.sequencerPart.wc by rw [engineTurn_sequencerPart]
@[simp] theorem engineTurn_sda (s : State) : (engineTurn s).sda = s.sda :=
  show (engineTurn s).sequencerPart.sda = s.sequencerPart.sda by rw [engineTurn_sequencerPart]
@[simp] theorem engineTurn_scl (s : State) : (engineTurn s).scl = s.scl :=
  show (engineTurn s).sequencerPart.scl = s.sequencerPart.scl by rw [engineTurn_sequencerPart]
@[simp] theorem engineTurn_bmInited (s : State) : (engineTurn s).bmInited = s.bmInited :=
  show (engineTurn s).sequencerPart.bmInited = s.sequencerPart.bmInited by rw [engineTurn_sequencerPart]
@[simp] theorem engineTurn_busReset (s : State) : (engineTurn s).busReset = s.busReset :=
  show (engineTurn s).sequencerPart.busReset = s.sequencerPart.busReset by rw [engineTurn_sequencerPart]
@[simp] theorem engineTurn_txnOpen (s : State) : (engineTurn s).txnOpen = s.txnOpen :=
  show (engineTurn s).sequencerPart.txnOpen = s.sequencerPart.txnOpen by rw [engineTurn_sequencerPart]
@[simp] theorem engineTurn_dispPhase (s : State) : (engineTurn s).dispPhase = s.dispPhase :=
  show (engineTurn s).sequencerPart.dispPhase = s.sequencerPart.dispPhase by rw [engineTurn_sequencerPart]
@[simp] theorem engineTurn_dispMode (s : State) : (engineTurn s).dispMode = s.dispMode :=
  show (engineTurn s).sequencerPart.dispMode = s.sequencerPart.dispMode by rw [engineTurn_sequencerPart]
@[simp] theorem engineTurn_violated (s : State) : (engineTurn s).violated = s.violated :=
  show (engineTurn s).sequencerPart.violated = s.sequencerPart.violated by rw [engineTurn_sequencerPart]
@[simp] theorem engineTurn_seq (s : State) : (engineTurn s).seq = s.seq :=
  show (engineTurn s).sequencerPart.seq = s.sequencerPart.seq by rw [engineTurn_sequencerPart]
@[simp] theorem engineTurn_host (s : State) : (engineTurn s).host = s.host :=
  show (engineTurn s).sequencerPart.host = s.sequencerPart.host by rw [engineTurn_sequencerPart]
@[simp] theorem engineTurn_answer (s : State) : (engineTurn s).answer = s.answer :=
  show (engineTurn s).sequencerPart.answer = s.sequencerPart.answer by rw [engineTurn_sequencerPart]
@[simp] theorem engineTurn_envLines (s : State) : (engineTurn s).envLines = s.envLines :=
  show (engineTurn s).sequencerPart.envLines = s.sequencerPart.envLines by rw [engineTurn_sequencerPart]
@[simp] theorem engineTurn_envResets (s : State) : (engineTurn s).envResets = s.envResets :=
  show (engineTurn s).sequencerPart.envResets = s.sequencerPart.envResets by rw [engineTurn_sequencerPart]
@[simp] theorem engineTurn_resetIn (s : State) : (engineTurn s).resetIn = s.resetIn :=
  show (engineTurn s).sequencerPart.resetIn = s.sequencerPart.resetIn by rw [engineTurn_sequencerPart]
@[simp] theorem engineTurn_cfg (s : State) : (engineTurn s).cfg = s.cfg :=
  show (engineTurn s).sequencerPart.cfg = s.sequencerPart.cfg by rw [engineTurn_sequencerPart]

/-- The engine emits wire events only (R24). -/
@[simp] theorem engineTurn_controlEvents (s : State) : controlEvents (engineTurn s).trace = controlEvents s.trace :=
  show (engineTurn s).sequencerPart.trace = s.sequencerPart.trace by rw [engineTurn_sequencerPart]

/-- An engine turn performs a beginning of the queue, in order, and emits an event for each action (R94). -/
theorem engineTurn_queue (s : State) :
    ∃ acts evs, s.q = acts ++ (engineTurn s).q ∧ (engineTurn s).trace = s.trace ++ evs ∧ performedActions evs = acts ∧
      issuedActions evs = [] := by
  refine EngineKeeps.turn
    (P := fun t => ∃ acts evs, s.q = acts ++ t.q ∧ t.trace = s.trace ++ evs ∧ performedActions evs = acts ∧
      issuedActions evs = []) ⟨?_, ?_⟩ s ⟨[], [], rfl, by simp, rfl, rfl⟩
  · rintro t hp ⟨acts, evs, hq, ht, rfl, hi⟩
    obtain ⟨a, q, e, ep⟩ | ⟨b, q, e, -, ep⟩ | ⟨q, e, ep⟩ := perform_cases hp
    · refine ⟨_, evs ++ [startEvent t.busState a], ?_, ?_, rfl, ?_⟩
      · rw [ep, hq, e]; cases t.busState <;> simp [performedActions, Event.performed, startEvent]
      · rw [ep, ht]; simp
      · cases t.busState <;> simpa [issuedActions, Event.issued, startEvent] using hi
    · refine ⟨_, evs ++ [.wByte b], ?_, ?_, rfl, ?_⟩
      · rw [ep, hq, e]; simp [performedActions, Event.performed]
      · rw [ep, ht]; simp
      · simpa [issuedActions, Event.issued] using hi
    · refine ⟨_, evs ++ [.wStop], ?_, ?_, rfl, ?_⟩
      · rw [ep, hq, e]; simp [performedActions, Event.performed]
      · rw [ep, ht]; simp
      · simpa [issuedActions, Event.issued] using hi
  · rintro t ⟨acts, evs, h⟩
    exact ⟨acts, evs, by simpa using h⟩

/-- An engine with nothing queued has nothing after its turn either. -/
theorem engineTurn_queue_nil {s : State} (h : s.q = []) : (engineTurn s).q = [] := by rw [engineTurn_empty h, h]

/-! ### Actions with the engine's turns between them -/

/-- With no reset asserted or ahead, an action runs after the engine's turn (R93). -/
theorem runAction_none {act : State → State} {s : State} (h : s.noReset) : runAction act s = act (engineTurn s) := by
  have hr : (engineTurn s).resetIn = false := (engineTurn_resetIn s).trans h.1
  have he : (engineTurn s).envResets = [] := (engineTurn_envResets s).trans h.2
  simp only [runAction, resetPoint_none hr he, hr, Bool.false_eq_true, if_false]

/-- With nothing queued the engine does nothing before an action. -/
theorem runAction_rest {act : State → State} {s : State} (h : s.noReset) (hq : s.q = []) : runAction act s = act s := by
  rw [runAction_none h, engineTurn_empty hq]

/-- Under an asserted reset an action does nothing (R290). -/
theorem runAction_asserted {act : State → State} {s : State} (h : s.resetIn = true) : runAction act s = s := by
  simp [runAction, engineTurn_asserted h, resetPoint_asserted h, h]

@[simp] theorem runActions_nil (s : State) : runActions [] s = s := rfl

@[simp] theorem runActions_cons (act : State → State) (acts : List (State → State)) (s : State) :
    runActions (act :: acts) s = runActions acts (runAction act s) := rfl

theorem runActions_append (as bs : List (State → State)) (s : State) :
    runActions (as ++ bs) s = runActions bs (runActions as s) := by
  induction as generalizing s with
  | nil => rfl
  | cons a as ih => exact ih _

/-- Under an asserted reset no action does anything (R290). -/
theorem runActions_asserted : ∀ (acts : List (State → State)) {s : State}, s.resetIn = true → runActions acts s = s := by
  intro acts
  induction acts with
  | nil => intro s _; rfl
  | cons act acts ih => intro s h; rw [runActions_cons, runAction_asserted h, ih h]

/-- An action that leaves an empty queue empty and raises no reset. -/
def State.Rests (act : State → State) : Prop :=
  ∀ u : State, (u.q = [] → (act u).q = []) ∧ (act u).resetIn = u.resetIn ∧ (act u).envResets = u.envResets

/-- With nothing queued and no reset ahead, actions that queue nothing run one after another, the engine never doing anything between
them (R78). -/
theorem runActions_rest : ∀ (acts : List (State → State)) (s : State), s.q = [] → s.noReset →
    (∀ act ∈ acts, State.Rests act) → runActions acts s = acts.foldl (fun u act => act u) s := by
  intro acts
  induction acts with
  | nil => intro s _ _ _; rfl
  | cons act acts ih =>
    intro s h hn ha
    obtain ⟨h1, h2, h3⟩ := ha act List.mem_cons_self s
    rw [runActions_cons, runAction_rest hn h, List.foldl_cons]
    exact ih _ (h1 h) ⟨h2.trans hn.1, h3.trans hn.2⟩ fun a m => ha a (List.mem_cons_of_mem _ m)

/-- What every engine step, every grant and every point at which a reset may come keeps. -/
structure PointKeeps (P : State → Prop) : Prop extends EngineKeeps P where
  point : ∀ s, P s → P (resetPoint s)

/-- Whatever they and an action keep, the action with its turn and its point keeps. -/
theorem PointKeeps.action {P : State → Prop} (hp : PointKeeps P) {act : State → State} (ha : ∀ s, P s → P (act s)) (s : State)
    (h : P s) : P (runAction act s) := by
  have hu : P (resetPoint (engineTurn s)) := hp.point _ (hp.turn _ h)
  unfold runAction
  dsimp only
  split
  · exact hu
  · exact ha _ hu

/-- Whatever they and each of the actions keep, running the actions keeps. -/
theorem PointKeeps.actions {P : State → Prop} (hp : PointKeeps P) :
    ∀ acts : List (State → State), (∀ act ∈ acts, ∀ s, P s → P (act s)) → ∀ s, P s → P (runActions acts s) := by
  intro acts
  induction acts with
  | nil => intro _ s h; exact h
  | cons act acts ih =>
    intro ha s h
    exact ih (fun a m => ha a (List.mem_cons_of_mem _ m)) _ (hp.action (ha act List.mem_cons_self) _ h)

end Sys2Proof.Machine
end

