-- ==== Sys2Proof/Laws/Ops.lean ====
section
/-! SUPPORT. What each shared operation can do, said once: taking up an operation, the engine's gate, one poll, a failed poll, a display transaction. -/

namespace Sys2Proof.Machine

/-! ### Taking up an operation -/

theorem atUndefinedByte_empty {s : State} (h : s.q = []) : atUndefinedByte s = false := by
  simp [atUndefinedByte, h]

theorem atUndefinedByte_off {s : State} (h : s.ctrlEnable = false) : atUndefinedByte s = false := by
  simp [atUndefinedByte, h]

theorem accept_idle {i : Instr} {s : State} (h : s.seq = .idle) (body : Stage → State → Out) :
    accept i s body = body .start (recordContract i s) := by
  simp [accept, h]

theorem accept_waiting {i : Instr} {k : Stage} {s : State} (h : s.seq = .waiting i k) (body : Stage → State → Out) :
    accept i s body = body k s := by
  simp [accept, h]

/-- An operation that gives a next state was started by an idle block, or resumed by a block held inside it. -/
theorem accept_next {i : Instr} {s t : State} {body : Stage → State → Out} (h : accept i s body = .next t) :
    (s.seq = .idle ∧ body .start (recordContract i s) = .next t) ∨
    (∃ k, s.seq = .waiting i k ∧ body k s = .next t) := by
  unfold accept at h
  split at h
  · exact .inl ⟨‹_›, h⟩
  · rename_i j k hs
    split at h
    · rename_i e; subst e; exact .inr ⟨k, hs, h⟩
    · cases h

theorem engineGate_pass {s : State} (h : atUndefinedByte s = false) (body : State → Out) :
    engineGate s body = body s := by
  simp [engineGate, h]

/-- Past the gate stands the state itself, or the state with one grant of nothing taken. -/
theorem engineGate_next {s t : State} {body : State → Out} (h : engineGate s body = .next t) :
    (atUndefinedByte s = false ∧ body s = .next t) ∨ (atUndefinedByte s = true ∧ body (grantTaken s) = .next t) := by
  unfold engineGate at h
  split at h
  · split at h
    · exact .inr ⟨‹_›, h⟩
    · cases h
  · exact .inl ⟨Bool.eq_false_iff.mpr ‹_›, h⟩

theorem enter_idle {i : Instr} {s : State} (h : s.seq = .idle) (hu : atUndefinedByte s = false)
    (body : Stage → State → Out) :
    enter i s body = body .start (recordContract i s) := by
  rw [enter, accept_idle h]
  exact engineGate_pass (s := recordContract i s) hu _

theorem enter_waiting {i : Instr} {k : Stage} {s : State} (h : s.seq = .waiting i k) (hu : atUndefinedByte s = false)
    (body : Stage → State → Out) : enter i s body = body k s := by
  rw [enter, accept_waiting h, engineGate_pass hu]

/-- What `enter` runs its body on, when a next state comes out: the state taken up, or that state after a grant of nothing. -/
theorem enter_next {i : Instr} {s t : State} {body : Stage → State → Out} (h : enter i s body = .next t) :
    ∃ k u₀ u, body k u = .next t ∧ (u = u₀ ∨ u = grantTaken u₀) ∧
      ((s.seq = .idle ∧ k = .start ∧ u₀ = recordContract i s) ∨
       (s.seq = .waiting i k ∧ u₀ = s)) := by
  obtain ⟨hs, h⟩ | ⟨k, hs, h⟩ := accept_next h <;> obtain ⟨-, h⟩ | ⟨-, h⟩ := engineGate_next h
  · exact ⟨_, _, _, h, .inl rfl, .inl ⟨hs, rfl, rfl⟩⟩
  · exact ⟨_, _, _, h, .inr rfl, .inl ⟨hs, rfl, rfl⟩⟩
  · exact ⟨_, _, _, h, .inl rfl, .inr ⟨hs, rfl⟩⟩
  · exact ⟨_, _, _, h, .inr rfl, .inr ⟨hs, rfl⟩⟩

/-! ### One poll -/

/-- One poll with no reset asserted or ahead: the engine has had its turn, and the operation goes on exactly when a flag is up. -/
theorem waitIdle_eq (k : Stage) (fresh : Bool) {s : State} (h : s.noReset) :
    waitIdle k fresh s =
      if engineReady (engineTurn (if fresh then clearPolls s else s)) then
        .go (engineTurn (if fresh then clearPolls s else s))
      else .blocked k (engineTurn (if fresh then clearPolls s else s)) := by
  have hu : (if fresh then clearPolls s else s).noReset := by cases fresh <;> exact h
  simp only [waitIdle, h.1, Bool.not_false, Bool.and_true]
  generalize (if fresh then clearPolls s else s) = u at hu
  have hr : (engineTurn u).resetIn = false := (engineTurn_resetIn u).trans hu.1
  have he : (engineTurn u).envResets = [] := (engineTurn_envResets u).trans hu.2
  simp only [resetPoint_none hr he, hr, Bool.false_or]

/-- An asserted reset ends the wait, and nothing happens (R290). -/
theorem waitIdle_asserted (k : Stage) (fresh : Bool) {s : State} (h : s.resetIn = true) : waitIdle k fresh s = .go s := by
  simp [waitIdle, h, engineTurn_asserted h, resetPoint_asserted h]

/-- A flag that is already up lifts the wait at the first poll (R158). -/
theorem waitIdle_ready {k : Stage} {s : State} (hn : s.noReset) (hq : s.q = []) (hr : engineReady s = true) :
    waitIdle k true s = .go (clearPolls s) := by
  have hr' : engineReady (clearPolls s) = true := hr
  rw [waitIdle_eq k true hn, if_pos rfl, engineTurn_empty (s := clearPolls s) hq, if_pos hr']

/-- With nothing queued and no flag up, a poll fails. -/
theorem waitIdle_nothing {k : Stage} {fresh : Bool} {s : State} (hn : s.noReset) (hq : s.q = []) (hr : engineReady s = false) :
    waitIdle k fresh s = .blocked k (if fresh then clearPolls s else s) := by
  have h1 : (if fresh then clearPolls s else s).q = [] := by cases fresh <;> exact hq
  have h2 : engineReady (if fresh then clearPolls s else s) = false := by cases fresh <;> exact hr
  rw [waitIdle_eq k fresh hn, engineTurn_empty h1, h2]
  rfl

/-- A granted engine that has one address queued lifts the wait (R78, R158). -/
theorem waitIdle_addr {k : Stage} {s : State} {a : Byte} {g : Nat} {gs : List Nat} (hn : s.noReset) (hq : s.q = [.addr a])
    (he : s.envGrants = (g + 1) :: gs) (hc : s.ctrlEnable = true) :
    waitIdle k true s =
      .go { s with wc := 0, envGrants := gs, q := [], busState := .busy, wif := true,
                   trace := s.trace ++ [startEvent s.busState a] } := by
  have hp : performable (clearPolls s) = true := performable_cons hc hn.1 hq (by simp)
  rw [waitIdle_eq k true hn, if_pos rfl, engineTurn_single (s := clearPolls s) hq he (Nat.succ_le_succ (Nat.zero_le g)) hp,
    perform_addr (s := { clearPolls s with envGrants := gs }) hq]
  simp [engineReady, clearPolls]

/-- A granted engine that has one data byte queued lifts the wait (R78, R158). -/
theorem waitIdle_data {k : Stage} {s : State} {b : Byte} {g : Nat} {gs : List Nat} (hn : s.noReset) (hq : s.q = [.data b])
    (he : s.envGrants = (g + 1) :: gs) (hc : s.ctrlEnable = true) (hb : s.busState = .busy) :
    waitIdle k true s =
      .go { s with wc := 0, envGrants := gs, q := [], wif := true, trace := s.trace ++ [.wByte b] } := by
  have hp : performable (clearPolls s) = true := performable_cons hc hn.1 hq (fun _ _ => hb)
  rw [waitIdle_eq k true hn, if_pos rfl, engineTurn_single (s := clearPolls s) hq he (Nat.succ_le_succ (Nat.zero_le g)) hp,
    perform_data (s := { clearPolls s with envGrants := gs }) hq]
  simp [engineReady, clearPolls]

/-- A withheld engine leaves the wait where it is (R79, R158). -/
theorem waitIdle_withheld {k : Stage} {fresh : Bool} {s : State} {gs : List Nat} (hn : s.noReset) (hp : performable s = true)
    (he : s.envGrants = 0 :: gs) (hr : engineReady s = false) :
    waitIdle k fresh s = .blocked k { (if fresh then clearPolls s else s) with envGrants := gs } := by
  have h1 : (if fresh then clearPolls s else s).envGrants = 0 :: gs := by cases fresh <;> exact he
  have h2 : performable (if fresh then clearPolls s else s) = true := by cases fresh <;> exact hp
  have h3 : engineReady { (if fresh then clearPolls s else s) with envGrants := gs } = false := by cases fresh <;> exact hr
  rw [waitIdle_eq k fresh hn, engineTurn_withheld h1 h2, h3]
  rfl

/-- What the engine, the grants and the poll counter keep. -/
structure PollKeeps (P : State → Prop) : Prop extends PointKeeps P where
  clear : ∀ s, P s → P (clearPolls s)
  count : ∀ s, P s → P (countPoll s)

/-- Whatever the engine and the poll counter keep, a poll keeps, whichever way it goes; it goes on exactly when a flag is up or a reset
is asserted. -/
theorem PollKeeps.poll {P : State → Prop} (hp : PollKeeps P) (k : Stage) (fresh : Bool) (s : State) (h : P s) :
    (∃ t, waitIdle k fresh s = .go t ∧ (t.resetIn = true ∨ engineReady t = true) ∧ P t) ∨
    (∃ t, waitIdle k fresh s = .blocked k t ∧ t.resetIn = false ∧ engineReady t = false ∧ P t) := by
  have hP : P (resetPoint (engineTurn (if fresh && !s.resetIn then clearPolls s else s))) := by
    apply hp.point
    apply hp.turn
    split
    · exact hp.clear _ h
    · exact h
  unfold waitIdle
  dsimp only
  generalize resetPoint (engineTurn (if fresh && !s.resetIn then clearPolls s else s)) = u at hP
  split
  · exact .inl ⟨_, rfl, by simpa using ‹(u.resetIn || engineReady u) = true›, hP⟩
  · have hn : u.resetIn = false ∧ engineReady u = false := by simpa using ‹¬(u.resetIn || engineReady u) = true›
    exact .inr ⟨_, rfl, hn.1, hn.2, hP⟩

/-! ### A failed poll -/

/-- A failed poll counts itself; then the operation ends `TIMED_OUT`, or it is held (R158). -/
theorem pollFailed_cases (op : OpName) (i : Instr) (k : Stage) (s : State) :
    pollFailed op i k s = failWith op .timedOut (countPoll s) ∨
    pollFailed op i k s = holdIn i k (countPoll s) := by
  unfold pollFailed
  dsimp only
  split
  · exact .inl rfl
  · exact .inr rfl

/-- With no poll limit a failed poll always holds the operation (R257). -/
theorem pollFailed_unbounded {op : OpName} {i : Instr} {k : Stage} {s : State} (h : waitPollLimit s.cfg = none) :
    pollFailed op i k s = holdIn i k (countPoll s) := by
  simp [pollFailed, lastPoll, h]

/-- The poll that reaches the limit ends the operation (R251). -/
theorem pollFailed_timedOut {op : OpName} {i : Instr} {k : Stage} {s : State} {l : Nat}
    (h : waitPollLimit s.cfg = some l) (hl : l ≤ s.wc + 1) :
    pollFailed op i k s = failWith op .timedOut (countPoll s) := by
  simp [pollFailed, lastPoll, h, hl]

/-- A poll below the limit holds the operation (R158). -/
theorem pollFailed_held {op : OpName} {i : Instr} {k : Stage} {s : State} {l : Nat}
    (h : waitPollLimit s.cfg = some l) (hl : s.wc + 1 < l) :
    pollFailed op i k s = holdIn i k (countPoll s) := by
  have hn : ¬ l ≤ s.wc + 1 := by omega
  simp [pollFailed, lastPoll, h, hn]

/-- Whatever a time-out and a hold also keep, a failed poll keeps. -/
theorem PollKeeps.failed {P : State → Prop} (hp : PollKeeps P) {op : OpName} {i : Instr} {k : Stage}
    (hf : ∀ s, P s → P (failWith op .timedOut s)) (hh : ∀ s, P s → P (holdIn i k s)) (s : State) (h : P s) :
    P (pollFailed op i k s) := by
  obtain e | e := pollFailed_cases op i k s <;> rw [e]
  · exact hf _ (hp.count _ h)
  · exact hh _ (hp.count _ h)

/-! ### A display transaction -/

/-- A property of both ways a run of actions can stand. -/
def Flow.All (P : State → Prop) : Flow → Prop
  | .go s => P s
  | .blocked _ s => P s

theorem Flow.andThen_all {P : State → Prop} {f : Flow} {next : State → Flow} (hf : f.All P)
    (hn : ∀ s, P s → (next s).All P) : (f.andThen next).All P := by
  cases f with
  | go s => exact hn s hf
  | blocked k s => exact hf

theorem PollKeeps.poll_all {P : State → Prop} (hp : PollKeeps P) (k : Stage) (fresh : Bool) (s : State) (h : P s) :
    (waitIdle k fresh s).All P := by
  obtain ⟨t, e, -, ht⟩ | ⟨t, e, -, -, ht⟩ := hp.poll k fresh s h <;> rw [e] <;> exact ht

/-- A display transaction keeps whatever its wire actions, the engine and the polls keep (R219). -/
theorem PollKeeps.frame {P : State → Prop} (hp : PollKeeps P) (ho : ∀ s, P s → P (openTransaction addrByte s))
    (hd : ∀ b s, P s → P (busIssue (.data b) s)) (hc : ∀ s, P s → P (closeTransaction s)) (sel x : Byte) (k : Stage)
    (s : State) (h : P s) : (frame sel x k s).All P := by
  have act : ∀ f : State → State, (∀ s, P s → P (f s)) → ∀ s, P s → P (runActions [f] s) := fun f hf s h =>
    hp.action hf s h
  have h3 : ∀ s, P s → (frameAfterWait3 s).All P := fun s h => act _ hc _ h
  have h2 : ∀ s, P s → (frameAfterWait2 x s).All P := fun s h =>
    Flow.andThen_all (hp.poll_all _ _ _ (act _ (hd x) _ h)) h3
  have h1 : ∀ s, P s → (frameAfterWait1 sel x s).All P := fun s h =>
    Flow.andThen_all (hp.poll_all _ _ _ (act _ (hd sel) _ h)) h2
  cases k with
  | start => exact Flow.andThen_all (hp.poll_all _ _ _ (act _ ho _ h)) h1
  | wait1 => exact Flow.andThen_all (hp.poll_all _ _ _ h) h1
  | wait2 => exact Flow.andThen_all (hp.poll_all _ _ _ h) h2
  | wait3 => exact Flow.andThen_all (hp.poll_all _ _ _ h) h3

/-- On a bus at rest whose engine is granted its steps, a display transaction goes through, and its stop is left to be performed. -/
theorem frame_granted {s : State} {g1 g2 g3 : Nat} {gs : List Nat} (sel x : Byte) (hn : s.noReset) (h : s.engineAtRest)
    (he : s.envGrants = (g1 + 1) :: (g2 + 1) :: (g3 + 1) :: gs) :
    frame sel x .start s =
      .go { s with
        maddr := 0x7C
        mdata := x
        wif := false
        rif := false
        wc := 0
        q := [.stop]
        busState := .busy
        txnOpen := false
        envGrants := gs
        trace := s.trace ++
          [.issueAddr 0x7C, .wStart 0x7C, .issueData sel, .wByte sel, .issueData x, .wByte x, .issueStop] } := by
  obtain ⟨hc, hq, hb⟩ := h
  have hadr : addrByte = 0x7C := by decide
  rw [frame, hadr]
  simp only [runActions_cons, runActions_nil, runAction_rest hn hq]
  rw [waitIdle_addr (s := openTransaction 0x7C s) (a := 0x7C) hn (by simp [hq]) (by simpa using he) (by simpa using hc)]
  simp only [Flow.andThen, frameAfterWait1, runActions_cons, runActions_nil]
  rw [runAction_rest (by exact hn) rfl, waitIdle_data (b := sel) (g := g2) (gs := (g3 + 1) :: gs) (by exact hn) rfl rfl (by simpa using hc) rfl]
  simp only [Flow.andThen, frameAfterWait2, runActions_cons, runActions_nil]
  rw [runAction_rest (by exact hn) rfl, waitIdle_data (b := x) (g := g3) (gs := gs) (by exact hn) rfl rfl (by simpa using hc) rfl]
  simp only [frameAfterWait3, runActions_cons, runActions_nil]
  rw [runAction_rest (by exact hn) rfl]
  simp [closeTransaction, openTransaction, busIssue, issueEvent, hb, startEvent]

/-- The same, with the stop performed at the turn after it (R94, R219). -/
theorem frame_granted_stop {s : State} {g1 g2 g3 g4 : Nat} {gs : List Nat} (sel x : Byte) (hn : s.noReset) (h : s.engineAtRest)
    (he : s.envGrants = (g1 + 1) :: (g2 + 1) :: (g3 + 1) :: (g4 + 1) :: gs) :
    ∃ u, frame sel x .start s = .go u ∧
      engineTurn u =
        { s with
          maddr := 0x7C
          mdata := x
          wif := false
          rif := false
          wc := 0
          txnOpen := false
          envGrants := gs
          trace := s.trace ++ frameEvents sel x } := by
  refine ⟨_, frame_granted sel x hn h he, ?_⟩
  rw [engineTurn_stop (g := g4) (gs := gs) (by simp [h.1]) (by exact hn.1) rfl rfl]
  simp [frameEvents, h.2.1, h.2.2]

end Sys2Proof.Machine
end

