-- ==== Sys2Proof/Laws/PerInstr.lean ====
section
/-! SUPPORT. The one family of statements per instruction: which unit and which function number the encoding of each operation carries (R111). -/

namespace Sys2Proof.Laws.EncodedUnit

/-- The columns unit and fn of R111, of the operations that have a word of their own. -/
def unitAndFn : Instr → Option (BitVec 4 × BitVec 4)
  | .binit _ => some (0x0, 0x1)
  | .start _ => some (0x0, 0x2)
  | .wrb _ => some (0x0, 0x3)
  | .stop => some (0x0, 0x4)
  | .dis => some (0x0, 0x5)
  | .en => some (0x0, 0x6)
  | .wait => some (0x0, 0x7)
  | .brst => some (0x0, 0x8)
  | .dinit => some (0x1, 0x0)
  | .wcmd _ => some (0x1, 0x1)
  | .scur _ => some (0x1, 0x2)
  | .sgly _ => some (0x1, 0x3)
  | .wchr _ => some (0x1, 0x4)
  | .computeDivisor _ _ _ => none
  | .warr _ => none
  | .dwarr _ => none
  | .dwstr _ => none
  | .illegal _ => none

/-- The word of the operation has the unit and the function number of its row. -/
def Statement (i : Instr) : Prop :=
  ∀ u f w, unitAndFn i = some (u, f) → i.encode = some w → w.unit = u ∧ w.fn = f

theorem binit (d : Byte) : Statement (.binit d) := by
  intro u f w hu hw; cases hu; cases hw; exact ⟨commandWord_unit _ _ _, commandWord_fn _ _ _⟩

theorem start (a : Byte) : Statement (.start a) := by
  intro u f w hu hw; cases hu; cases hw; exact ⟨commandWord_unit _ _ _, commandWord_fn _ _ _⟩

theorem wrb (b : Byte) : Statement (.wrb b) := by
  intro u f w hu hw; cases hu; cases hw; exact ⟨commandWord_unit _ _ _, commandWord_fn _ _ _⟩

theorem stop : Statement .stop := by
  intro u f w hu hw; cases hu; cases hw; exact ⟨commandWord_unit _ _ _, commandWord_fn _ _ _⟩

theorem dis : Statement .dis := by
  intro u f w hu hw; cases hu; cases hw; exact ⟨commandWord_unit _ _ _, commandWord_fn _ _ _⟩

theorem en : Statement .en := by
  intro u f w hu hw; cases hu; cases hw; exact ⟨commandWord_unit _ _ _, commandWord_fn _ _ _⟩

theorem wait : Statement .wait := by
  intro u f w hu hw; cases hu; cases hw; exact ⟨commandWord_unit _ _ _, commandWord_fn _ _ _⟩

theorem brst : Statement .brst := by
  intro u f w hu hw; cases hu; cases hw; exact ⟨commandWord_unit _ _ _, commandWord_fn _ _ _⟩

theorem dinit : Statement .dinit := by
  intro u f w hu hw; cases hu; cases hw; exact ⟨commandWord_unit _ _ _, commandWord_fn _ _ _⟩

theorem wcmd (c : Byte) : Statement (.wcmd c) := by
  intro u f w hu hw; cases hu; cases hw; exact ⟨commandWord_unit _ _ _, commandWord_fn _ _ _⟩

theorem scur (o : Byte) : Statement (.scur o) := by
  intro u f w hu hw; cases hu; cases hw; exact ⟨commandWord_unit _ _ _, commandWord_fn _ _ _⟩

theorem sgly (o : Byte) : Statement (.sgly o) := by
  intro u f w hu hw; cases hu; cases hw; exact ⟨commandWord_unit _ _ _, commandWord_fn _ _ _⟩

theorem wchr (b : Byte) : Statement (.wchr b) := by
  intro u f w hu hw; cases hu; cases hw; exact ⟨commandWord_unit _ _ _, commandWord_fn _ _ _⟩

theorem computeDivisor (c t r : Nat) : Statement (.computeDivisor c t r) := by intro _ _ _ hu; cases hu

theorem warr (bs : List Byte) : Statement (.warr bs) := by intro _ _ _ hu; cases hu

theorem dwarr (bs : List Byte) : Statement (.dwarr bs) := by intro _ _ _ hu; cases hu

theorem dwstr (bs : List Byte) : Statement (.dwstr bs) := by intro _ _ _ hu; cases hu

theorem illegal (w : Word) : Statement (.illegal w) := by intro _ _ _ hu; cases hu

end Sys2Proof.Laws.EncodedUnit
end

