-- ==== Sys2Proof/Laws/Recovery.lean ====
section
/-! SUPPORT. What each part of the bus recovery does with the engine off, nothing queued and no reset ahead, said once (R191, R193, R194, R195). -/

namespace Sys2Proof.Machine

/-- One sample of the data line, released by the block (R86). -/
theorem readData_rest {s : State} {b : Bool} {ls : List Bool} (hn : s.noReset) (hq : s.q = []) (hc : s.ctrlEnable = false)
    (hd : s.sda.dir = .input) (he : s.envLines = b :: ls) :
    readData s = (b, { s with envLines := ls, trace := s.trace ++ [.pinRead .sda b] }) := by
  have hp := resetPoint_none hn.1 hn.2
  simp [readData, engineTurn_empty hq, hp, hn.1, pinRead, lineLevel, hc, envLineAt, he, ownLevel, State.pin, hd, lineTaken, emit]

/-- One pulse (R193). -/
theorem pulse_rest {s : State} (hn : s.noReset) (hq : s.q = []) :
    pulse s =
      { s with
        scl := { s.scl with out := true }
        rcInner := s.rcInner + 1
        trace := s.trace ++
          [.pinOut .scl false, .delayUs (halfPeriodUs s.cfg), .pinOut .scl true, .delayUs (halfPeriodUs s.cfg)] } := by
  unfold pulse
  rw [runActions_rest _ _ hq hn (by simp [State.Rests])]
  simp [countPulse, halfPeriod, delayUs, pinWrite, emit, setPin, State.pin]

/-- One pulse and its sample (R193). -/
theorem readData_pulse {s : State} {b : Bool} {ls : List Bool} (hn : s.noReset) (hq : s.q = []) (hc : s.ctrlEnable = false)
    (hd : s.sda.dir = .input) (he : s.envLines = b :: ls) :
    readData (pulse s) =
      (b, { s with
        scl := { s.scl with out := true }
        rcInner := s.rcInner + 1
        envLines := ls
        trace := s.trace ++ pulseEvents (halfPeriodUs s.cfg) b }) := by
  rw [pulse_rest hn hq, readData_rest (by exact hn) (by exact hq) (by exact hc) (by exact hd) (by exact he)]
  simp [pulseEvents]

theorem rcInner_add (x : BitVec 5) (k : Nat) : x + 1 + BitVec.ofNat 5 k = x + BitVec.ofNat 5 (k + 1) := by
  apply BitVec.eq_of_toNat_eq
  simp
  omega

/-- The pulses end at the first high sample (R193). -/
theorem pulseLoop_freed : ∀ (k n : Nat) (s : State) (ls : List Bool), s.noReset → s.q = [] → s.ctrlEnable = false →
    s.sda.dir = .input → k < n → s.envLines = List.replicate k false ++ true :: ls →
    pulseLoop n s =
      { s with
        scl := { s.scl with out := true }
        rcInner := s.rcInner + BitVec.ofNat 5 (k + 1)
        envLines := ls
        trace := s.trace ++ (List.replicate k (pulseEvents (halfPeriodUs s.cfg) false)).flatten ++
          pulseEvents (halfPeriodUs s.cfg) true } := by
  intro k
  induction k with
  | zero =>
    intro n s ls hn hq hc hd hk he
    obtain ⟨n, rfl⟩ : ∃ m, n = m + 1 := ⟨n - 1, by omega⟩
    rw [pulseLoop, readData_pulse hn hq hc hd (by simpa using he)]
    simp
  | succ k ih =>
    intro n s ls hn hq hc hd hk he
    obtain ⟨n, rfl⟩ : ∃ m, n = m + 1 := ⟨n - 1, by omega⟩
    rw [pulseLoop, readData_pulse hn hq hc hd (by simpa [List.replicate_succ] using he)]
    simp only [if_false, Bool.false_eq_true]
    rw [ih n _ ls (by exact hn) (by exact hq) (by exact hc) (by exact hd) (by omega) (by rfl)]
    simp [List.replicate_succ]
    exact rcInner_add _ _

/-- With no high sample all the pulses are made (R193). -/
theorem pulseLoop_held : ∀ (n : Nat) (s : State) (ls : List Bool), s.noReset → s.q = [] → s.ctrlEnable = false →
    s.sda.dir = .input → 0 < n → s.envLines = List.replicate n false ++ ls →
    pulseLoop n s =
      { s with
        scl := { s.scl with out := true }
        rcInner := s.rcInner + BitVec.ofNat 5 n
        envLines := ls
        trace := s.trace ++ (List.replicate n (pulseEvents (halfPeriodUs s.cfg) false)).flatten } := by
  intro n
  induction n with
  | zero => intro s ls _ _ _ _ h; omega
  | succ n ih =>
    intro s ls hnr hq hc hd _ he
    rw [pulseLoop, readData_pulse hnr hq hc hd (by simpa [List.replicate_succ] using he)]
    simp only [if_false, Bool.false_eq_true]
    rcases Nat.eq_zero_or_pos n with rfl | hn
    · simp [pulseLoop]
    rw [ih _ ls (by exact hnr) (by exact hq) (by exact hc) (by exact hd) hn (by rfl)]
    simp [List.replicate_succ]
    exact rcInner_add _ _

/-- Step 1, and `RC.OUTER <- 0` (R191, R192). -/
theorem recoveryStep1_rest {s : State} (hn : s.noReset) (hq : s.q = []) :
    runActions [clearOuter] (recoveryStep1 s) =
      { s with
        ctrlEnable := false
        txnOpen := false
        rcOuter := 0
        sda := { s.sda with dir := .input, pu := true }
        scl := { s.scl with dir := .input, pu := true }
        trace := s.trace ++ recoveryStep1Events } := by
  unfold recoveryStep1
  rw [← runActions_append, runActions_rest _ _ hq hn (by simp [State.Rests])]
  simp [clearOuter, disableEngine, pinSetPullup, pinSetDirection, emit, setPin, State.pin, recoveryStep1Events, hq]

/-- Step 3 (R195). -/
theorem recoveryStep3_rest {s : State} (hn : s.noReset) (hq : s.q = []) :
    runActions (enableActions ++ [busResetDone]) s =
      { s with
        ctrlEnable := true
        busState := .idle
        busReset := true
        sda := { s.sda with dir := .input }
        scl := { s.scl with dir := .input }
        trace := s.trace ++ recoveryStep3Events } := by
  rw [runActions_rest _ _ hq hn (by simp [State.Rests, enableActions])]
  simp [enableActions, enableEngine, forceIdle, busResetDone, pinSetDirection, emit, setPin, State.pin, recoveryStep3Events]

/-- What comes before the pulses (R193). -/
theorem pulsesBegin_rest {s : State} (hn : s.noReset) (hq : s.q = []) :
    runActions [pinWrite .scl true, pinSetDirection .scl .output, clearInner] s =
      { s with
        scl := { s.scl with dir := .output, out := true }
        rcInner := 0
        trace := s.trace ++ [.pinOut .scl true, .pinDir .scl .output] } := by
  rw [runActions_rest _ _ hq hn (by simp [State.Rests])]
  simp [clearInner, pinWrite, pinSetDirection, emit, setPin, State.pin]

/-- The manual stop, and the attempt counted (R194, R192). -/
theorem manualStop_rest {s : State} (hn : s.noReset) (hq : s.q = []) :
    runActions [countAttempt] (manualStop s) =
      { s with
        scl := { s.scl with out := true }
        sda := { s.sda with dir := .input, out := false }
        rcOuter := s.rcOuter + 1
        trace := s.trace ++ manualStopEvents (halfPeriodUs s.cfg) } := by
  unfold manualStop
  rw [← runActions_append, runActions_rest _ _ hq hn (by simp [State.Rests, halfPeriod])]
  simp [countAttempt, halfPeriod, delayUs, pinWrite, pinSetDirection, emit, setPin, State.pin, manualStopEvents]

end Sys2Proof.Machine
end

