-- ==== Sys2Proof/Laws/Rom.lean ====
section
/-! SUPPORT. `INIT_ROM` listed as cells: its length, and its canonical form. No operation writes it (R72). -/

namespace Sys2Proof.Machine

theorem romCells_length (a : Nat) (es : List InitEntry) : (romCells a es).length = 2 * es.length := by
  induction es generalizing a with
  | nil => rfl
  | cons e es ih => simp [romCells, ih]; omega

/-- The listing of a table is in canonical form from any address on. -/
theorem romCells_wf (a : Nat) (es : List InitEntry) : romWf (romCells a es) = true := by
  induction es generalizing a with
  | nil => rfl
  | cons e es ih =>
    cases es with
    | nil => simp [romCells, romWf]
    | cons f fs =>
      have h := ih (a + 2)
      simp only [romCells, romWf] at h ⊢
      simpa using h

end Sys2Proof.Machine
end

