-- ==== Sys2Proof/Laws/Step.lean ====
section
/-! SUPPORT. What a step can do, said once: the kinds of step, and that a property which every primitive keeps is kept by every operation and by every step but a reset. -/

namespace Sys2Proof.Machine

/-! ### The kinds of step -/

/-- A step that answers: a reset, a held operation going on, waiting for a command, an operation begun by word or by name, or a
register read. -/
theorem step_cases {s t : State} (h : step s = .next t) :
    (s.resetIn = true ∧ t = resetEvent s) ∨
    (s.resetIn = false ∧ ∃ i k, s.seq = .waiting i k ∧ exec i s = .next t) ∨
    (s.resetIn = false ∧ s.seq = .idle ∧ s.host = [] ∧ ∃ u, (u = s ∨ u = grantTaken s) ∧
      t = resetPoint (engineTurn u)) ∨
    (s.resetIn = false ∧ s.seq = .idle ∧ ∃ w rest, s.host = .word w :: rest ∧
      exec (decode w) { s with host := rest } = .next t) ∨
    (s.resetIn = false ∧ s.seq = .idle ∧ ∃ i rest, s.host = .call i :: rest ∧ i.wellFormed = true ∧
      exec i { s with host := rest } = .next t) ∨
    (s.resetIn = false ∧ s.seq = .idle ∧ ∃ n rest u, s.host = .read n :: rest ∧
      (u = { s with host := rest } ∨ u = grantTaken { s with host := rest }) ∧ t = runActions [hostRead n] u) := by
  unfold step at h
  split at h
  · cases h; exact .inl ⟨‹_›, rfl⟩
  · have hr := Bool.eq_false_iff.mpr ‹_›
    split at h
    · exact .inr (.inl ⟨hr, _, _, ‹_›, h⟩)
    · have hs := ‹s.seq = .idle›
      unfold fetch at h
      split at h
      · have hh := ‹s.host = []›
        refine .inr (.inr (.inl ⟨hr, hs, hh, ?_⟩))
        obtain ⟨-, e⟩ | ⟨-, e⟩ := engineGate_next h <;> cases e
        · exact ⟨_, .inl rfl, rfl⟩
        · exact ⟨_, .inr rfl, rfl⟩
      · rename_i r rest hh
        cases r with
        | word w => exact .inr (.inr (.inr (.inl ⟨hr, hs, w, rest, hh, h⟩)))
        | call i =>
          simp only [serve] at h
          split at h
          · exact .inr (.inr (.inr (.inr (.inl ⟨hr, hs, i, rest, hh, ‹_›, h⟩))))
          · cases h
        | read n =>
          simp only [serve] at h
          obtain ⟨-, e⟩ | ⟨-, e⟩ := engineGate_next h <;> cases e
          · exact .inr (.inr (.inr (.inr (.inr ⟨hr, hs, n, rest, _, hh, .inl rfl, rfl⟩))))
          · exact .inr (.inr (.inr (.inr (.inr ⟨hr, hs, n, rest, _, hh, .inr rfl, rfl⟩))))

/-! ### What every primitive keeps -/

/-- What every primitive of the sequencer, every engine step and every answer of the environment keeps. -/
structure StepKeeps (P : State → Prop) : Prop extends PollKeeps P where
  contract : ∀ i s, P s → P (recordContract i s)
  hold : ∀ i k s, P s → P (holdIn i k s)
  done : ∀ op s, P s → P (doneWith op s)
  fail : ∀ op c s, P s → P (failWith op c s)
  issueStart : ∀ a s, P s → P (openTransaction a s)
  issueData : ∀ b s, P s → P (busIssue (.data b) s)
  issueStop : ∀ s, P s → P (closeTransaction s)
  divisor : ∀ d s, P s → P (setDivisor d s)
  enable : ∀ s, P s → P (enableEngine s)
  clearFlags : ∀ s, P s → P (clearFlags s)
  forceIdle : ∀ s, P s → P (forceIdle s)
  binitGhost : ∀ s, P s → P (binitGhost s)
  disable : ∀ s, P s → P (disableEngine s)
  pinDir : ∀ p d s, P s → P (pinSetDirection p d s)
  pinOut : ∀ p l s, P s → P (pinWrite p l s)
  pinPu : ∀ p e s, P s → P (pinSetPullup p e s)
  pinRead : ∀ p s, P s → P (pinRead p s).2
  delayUs : ∀ n s, P s → P (delayUs n s)
  delayMs : ∀ n s, P s → P (delayMs n s)
  inner : ∀ n s, P s → P { s with rcInner := n }
  outer : ∀ n s, P s → P { s with rcOuter := n }
  busReset : ∀ s, P s → P (busResetDone s)
  mode : ∀ m s, P s → P (setMode m s)
  drawMode : ∀ s, P s → P (drawMode s)
  beginInit : ∀ s, P s → P (beginInit s)
  nextEntry : ∀ s, P s → P (nextEntry s)
  endInit : ∀ s, P s → P (endInit s)
  answer : ∀ a s, P s → P (giveAnswer a s)
  host : ∀ rs s, P s → P { s with host := rs }
  read : ∀ n s, P s → P (hostRead n s)

variable {P : State → Prop}

theorem StepKeeps.act (hk : StepKeeps P) {f : State → State} (hf : ∀ s, P s → P (f s)) (s : State) (h : P s) :
    P (runActions [f] s) := hk.action hf s h

theorem StepKeeps.pollFailed (hk : StepKeeps P) (op : OpName) (i : Instr) (k : Stage) (s : State) (h : P s) :
    P (pollFailed op i k s) := hk.toPollKeeps.failed (hk.fail _ _) (hk.hold _ _) s h

theorem StepKeeps.display (hk : StepKeeps P) (sel x : Byte) (k : Stage) (s : State) (h : P s) :
    (Machine.frame sel x k s).All P :=
  hk.toPollKeeps.frame (hk.issueStart _) hk.issueData hk.issueStop sel x k s h

/-- Taking up an operation keeps it, and hands it to the body. -/
theorem StepKeeps.enter (hk : StepKeeps P) {i : Instr} {body : Stage → State → Out} {s t : State}
    (hb : ∀ k u, P u → body k u = .next t → P t) (h : P s) (he : enter i s body = .next t) : P t := by
  obtain ⟨k, u₀, u, hbody, hu, ⟨-, -, rfl⟩ | ⟨-, rfl⟩⟩ := enter_next he <;> obtain rfl | rfl := hu
  · exact hb _ _ (hk.contract _ _ h) hbody
  · exact hb _ _ (hk.grant _ (hk.contract _ _ h)) hbody
  · exact hb _ _ h hbody
  · exact hb _ _ (hk.grant _ h) hbody

theorem StepKeeps.writeByte (hk : StepKeeps P) {b : Byte} {i : Instr} {k : Stage} {s t : State} {next : State → Out}
    (hn : ∀ u, P u → next u = .next t → P t) (h : P s) (he : writeByte b i k s next = .next t) : P t := by
  unfold Machine.writeByte at he
  obtain ⟨u, e, -, hu⟩ | ⟨u, e, -, -, hu⟩ := hk.poll .wait1 (decide (k = .start)) s h <;> rw [e] at he
  · simp only at he
    split at he
    · exact hn _ (hk.action (hk.done _) _ (hk.action (hk.issueData _) _ hu)) he
    · cases he
  · cases he; exact hk.pollFailed _ _ _ _ hu

theorem StepKeeps.framer (hk : StepKeeps P) {op : OpName} {i : Instr} {sel x : Byte} {f g : State → State}
    (hf : ∀ s, P s → P (f s)) (hg : ∀ s, P s → P (g s)) (k : Stage) (s : State) (h : P s) :
    P (framerOp op i sel x f g k s) := by
  unfold framerOp
  have hs : P (if k = .start then f s else s) := by
    split
    · exact hf _ h
    · exact h
  have hd := hk.display sel x k _ hs
  cases e : Machine.frame sel x k (if k = .start then f s else s) with
  | go u =>
    rw [e] at hd
    exact hk.action (hk.done _) _ (hk.action hg _ hd)
  | blocked j u =>
    rw [e] at hd
    exact hk.pollFailed _ _ _ _ hd

theorem StepKeeps.initSteps (hk : StepKeeps P) : ∀ es k s, P s → P (initSteps es k s) := by
  intro es
  induction es with
  | nil => intro k s h; exact hk.action (hk.done _) _ (hk.action hk.endInit _ h)
  | cons e es ih =>
    intro k s h
    cases e with
    | wait v => exact ih _ _ (hk.action hk.nextEntry _ (hk.action (hk.delayMs _) _ h))
    | command v =>
      rw [Machine.initSteps]
      have hd := hk.display selCommand v k s h
      cases e : Machine.frame selCommand v k s with
      | go u =>
        rw [e] at hd
        exact ih _ _ (hk.action hk.nextEntry _ (hk.action (hk.delayUs _) _ hd))
      | blocked j u =>
        rw [e] at hd
        exact hk.pollFailed _ _ _ _ hd

theorem StepKeeps.wchrSteps (hk : StepKeeps P) (rest : List Byte → Instr) : ∀ bs k s, P s → P (wchrSteps rest bs k s) := by
  intro bs
  induction bs with
  | nil => intro k s h; exact h
  | cons b bs ih =>
    intro k s h
    rw [Machine.wchrSteps]
    have hd := hk.display selData b k s h
    cases e : Machine.frame selData b k s with
    | go u => rw [e] at hd; exact ih _ _ (hk.action (hk.done _) _ hd)
    | blocked j u => rw [e] at hd; exact hk.pollFailed _ _ _ _ hd

theorem StepKeeps.warrSteps (hk : StepKeeps P) : ∀ bs k s t, P s → warrSteps bs k s = .next t → P t := by
  intro bs
  induction bs with
  | nil => intro k s t h e; cases e; exact h
  | cons b bs ih => intro k s t h e; exact hk.writeByte (fun u hu e => ih _ _ _ hu e) h e

theorem StepKeeps.read_data (hk : StepKeeps P) (s : State) (h : P s) : P (readData s).2 := by
  have hu : P (resetPoint (engineTurn s)) := hk.point _ (hk.turn _ h)
  unfold readData
  dsimp only
  split
  · exact hu
  · exact hk.pinRead _ _ hu

theorem StepKeeps.pulse (hk : StepKeeps P) (s : State) (h : P s) : P (pulse s) := by
  unfold Machine.pulse
  refine hk.actions _ ?_ _ h
  simp only [List.forall_mem_cons]
  exact ⟨hk.pinOut _ _, fun s => hk.delayUs _ s, hk.pinOut _ _, fun s => hk.delayUs _ s, fun s => hk.inner _ s, by simp⟩

theorem StepKeeps.pulseLoop (hk : StepKeeps P) : ∀ n s, P s → P (pulseLoop n s) := by
  intro n
  induction n with
  | zero => intro s h; exact h
  | succ n ih =>
    intro s h
    rw [Machine.pulseLoop]
    split
    · exact hk.read_data _ (hk.pulse _ h)
    · exact ih _ (hk.read_data _ (hk.pulse _ h))

/-- One attempt of the recovery, its count included (R193, R194). -/
theorem StepKeeps.attempt (hk : StepKeeps P) (s : State) (h : P s) :
    P (runActions [countAttempt] (manualStop (pulses s))) := by
  have h1 : P (pulses s) := by
    unfold pulses
    refine hk.pulseLoop _ _ (hk.actions _ ?_ _ h)
    simp only [List.forall_mem_cons]
    exact ⟨hk.pinOut _ _, hk.pinDir _ _, hk.inner _, by simp⟩
  have h2 : P (manualStop (pulses s)) := by
    unfold manualStop
    refine hk.actions _ ?_ _ h1
    simp only [List.forall_mem_cons]
    exact ⟨hk.pinOut _ _, fun s => hk.delayUs _ s, hk.pinOut _ _, hk.pinDir _ _, fun s => hk.delayUs _ s, hk.pinOut _ _,
      fun s => hk.delayUs _ s, hk.pinDir _ _, fun s => hk.delayUs _ s, by simp⟩
  exact hk.act (f := countAttempt) (fun s => hk.outer _ s) _ h2

theorem StepKeeps.attemptLoop (hk : StepKeeps P) : ∀ n s, P s → P (attemptLoop n s).2 := by
  intro n
  induction n with
  | zero => intro s h; exact h
  | succ n ih =>
    intro s h
    rw [Machine.attemptLoop]
    split
    · exact hk.read_data _ h
    · exact ih _ (hk.attempt _ (hk.read_data _ h))

theorem StepKeeps.enableActions (hk : StepKeeps P) : ∀ act ∈ enableActions, ∀ s, P s → P (act s) := by
  simp only [Machine.enableActions, List.forall_mem_cons]
  exact ⟨hk.enable, hk.pinDir _ _, hk.pinDir _ _, hk.forceIdle, by simp⟩

theorem StepKeeps.recover (hk : StepKeeps P) (s : State) (h : P s) : P (recover s) := by
  unfold Machine.recover
  have h1 : P (recoveryStep1 s) := by
    unfold recoveryStep1
    refine hk.actions _ ?_ _ h
    simp only [List.forall_mem_cons]
    exact ⟨hk.disable, hk.pinPu _ _, hk.pinPu _ _, hk.pinDir _ _, hk.pinDir _ _, by simp⟩
  have h2 := hk.attemptLoop recoveryOuterMax _ (hk.act (f := clearOuter) (hk.outer _) _ h1)
  refine hk.act ?_ _ (hk.actions _ ?_ _ h2)
  · split
    · exact hk.done _
    · exact hk.fail _ _
  · intro act hm
    rcases List.mem_append.mp hm with hm | hm
    · exact hk.enableActions act hm
    · rw [List.mem_singleton.mp hm]; exact hk.busReset

/-- Every operation keeps it. -/
theorem StepKeeps.exec (hk : StepKeeps P) {i : Instr} {s t : State} (h : P s) (he : exec i s = .next t) : P t := by
  cases i with
  | binit d =>
    simp only [Machine.exec, execBinit] at he
    refine hk.enter (fun k u hu e => ?_) h he
    cases e
    refine hk.actions _ ?_ _ hu
    simp only [List.forall_mem_cons]
    exact ⟨hk.divisor _, hk.enable, hk.clearFlags, hk.forceIdle, hk.binitGhost, hk.done _, by simp⟩
  | start a =>
    simp only [Machine.exec, execStart] at he
    refine hk.enter (fun k u hu e => ?_) h he
    cases e
    exact hk.action (hk.done _) _ (hk.action (hk.issueStart _) _ hu)
  | wrb b =>
    simp only [Machine.exec, execWrb] at he
    exact hk.enter (fun k u hu e => hk.writeByte (fun v hv e => by cases e; exact hv) hu e) h he
  | stop =>
    simp only [Machine.exec, execStop] at he
    refine hk.enter (fun k u hu e => ?_) h he
    obtain ⟨v, e', -, hv⟩ | ⟨v, e', -, -, hv⟩ := hk.poll .wait1 (decide (k = .start)) u hu <;> simp only [e'] at e
    · split at e
      · cases e; exact hk.action (hk.done _) _ (hk.action hk.issueStop _ hv)
      · cases e
    · cases e; exact hk.pollFailed _ _ _ _ hv
  | dis =>
    simp only [Machine.exec, execDis] at he
    refine hk.enter (fun k u hu e => ?_) h he
    cases e
    exact hk.action (hk.done _) _ (hk.action hk.disable _ hu)
  | en =>
    simp only [Machine.exec, execEn] at he
    refine hk.enter (fun k u hu e => ?_) h he
    cases e
    rw [runActions_append]
    exact hk.act (hk.done _) _ (hk.actions _ hk.enableActions _ hu)
  | wait =>
    simp only [Machine.exec, execWait] at he
    refine hk.enter (fun k u hu e => ?_) h he
    obtain ⟨v, e', -, hv⟩ | ⟨v, e', -, -, hv⟩ := hk.poll .wait1 (decide (k = .start)) u hu <;> simp only [e'] at e
    · cases e; exact hk.action (hk.done _) _ hv
    · cases e; exact hk.pollFailed _ _ _ _ hv
  | brst =>
    simp only [Machine.exec, execBrst] at he
    exact hk.enter (fun k u hu e => Host.Outcome.next.inj e ▸ hk.recover _ hu) h he
  | dinit =>
    simp only [Machine.exec, execDinit] at he
    refine hk.enter (fun k u hu e => ?_) h he
    cases k <;> simp only at e
    case start => cases e; exact hk.initSteps _ _ _ (hk.act hk.beginInit _ hu)
    all_goals
      split at e
      · cases e; exact hk.initSteps _ _ _ hu
      · cases e
  | wcmd c =>
    simp only [Machine.exec, execWcmd] at he
    have hm : ∀ s, P s → P (modeAfterCommand c s) := fun s h => by
      unfold modeAfterCommand; split
      · exact hk.drawMode _ h
      · exact h
    exact hk.enter (fun k u hu e => by cases e; exact hk.framer hm (fun _ h => h) _ _ hu) h he
  | scur o =>
    simp only [Machine.exec, execScur] at he
    exact hk.enter (fun k u hu e => by cases e; exact hk.framer hk.drawMode (hk.mode _) _ _ hu) h he
  | sgly o =>
    simp only [Machine.exec, execSgly] at he
    exact hk.enter (fun k u hu e => by cases e; exact hk.framer hk.drawMode (hk.mode _) _ _ hu) h he
  | wchr b =>
    simp only [Machine.exec, execWchr] at he
    exact hk.enter (fun k u hu e => by cases e; exact hk.framer (fun _ h => h) (fun _ h => h) _ _ hu) h he
  | computeDivisor c t r =>
    simp only [Machine.exec, execComputeDivisor] at he
    exact hk.enter (fun k u hu e => by cases e; exact hk.action (hk.answer _) _ hu) h he
  | warr bs =>
    simp only [Machine.exec, execWarr] at he
    exact hk.enter (fun k u hu e => hk.warrSteps _ _ _ _ hu e) h he
  | dwarr bs =>
    simp only [Machine.exec, execDwarr] at he
    exact hk.enter (fun k u hu e => by cases e; exact hk.wchrSteps _ _ _ _ hu) h he
  | dwstr bs =>
    simp only [Machine.exec, execDwstr] at he
    split at he
    · exact hk.enter (fun k u hu e => by cases e; exact hk.wchrSteps _ _ _ _ hu) h he
    · cases he
  | illegal w =>
    simp only [Machine.exec, execIllegal] at he
    exact hk.enter (fun k u hu e => by cases e; exact hk.action (hk.fail _ _) _ hu) h he


/-- Every step but a reset keeps it. -/
theorem StepKeeps.step (hk : StepKeeps P) {s t : State} (hr : s.resetIn = false) (h : P s) (he : step s = .next t) : P t := by
  obtain ⟨e, -⟩ | ⟨-, i, k, -, e⟩ | ⟨-, -, -, u, rfl | rfl, rfl⟩ | ⟨-, -, w, rest, -, e⟩ | ⟨-, -, i, rest, -, -, e⟩ |
    ⟨-, -, n, rest, u, -, rfl | rfl, rfl⟩ := step_cases he
  · rw [hr] at e; cases e
  · exact hk.exec h e
  · exact hk.point _ (hk.turn _ h)
  · exact hk.point _ (hk.turn _ (hk.grant _ h))
  · exact hk.exec (hk.host _ _ h) e
  · exact hk.exec (hk.host _ _ h) e
  · exact hk.act (hk.read n) _ (hk.host _ _ h)
  · exact hk.act (hk.read n) _ (hk.grant _ (hk.host _ _ h))

end Sys2Proof.Machine
end

