-- ==== Sys2Proof/Tests/Slice0.lean ====
section
/-! SUPPORT. Tests of single steps, with the expected values of 95_test_vectors.md (the vector is named at each), and a witness for the hypotheses of every statement. -/

namespace Sys2Proof.Tests

open Sys2Proof.Machine

/-! ### Well-formedness -/

theorem test_wf_refuses_legal_word_as_illegal : (Instr.illegal 0x0400).wellFormed = false := by decide
theorem test_wf_admits_reserved_word : (Instr.illegal 0x0401).wellFormed = true := by decide
theorem test_wf_refuses_string_without_terminator : (Instr.dwstr [0x41, 0x42]).wellFormed = false := by decide
theorem test_wf_admits_string : (Instr.dwstr [0x41, 0x00]).wellFormed = true := by decide

/-! ### Decoding: words written out from the fields of R110 and R111 (V40) -/

theorem test_decode_binit : decode 0b0000_0001_01011111 = .binit 0x5F := by decide
theorem test_decode_start : decode 0b0000_0010_01111100 = .start 0x7C := by decide
theorem test_decode_start_read : decode 0b0000_0010_01111101 = .start 0x7D := by decide
theorem test_decode_wrb : decode 0b0000_0011_10100101 = .wrb 0xA5 := by decide
theorem test_decode_stop : decode 0b0000_0100_00000000 = .stop := by decide
theorem test_decode_dis : decode 0b0000_0101_00000000 = .dis := by decide
theorem test_decode_en : decode 0b0000_0110_00000000 = .en := by decide
theorem test_decode_wait : decode 0b0000_0111_00000000 = .wait := by decide
theorem test_decode_brst : decode 0b0000_1000_00000000 = .brst := by decide
theorem test_decode_dinit : decode 0b0001_0000_00000000 = .dinit := by decide
theorem test_decode_wcmd : decode 0b0001_0001_11111111 = .wcmd 0xFF := by decide
theorem test_decode_scur : decode 0b0001_0010_01000000 = .scur 0x40 := by decide
theorem test_decode_sgly : decode 0b0001_0011_00010000 = .sgly 0x10 := by decide
theorem test_decode_wchr : decode 0b0001_0100_01000001 = .wchr 0x41 := by decide
theorem test_decode_illegal_imm : decode 0x08FF = .illegal 0x08FF := by decide
theorem test_decode_illegal_dinit_imm : decode 0x1001 = .illegal 0x1001 := by decide
theorem test_decode_illegal_fn : decode 0x0F00 = .illegal 0x0F00 ∧ decode 0x1F00 = .illegal 0x1F00 := by decide
theorem test_decode_illegal_unit : decode 0x2000 = .illegal 0x2000 ∧ decode 0xFFFF = .illegal 0xFFFF := by decide
theorem test_decode_raw_too_long : decodeTableWord 24 0x015F = none := by decide
theorem test_decode_raw : decodeTableWord 16 0x015F = some (.binit 0x5F) := by decide
theorem test_words_dwstr : (Instr.dwstr [0x41, 0x00, 0x42, 0x00]).words = [0x1441] := by decide
theorem test_words_dwarr : (Instr.dwarr [0x41, 0x00, 0x42]).words = [0x1441, 0x1400, 0x1442] := by decide
theorem test_words_warr : (Instr.warr [0x00, 0x38]).words = [0x0300, 0x0338] := by decide

/-! ### A small state -/

/-- The configuration of P1 and P2, with the table `TV` of V30 and a poll limit. -/
def cfgWith (limit : Option Nat) : Config where
  divisorCfg := 0x5F
  halfPeriodOver25 := 25
  pollLimitPred := limit.map (· - 1)
  initMiddle := [.command 0x38, .command 0x0C, .wait 2]
  cursorBase := 0x80
  glyphBase := 0x40
  cursorOffsetMax := 0x67
  displayFollows := true

/-- Reset, with a known configuration, a known bus-state flag and a known display. -/
def atReset : State :=
  { State.reset with cfg := cfgWith none, busState := .idle, dispPhase := .uninit, dispMode := .cursor }

/-- After `BINIT 0x5F ; BRST`, the trace left out. -/
def afterBrst : State := { atReset with divisor := 0x5F, ctrlEnable := true, bmInited := true, busReset := true }

/-- Brought up: after `DINIT` as well. -/
def up : State := { afterBrst with phase := .ready, dcIp := 5 }

/-- Inside a transaction whose address has been performed (V12). -/
def inTransaction : State :=
  { afterBrst with maddr := 0x7C, wif := true, busState := .busy, txnOpen := true }

/-- A part of the next state; nothing where there is none. -/
def nextOf {α : Type} (o : Out) (f : State → α) : Option α :=
  match o with
  | .next t => some (f t)
  | .fault _ => none
  | .refused _ => none

/-- Why there is no next state. -/
def refusedOf (o : Out) : Option Refusal :=
  match o with
  | .refused r => some r
  | _ => none

/-! ### One step of each operation -/

/-- V11. -/
theorem test_binit :
    nextOf (exec (.binit 0x5F) atReset) (fun t => (t.trace, t.divisor, t.ctrlEnable, t.bmInited)) =
      some ([.setDivisor 0x5F, .enable, .clearFlags, .forceIdle, .done .binit .ok], 0x5F, true, true) := by decide

/-- V12. -/
theorem test_start :
    nextOf (exec (.start 0x7C) { afterBrst with envGrants := [0] })
      (fun t => (t.trace, t.maddr, readReg t 2, t.q, t.txnOpen)) =
      some ([.issueAddr 0x7C, .done .start .ok], 0x7C, 0x00, [.addr 0x7C], true) := by decide

/-- R154, U4: a nested start is sent as a repeated start. -/
theorem test_start_nested :
    nextOf (exec (.start 0x7C) { inTransaction with envGrants := [1] }) (fun t => (t.trace, t.violated)) =
      some ([.issueAddr 0x7C, .wRstart 0x7C, .done .start .ok], true) := by decide

/-- V12. -/
theorem test_wrb :
    nextOf (exec (.wrb 0x40) { inTransaction with envGrants := [0] }) (fun t => (t.trace, t.mdata, readReg t 2, t.q)) =
      some ([.issueData 0x40, .done .wrb .ok], 0x40, 0x01, [.data 0x40]) := by decide

/-- U1. -/
theorem test_wrb_without_transaction :
    refusedOf (exec (.wrb 0x40) { inTransaction with txnOpen := false }) = some .byteWithoutTransaction := by decide

/-- V12. -/
theorem test_stop :
    nextOf (exec .stop { inTransaction with envGrants := [0] }) (fun t => (t.trace, readReg t 2, t.q, t.txnOpen)) =
      some ([.issueStop, .done .stop .ok], 0x01, [.stop], false) := by decide

/-- V13. -/
theorem test_stop_waits_for_address :
    nextOf (exec .stop { afterBrst with q := [.addr 0x7C], txnOpen := true, envGrants := [1, 1] }) (·.trace) =
      some [.wStart 0x7C, .issueStop, .wStop, .done .stop .ok] := by decide

/-- V14 (a), (b): the flags stay set. -/
theorem test_wait :
    nextOf (exec .wait { afterBrst with q := [.addr 0x7C], txnOpen := true, envGrants := [1] })
      (fun t => (t.trace, readReg t 2)) =
      some ([.wStart 0x7C, .done .wait .ok], 0x03) := by decide

/-- V14 (c): the fourth poll of four ends the wait. -/
theorem test_wait_times_out :
    nextOf (exec .wait { afterBrst with cfg := cfgWith (some 4), q := [.addr 0x7C], txnOpen := true, wc := 3,
                                        seq := .waiting .wait .wait1, envGrants := [0] })
      (fun t => (t.trace, t.wc, t.result, t.faults, t.q)) =
      some ([.done .wait .timedOut], 4, .timedOut, 0b001, [.addr 0x7C]) := by decide

/-- R262: the earlier action is not performed by a poll that times out, though the engine would be granted right after it. -/
theorem test_time_out_leaves_queue :
    nextOf (exec (.wrb 0x40) { afterBrst with cfg := cfgWith (some 1), q := [.addr 0x7C], txnOpen := true, envGrants := [0, 1] })
      (fun t => (t.trace, t.q, readReg t 2, t.envGrants)) =
      some ([.done .wrb .timedOut], [.addr 0x7C], 0x00, [1]) := by decide

/-- V12: the engine performs the start between two reads of `STATUS`. -/
theorem test_engine_between_reads :
    let s := { afterBrst with maddr := 0x7C, q := [.addr 0x7C], txnOpen := true, envGrants := [0, 1],
                              host := [.read 2, .read 2] }
    nextOf (step s) (·.answer) = some (.register 2 0x00) ∧
    (nextOf (step s) step).bind (nextOf · (fun t => (t.answer, t.trace))) =
      some (.register 2 0x03, [.wStart 0x7C]) := by decide

/-- R290: a reset after the third action of `BINIT`, then the reset event. -/
theorem test_reset_inside_binit :
    nextOf (exec (.binit 0x5F) { atReset with envResets := [3] }) (fun t => (t.trace, t.bmInited, t.resetIn)) =
      some ([.setDivisor 0x5F, .enable, .clearFlags], false, true) ∧
    (nextOf (exec (.binit 0x5F) { atReset with envResets := [3] }) step).bind
      (nextOf · (fun t => (t.trace, t.divisor, t.ctrlEnable, t.resetIn))) = some ([], 0x00, false, false) := by decide

/-- R290, R190: a reset inside `BRST`, at the read of the data line, which is then not made. -/
theorem test_reset_inside_brst :
    nextOf (exec .brst { afterBrst with envResets := [6], envLines := [true] })
      (fun t => (t.trace, t.ctrlEnable, t.resetIn, t.envLines)) =
      some ([.disable, .pinPu .sda true, .pinPu .scl true, .pinDir .sda .input, .pinDir .scl .input], false, true, [true]) := by
  decide +kernel

/-- R13: a half-period that is not given is 50. -/
theorem test_default_half_period :
    (buildConfig { cpuHz := 20000000, busHz := 100000, riseNs := 0, pollLimit := none, table := [(1, 0x32), (0, 0x01)],
                   cursorBase := 0x80, glyphBase := 0x40, cursorOffsetMax := 0x67, displayFollows := true }).toOption.map
      halfPeriodUs = some 50 ∧ halfPeriodUs (default : Config) = 50 := by decide +kernel

/-- R216, R215, R156: a string or an array with nothing to send before `READY` is a violation all the same; an empty `WARR` is not. -/
theorem test_empty_string_requires_ready :
    nextOf (exec (.dwstr [0x00]) afterBrst) (fun t => (t.trace, t.violated)) = some ([], true) ∧
    nextOf (exec (.dwarr []) afterBrst) (fun t => (t.trace, t.violated)) = some ([], true) ∧
    nextOf (exec (.dwstr [0x00]) up) (·.violated) = some false ∧
    nextOf (exec (.warr []) afterBrst) (fun t => (t.trace, t.violated)) = some ([], false) := by decide

/-- R27: the first draws after reset are not those of reset. -/
theorem test_draws_after_reset_are_fresh :
    State.reset.dispMode = Config.freeMode 0 ∧ (drawMode State.reset).dispMode = Config.freeMode 1 ∧
      (resetEvent State.reset).busState = Config.freeBusState 1 := ⟨rfl, rfl, rfl⟩

/-- V15. -/
theorem test_dis :
    nextOf (exec .dis { up with q := [.stop], envGrants := [0] }) (fun t => (t.trace, readReg t 0, t.q)) =
      some ([.disable, .done .dis .ok], 0x00, []) := by decide

/-- V15. -/
theorem test_en :
    nextOf (exec .en { up with ctrlEnable := false, busState := .busy }) (fun t => (t.trace, readReg t 0, t.busState)) =
      some ([.enable, .pinDir .sda .input, .pinDir .scl .input, .forceIdle, .done .en .ok], 0x01, .idle) := by decide

/-- V20, with `PINCTL` as the lines read when both are high. -/
theorem test_brst_free :
    nextOf (exec .brst { afterBrst with envLines := [true, true, true] })
      (fun t => (t.trace, readReg t 9, t.rcOuter, t.result)) =
      some ([.disable, .pinPu .sda true, .pinPu .scl true, .pinDir .sda .input, .pinDir .scl .input, .pinRead .sda true,
             .enable, .pinDir .sda .input, .pinDir .scl .input, .forceIdle, .done .brst .ok], 0xCC, 0, .ok) := by decide +kernel

/-- V21 with K = 1. -/
theorem test_brst_one_pulse :
    nextOf (exec .brst { afterBrst with envLines := [false, true, true, true, true] })
      (fun t => (t.trace.length, t.trace.drop 8 |>.take 5, readReg t 9, t.rcOuter, t.rcInner)) =
      some (28, [.pinOut .scl false, .delayUs 50, .pinOut .scl true, .delayUs 50, .pinRead .sda true], 0xEC, 1, 1) := by
  decide +kernel

/-- V30, the engine kept up with. -/
theorem test_dinit :
    nextOf (exec .dinit { afterBrst with envGrants := List.replicate 12 1 })
      (fun t => (t.trace.length, t.trace.take 4, readReg t 7, t.mdata, readReg t 2)) =
      some (30, [.delayMs 50, .issueAddr 0x7C, .wStart 0x7C, .issueData 0x00], 0x0502, 0x01, 0x00) := by decide +kernel

/-- V31: the time-out at entry 2 (the third poll before it is in `WC`). -/
theorem test_dinit_times_out :
    nextOf (exec .dinit { afterBrst with cfg := cfgWith (some 1), envGrants := [1, 1, 1, 1, 0] })
      (fun t => (readReg t 7, t.result, t.q, t.txnOpen, t.mdata)) =
      some (0x0201, .timedOut, [.addr 0x7C], true, 0x38) := by decide +kernel

/-- V3. -/
theorem test_wcmd :
    nextOf (exec (.wcmd 0x01) { up with envGrants := [1, 1, 1, 0, 0] }) (fun t => (t.trace, t.mdata, t.dispMode)) =
      some ([.issueAddr 0x7C, .wStart 0x7C, .issueData 0x00, .wByte 0x00, .issueData 0x01, .wByte 0x01, .issueStop,
             .done .wcmd .ok], 0x01, .cursor) := by decide +kernel

/-- V7, V26. -/
theorem test_scur :
    nextOf (exec (.scur 0x40) { up with dispMode := .glyph, envGrants := [1, 1, 1, 1] })
      (fun t => (t.mdata, t.dispMode, t.violated)) = some (0xC0, .cursor, false) := by decide +kernel

/-- V26. -/
theorem test_sgly :
    nextOf (exec (.sgly 0x28) { up with envGrants := [1, 1, 1, 1] }) (fun t => (t.mdata, t.dispMode, t.violated)) =
      some (0x68, .glyph, false) := by decide +kernel

/-- V26: the traffic as shown, and the contract violated. -/
theorem test_sgly_bad_offset :
    nextOf (exec (.sgly 0x30) { up with envGrants := [1, 1, 1, 1] }) (fun t => (t.mdata, t.violated)) =
      some (0x70, true) := by decide +kernel

/-- V3. -/
theorem test_wchr :
    nextOf (exec (.wchr 0x41) { up with envGrants := [1, 1, 1, 0, 0] }) (fun t => (t.trace, t.q)) =
      some ([.issueAddr 0x7C, .wStart 0x7C, .issueData 0x40, .wByte 0x40, .issueData 0x41, .wByte 0x41, .issueStop,
             .done .wchr .ok], [.stop]) := by decide +kernel

/-- V16, g = 1, at its fourth poll. -/
theorem test_wchr_times_out :
    nextOf (exec (.wchr 0x41) { up with cfg := cfgWith (some 4), q := [.data 0x40], txnOpen := true, busState := .busy,
                                        mdata := 0x40, wc := 3, seq := .waiting (.wchr 0x41) .wait2, envGrants := [0] })
      (fun t => (t.trace, readReg t 2, t.mdata, t.wc)) =
      some ([.done .wchr .timedOut], 0x01, 0x40, 4) := by decide +kernel

/-- V1 and a row of V10 where exact and stepwise division differ. -/
theorem test_computeDivisor :
    nextOf (exec (.computeDivisor 20000000 15000 0) atReset) (·.answer) = some (.divisor 661) ∧
    nextOf (exec (.computeDivisor 20000000 400000 30) atReset) (·.answer) = some (.divisor 19) := by decide

/-- Rows of V10: a negative result truncates toward zero and is not admitted. -/
theorem test_admitDivisor :
    computeDivisor 1000000 400000 0 = some (-3) ∧ admitDivisor 1000000 400000 0 = none ∧
    admitDivisor 9900000 1000000 0 = some 0 ∧ admitDivisor 20000000 38315 0 = some 0xFF ∧
    admitDivisor 20000000 38314 0 = none ∧ admitDivisor 20000000 0 0 = none := by decide

/-- V27, P3. -/
theorem test_warr :
    nextOf (exec (.warr [0x00, 0x38]) { inTransaction with envGrants := [1, 1] }) (fun t => (t.trace, t.mdata)) =
      some ([.issueData 0x00, .wByte 0x00, .done .wrb .ok, .issueData 0x38, .wByte 0x38, .done .wrb .ok], 0x38) := by
  decide +kernel

/-- V27: a `0x00` is sent. -/
theorem test_dwarr :
    nextOf (exec (.dwarr [0x00]) { up with envGrants := [1, 1, 1, 1] }) (fun t => (t.trace.length, t.mdata)) =
      some (9, 0x00) := by decide +kernel

/-- V27: it stops at the first `0x00`. -/
theorem test_dwstr :
    nextOf (exec (.dwstr [0x41, 0x00, 0x42, 0x00]) { up with envGrants := [1, 1, 1, 1] })
      (fun t => (t.trace.length, t.mdata)) = some (9, 0x41) := by decide +kernel

/-- P5. -/
theorem test_illegal :
    nextOf (exec (.illegal 0x0401) up) (fun t => (t.trace, readReg t 5, t.faults)) =
      some ([.done .illegal .illegalCommand], 3, 0b100) := by decide

/-- V30: the bytes of `INIT_ROM`. -/
theorem test_initRom :
    (initRom (cfgWith none)).map (·.2) = [0x01, 0x32, 0x00, 0x38, 0x00, 0x0C, 0x01, 0x02, 0x00, 0x01] := by decide

/-- V41: the reset state through the register port. -/
theorem test_reset_registers :
    [readReg atReset 0, readReg atReset 1, readReg atReset 3, readReg atReset 4, readReg atReset 5, readReg atReset 6,
      readReg atReset 7, readReg atReset 8, readReg { atReset with envLines := [true, true] } 9] =
      [0x00, 0x00, 0x00, 0x00, 0x00, 0x00, 0x0000, 0x7C, 0x88] := by decide

/-- Every kind of command word runs as the first instruction after reset, whatever the free values are. -/
theorem test_first_instruction :
    ∀ w ∈ [0x015F, 0x027C, 0x0300, 0x0400, 0x0500, 0x0600, 0x0700, 0x0800, 0x1000, 0x1100, 0x1200, 0x1300, 0x1400, 0x0000],
      (nextOf (step (State.reset.withFetchWord 16 w)) (fun _ => ())).isSome = true := by decide

/-! ### Witnesses: states and operands that meet the hypotheses of each statement, clause by clause -/

theorem witness_DecodeEncodeAgree :
    (Instr.binit 0xFF).wellFormed = true ∧ (Instr.binit 0xFF).encode = some 0x01FF ∧
    (Instr.illegal 0xFFFF).wellFormed = true ∧ (Instr.illegal 0xFFFF).encode = some 0xFFFF ∧
    Instr.dinit.wellFormed = true ∧ Instr.dinit.encode = some 0x1000 := by decide

theorem witness_ReservedWordsAreIllegal :
    (2 = (0x2000 : Word).toNat / 4096 ∧ 0 = (0x2000 : Word).toNat / 256 % 16 ∧ 0 = (0x2000 : Word).toNat % 256) ∧
    (1 = (0x1FFF : Word).toNat / 4096 ∧ 15 = (0x1FFF : Word).toNat / 256 % 16 ∧ 255 = (0x1FFF : Word).toNat % 256) ∧
    (1 = (0x1500 : Word).toNat / 4096 ∧ 5 = (0x1500 : Word).toNat / 256 % 16 ∧ 0 = (0x1500 : Word).toNat % 256) ∧
    (1 = (0x14FF : Word).toNat / 4096 ∧ 4 = (0x14FF : Word).toNat / 256 % 16 ∧ 255 = (0x14FF : Word).toNat % 256) ∧
    (1 = (0x1001 : Word).toNat / 4096 ∧ 0 = (0x1001 : Word).toNat / 256 % 16 ∧ 1 = (0x1001 : Word).toNat % 256) ∧
    (0 = (0x0900 : Word).toNat / 4096 ∧ 9 = (0x0900 : Word).toNat / 256 % 16 ∧ 0 = (0x0900 : Word).toNat % 256) ∧
    (0 = (0x0800 : Word).toNat / 4096 ∧ 8 = (0x0800 : Word).toNat / 256 % 16 ∧ 0 = (0x0800 : Word).toNat % 256) ∧
    (0 = (0x0801 : Word).toNat / 4096 ∧ 8 = (0x0801 : Word).toNat / 256 % 16 ∧ 1 = (0x0801 : Word).toNat % 256) ∧
    (0 = (0x0401 : Word).toNat / 4096 ∧ 4 = (0x0401 : Word).toNat / 256 % 16 ∧ 1 = (0x0401 : Word).toNat % 256) ∧
    (0 = (0x03FF : Word).toNat / 4096 ∧ 3 = (0x03FF : Word).toNat / 256 % 16 ∧ 255 = (0x03FF : Word).toNat % 256) ∧
    (0 = (0x00FF : Word).toNat / 4096 ∧ 0 = (0x00FF : Word).toNat / 256 % 16 ∧ 255 = (0x00FF : Word).toNat % 256) ∧
    decode 0x2000 = .illegal 0x2000 := by decide

theorem witness_ExpansionWordsDecode : (0x00 : Byte) ∉ ([] : List Byte) ∧ (0x00 : Byte) ∉ [(0x41 : Byte), 0xFF] := by decide

theorem witness_ResetEventClearsTheBlock :
    { up with resetIn := true, seq := .waiting .wait .wait1, wif := true, q := [.stop] }.resetIn = true := rfl

theorem witness_ResetCutsAnOperationShort :
    (let s := { atReset with envResets := [5, 7] }
     s.seq = .idle ∧ s.q = [] ∧ s.resetIn = false ∧ s.envResets = 5 :: [7] ∧ 5 < 6) ∧
    (let s := { atReset with envResets := [6] }
     s.seq = .idle ∧ s.q = [] ∧ s.resetIn = false ∧ s.envResets = 6 :: [] ∧ 6 ≤ 6) ∧
    (let s := { up with q := [.addr 0x7C], txnOpen := true, seq := .waiting .wait .wait1, envGrants := [0], envResets := [0] }
     s.seq = .waiting .wait .wait1 ∧ heldAt .wait .wait1 = true ∧ Instr.wait ≠ .dinit ∧ atUndefinedByte s = false ∧
       s.resetIn = false ∧ s.envResets = 0 :: []) := by decide

theorem witness_StepRunsDecodedWord :
    let s := { up with host := [.word 0x1441] }
    s.resetIn = false ∧ s.seq = .idle ∧ s.host = .word 0x1441 :: [] := by decide

theorem witness_StepRunsCallsAndResumes :
    (let s := { up with host := [.call (.dwstr [0x41, 0x00])] }
     s.resetIn = false ∧ s.seq = .idle ∧ s.host = .call (.dwstr [0x41, 0x00]) :: [] ∧
       (Instr.dwstr [0x41, 0x00]).wellFormed = true) ∧
    (let s := { up with host := [.call (.dwstr [0x41])] }
     s.resetIn = false ∧ s.seq = .idle ∧ s.host = .call (.dwstr [0x41]) :: [] ∧
       (Instr.dwstr [0x41]).wellFormed = false) ∧
    (let s := { up with seq := .waiting .wait .wait1 }
     s.resetIn = false ∧ s.seq = .waiting .wait .wait1) := by decide

theorem witness_StepWaitsForCommand :
    ({ up with q := [.stop] }.accepts ∧ { up with q := [.stop] }.host = []) ∧
    (up.accepts ∧ up.host = [] ∧ up.q = []) := by decide

theorem witness_RegisterReadPort :
    (let s := { up with host := [.read 9] }
     s.accepts ∧ s.host = .read 9 :: []) ∧
    (let s := { up with host := [.read 10] }
     s.accepts ∧ s.host = .read 10 :: []) := by decide

theorem witness_PinPrimitivesWrite : up.ctrlEnable = true := by decide

theorem witness_PinReadLevel :
    (let s := { atReset with envLines := [true] }
     s.ctrlEnable = false ∧ s.envLines = true :: [] ∧ (s.pin .sda).dir = .input) ∧
    (let s := { atReset with envLines := [false], scl := { dir := .output, out := true, pu := true } }
     s.ctrlEnable = false ∧ s.envLines = false :: [] ∧ (s.pin .scl).dir = .output) := by decide

theorem witness_EnginePerformsHead :
    (let s := { up with q := [.addr 0x7C, .data 0x40], envGrants := [1] }
     s.ctrlEnable = true ∧ s.resetIn = false ∧ s.envGrants = 1 :: [] ∧ s.q = .addr 0x7C :: [.data 0x40] ∧ s.busState = .idle) ∧
    (let s := { up with q := [.addr 0x7C], envGrants := [1], busState := .busy }
     s.ctrlEnable = true ∧ s.resetIn = false ∧ s.envGrants = 1 :: [] ∧ s.q = .addr 0x7C :: [] ∧ s.busState = .busy) ∧
    (let s := { up with q := [.data 0x40], envGrants := [1], busState := .busy }
     s.ctrlEnable = true ∧ s.resetIn = false ∧ s.envGrants = 1 :: [] ∧ s.q = .data 0x40 :: [] ∧ s.busState = .busy) ∧
    (let s := { up with q := [.stop, .addr 0x7C], envGrants := [1] }
     s.ctrlEnable = true ∧ s.resetIn = false ∧ s.envGrants = 1 :: [] ∧ s.q = .stop :: [.addr 0x7C]) ∧
    (atReset.ctrlEnable = false ∧ up.q = []) ∧
    (let s := { up with q := [.stop], envGrants := [0] }
     performable s = true ∧ s.envGrants = 0 :: []) := by decide

theorem witness_UndefinedByteIsRefused :
    let s := { up with q := [.data 0x40], envGrants := [1] }
    s.seq = .idle ∧ atUndefinedByte s = true ∧ s.envGrants = (0 + 1) :: [] ∧ Instr.wait.wellFormed = true ∧ s.noReset := by decide

theorem witness_BinitResult : atReset.quiet ∧ atReset.q = [] := by decide

theorem witness_StartResult :
    (atReset.quiet ∧ atReset.q = [] ∧ atReset.ctrlEnable = false) ∧
    (let s := { up with envGrants := [0] }
     s.quiet ∧ s.q = [] ∧ s.ctrlEnable = true ∧ s.envGrants = 0 :: []) ∧
    (let s := { up with envGrants := [1] }
     s.quiet ∧ s.q = [] ∧ s.ctrlEnable = true ∧ s.envGrants = (0 + 1) :: []) ∧
    (let s := { up with q := [.stop], envGrants := [0, 0] }
     s.quiet ∧ s.q = [.stop] ∧ s.ctrlEnable = true ∧ s.envGrants = 0 :: 0 :: []) := by decide

theorem witness_WrbResult :
    (let s := { inTransaction with envGrants := [0] }
     s.quiet ∧ s.q = [] ∧ s.txnOpen = true ∧ engineReady s = true ∧ s.ctrlEnable = true ∧ s.busState = .busy ∧
       s.envGrants = 0 :: []) ∧
    (let s := { inTransaction with envGrants := [1] }
     s.quiet ∧ s.q = [] ∧ s.txnOpen = true ∧ engineReady s = true ∧ s.ctrlEnable = true ∧ s.busState = .busy ∧
       s.envGrants = (0 + 1) :: []) := by decide

theorem witness_StopResult :
    (let s := { inTransaction with envGrants := [0] }
     s.quiet ∧ s.txnOpen = true ∧ s.ctrlEnable = true ∧ s.q = [] ∧ engineReady s = true ∧ s.envGrants = 0 :: []) ∧
    (let s := { inTransaction with envGrants := [1] }
     s.quiet ∧ s.txnOpen = true ∧ s.ctrlEnable = true ∧ s.q = [] ∧ engineReady s = true ∧
       s.envGrants = (0 + 1) :: []) ∧
    (let s := { afterBrst with txnOpen := true, q := [.addr 0x7C], envGrants := [1, 1] }
     s.quiet ∧ s.txnOpen = true ∧ s.ctrlEnable = true ∧ s.q = [.addr 0x7C] ∧
       s.envGrants = (0 + 1) :: (0 + 1) :: []) := by decide

theorem witness_WaitResult :
    (inTransaction.quiet ∧ inTransaction.q = [] ∧ engineReady inTransaction = true) ∧
    (let s := { afterBrst with q := [.addr 0x7C], envGrants := [1] }
     s.quiet ∧ s.ctrlEnable = true ∧ s.q = [.addr 0x7C] ∧ s.envGrants = (0 + 1) :: []) := by decide

theorem witness_DisResult : { up with q := [.stop] }.accepts := by decide

theorem witness_EnResult :
    { up with ctrlEnable := false }.quiet ∧ { up with ctrlEnable := false }.q = [] := by decide

theorem witness_NonWaitingOperationsFrame :
    { up with q := [.stop] }.accepts ∧ { atReset with q := [.data 0x40] }.accepts := by decide

theorem witness_FailedPollHoldsOrTimesOut :
    (let s := { afterBrst with cfg := cfgWith (some 4), txnOpen := true, wc := 3, seq := .waiting .wait .wait1,
                               q := [.addr 0x7C], envGrants := [0] }
     s.noReset ∧ engineReady s = false ∧ s.standsStill [] ∧ s.seq = .waiting .wait .wait1 ∧ waitPollLimit s.cfg = some 4 ∧
       4 ≤ s.wc + 1) ∧
    (let s := { afterBrst with cfg := cfgWith (some 1), txnOpen := true, busState := .busy, q := [.data 0x40],
                               envGrants := [0, 1] }
     s.noReset ∧ engineReady s = false ∧ s.standsStill [1] ∧ s.seq = .idle ∧ waitPollLimit s.cfg = some 1 ∧ 1 ≤ 0 + 1) ∧
    (let s := { afterBrst with cfg := cfgWith (some 4), txnOpen := true, wc := 2, seq := .waiting .stop .wait1 }
     s.noReset ∧ engineReady s = false ∧ s.standsStill [] ∧ s.seq = .waiting .stop .wait1 ∧
       waitPollLimit s.cfg = some 4 ∧ s.wc + 1 < 4) ∧
    (let s := { afterBrst with txnOpen := true, ctrlEnable := false, q := [.addr 0x7C] }
     s.noReset ∧ engineReady s = false ∧ s.standsStill [] ∧ s.seq = .idle ∧ waitPollLimit s.cfg = none) := by decide

theorem witness_UnboundedWaitHangs :
    (let s := { afterBrst with txnOpen := true, q := [.addr 0x7C], seq := .waiting (.wrb 0x40) .wait1,
                               envGrants := [0, 0, 0] }
     s.noReset ∧ s.seq = .waiting (.wrb 0x40) .wait1 ∧ heldAt (.wrb 0x40) .wait1 = true ∧ Instr.wrb 0x40 ≠ .dinit ∧
       engineReady s = false ∧ waitPollLimit s.cfg = none ∧ s.envGrants = List.replicate 3 0 ++ []) ∧
    (let s := { afterBrst with txnOpen := true, phase := .initializing, dcIp := 2, seq := .waiting .dinit .wait3 }
     s.noReset ∧ heldAt .dinit .wait3 = true ∧ s.InitProgress ∧ engineReady s = false ∧ waitPollLimit s.cfg = none ∧
       s.q = []) :=
  ⟨by decide, ⟨rfl, rfl⟩, rfl, ⟨.inl (by show 2 < initLen (cfgWith none); decide), fun _ => ⟨rfl, fun _ => ⟨rfl, 0x0C, rfl⟩⟩⟩,
    rfl, rfl, rfl⟩

theorem witness_NoTransactionIsRefused :
    let s := { inTransaction with txnOpen := false }
    s.quiet ∧ s.q = [] ∧ engineReady s = true ∧ s.txnOpen = false := by decide

theorem witness_NestedStartIsRepeatedStart :
    let s := { inTransaction with envGrants := [1], host := [.call (.start 0x7C)] }
    s.quiet ∧ s.q = [] ∧ s.ctrlEnable = true ∧ s.txnOpen = true ∧ s.busState = .busy ∧
      s.envGrants = (0 + 1) :: [] ∧ s.host = .call (.start 0x7C) :: [] := by decide

theorem witness_BusyBlockAcceptsNothing :
    { up with seq := .waiting .wait .wait1 }.seq = .waiting .wait .wait1 ∧ Instr.stop ≠ .wait ∧
      Instr.stop.wellFormed = true := by decide

theorem witness_BrstOnFreeBus :
    let s := { afterBrst with envLines := [true] }
    s.quiet ∧ s.q = [] ∧ s.envLines = true :: [] := by decide

theorem witness_BrstFreedAfterPulses :
    (let s := { afterBrst with envLines := [false, true, true] }
     s.quiet ∧ s.q = [] ∧ 1 ≤ 1 ∧ 1 ≤ 16 ∧
       s.envLines = false :: (List.replicate (1 - 1) false ++ true :: true :: [])) ∧
    (let s := { afterBrst with envLines := List.replicate 16 false ++ [true, true] }
     s.quiet ∧ s.q = [] ∧ 1 ≤ 16 ∧ 16 ≤ 16 ∧
       s.envLines = false :: (List.replicate (16 - 1) false ++ true :: true :: [])) := by decide

theorem witness_BrstExhausted :
    let s := { afterBrst with envLines := List.replicate 51 false }
    s.quiet ∧ s.q = [] ∧ s.envLines = List.replicate 51 false ++ [] := by decide

theorem witness_BrstAlwaysEndsEnabled : { up with q := [.stop, .addr 0x7C] }.accepts := by decide

/-- Brought up, at rest, with `n` turns granted. -/
def upGranted (n : Nat) : State := { up with envGrants := List.replicate n 1 }

theorem upGranted_atRest (n : Nat) : (upGranted n).quiet ∧ (upGranted n).engineAtRest := ⟨⟨rfl, rfl, rfl⟩, rfl, rfl, rfl⟩

theorem witness_WcmdResult :
    (upGranted 4).envGrants = (0 + 1) :: (0 + 1) :: (0 + 1) :: (0 + 1) :: [] ∧
    ((0xC0 : Byte) &&& (upGranted 4).cfg.cursorBase = (upGranted 4).cfg.cursorBase) ∧
    ¬ ((0x01 : Byte) &&& (upGranted 4).cfg.cursorBase = (upGranted 4).cfg.cursorBase ∨
        (0x01 : Byte) &&& (upGranted 4).cfg.glyphBase = (upGranted 4).cfg.glyphBase) ∧
    (upGranted 4).quiet ∧ (upGranted 4).engineAtRest :=
  ⟨by decide, by decide, by decide, upGranted_atRest 4⟩

theorem witness_ScurResult :
    (upGranted 4).envGrants = (0 + 1) :: (0 + 1) :: (0 + 1) :: (0 + 1) :: [] ∧ (upGranted 4).quiet ∧
      (upGranted 4).engineAtRest := ⟨by decide, upGranted_atRest 4⟩

theorem witness_SglyResult :
    (upGranted 4).envGrants = (0 + 1) :: (0 + 1) :: (0 + 1) :: (0 + 1) :: [] ∧ (upGranted 4).quiet ∧
      (upGranted 4).engineAtRest := ⟨by decide, upGranted_atRest 4⟩

theorem witness_WchrResult :
    ((upGranted 4).envGrants = (0 + 1) :: (0 + 1) :: (0 + 1) :: (0 + 1) :: [] ∧ (upGranted 4).quiet ∧
      (upGranted 4).engineAtRest) ∧
    (let s := { up with envGrants := [1, 1, 1, 0, 0] }
     s.envGrants = (0 + 1) :: (0 + 1) :: (0 + 1) :: 0 :: 0 :: [] ∧ s.quiet ∧ s.engineAtRest) :=
  ⟨⟨by decide, upGranted_atRest 4⟩, by decide, ⟨rfl, rfl, rfl⟩, rfl, rfl, rfl⟩

/-- A character held in its second wait. -/
def heldWchr (limit : Option Nat) (gs : List Nat) : State :=
  { up with cfg := cfgWith limit, q := [.data 0x40], txnOpen := true, busState := .busy, maddr := 0x7C, mdata := 0x40, wc := 1,
            seq := .waiting (.wchr 0x41) .wait2, envGrants := gs }

theorem witness_FramerTrafficIsExact :
    (∃ t, exec (.scur 0x40) (upGranted 4) = .next t ∧ (upGranted 4).noReset ∧ (upGranted 4).seq = .idle ∧
      framed (upGranted 4).cfg (.scur 0x40) = some (.scur, 0x00, 0xC0) ∧ t.seq = .idle ∧ t.result = .ok) ∧
    (∃ t, exec (.wchr 0x41) (heldWchr none [1, 0]) = .next t ∧ (heldWchr none [1, 0]).noReset ∧
      (heldWchr none [1, 0]).seq = .waiting (.wchr 0x41) .wait2 ∧
      framed (heldWchr none [1, 0]).cfg (.wchr 0x41) = some (.wchr, 0x40, 0x41) ∧ t.seq = .waiting (.wchr 0x41) .wait3) ∧
    (∃ t, exec (.wchr 0x41) (heldWchr (some 2) [0]) = .next t ∧ (heldWchr (some 2) [0]).noReset ∧
      (heldWchr (some 2) [0]).seq = .waiting (.wchr 0x41) .wait2 ∧ t.seq = .idle ∧ t.result ≠ .ok) :=
  ⟨⟨_, rfl, by decide, by decide, by decide, by decide +kernel, by decide +kernel⟩,
    ⟨_, rfl, by decide, by decide, by decide, by decide +kernel⟩,
    ⟨_, rfl, by decide, by decide, by decide +kernel, by decide +kernel⟩⟩

theorem witness_FramerFrame :
    (∃ t, exec (.wchr 0x41) (upGranted 4) = .next t ∧ (upGranted 4).quiet ∧
      framed (upGranted 4).cfg (.wchr 0x41) = some (.wchr, 0x40, 0x41)) ∧
    (∃ t, exec (.scur 0x00) (upGranted 4) = .next t ∧
      framed (upGranted 4).cfg (.scur 0x00) = some (.scur, 0x00, 0x80) ∧ t.seq = .idle ∧ t.result = .ok) ∧
    (∃ t, exec (.sgly 0x28) (upGranted 4) = .next t ∧
      framed (upGranted 4).cfg (.sgly 0x28) = some (.sgly, 0x00, 0x68) ∧ t.seq = .idle ∧ t.result = .ok) ∧
    (∃ t, exec (.wchr 0x41) (heldWchr none [1, 1, 1]) = .next t ∧ (heldWchr none [1, 1, 1]).noReset ∧
      (heldWchr none [1, 1, 1]).seq = .waiting (.wchr 0x41) .wait2 ∧ (heldWchr none [1, 1, 1]).rif = false) :=
  ⟨⟨_, rfl, (upGranted_atRest 4).1, by decide⟩, ⟨_, rfl, by decide, by decide +kernel, by decide +kernel⟩,
    ⟨_, rfl, by decide, by decide +kernel, by decide +kernel⟩, ⟨_, rfl, by decide, by decide, by decide⟩⟩

theorem witness_WchrTimesOutAtEachWait :
    let s (gs : List Nat) := { up with cfg := cfgWith (some 1), envGrants := gs }
    (∀ gs, (s gs).quiet ∧ (s gs).engineAtRest) ∧ waitPollLimit (s []).cfg = some 1 ∧
      (s [0]).envGrants = 0 :: [] ∧ (s [1, 0]).envGrants = (0 + 1) :: 0 :: [] ∧
      (s [1, 1, 0]).envGrants = (0 + 1) :: (0 + 1) :: 0 :: [] :=
  ⟨fun _ => ⟨⟨rfl, rfl, rfl⟩, rfl, rfl, rfl⟩, by decide, by decide, by decide, by decide⟩

theorem witness_DinitRunsTheTable :
    let s := { afterBrst with envGrants := List.replicate 20 1 }
    s.quiet ∧ s.engineAtRest ∧ s.granted (4 * initLen s.cfg) :=
  ⟨⟨rfl, rfl, rfl⟩, ⟨rfl, rfl, rfl⟩, by decide, by decide⟩

/-- The state at the fourth entry of V31, its commands at entries 1, 2 and 4. -/
theorem witness_DinitTimesOutAtEntry :
    (let s := { afterBrst with cfg := cfgWith (some 1), envGrants := List.replicate 10 1 ++ [0] }
     s.quiet ∧ s.engineAtRest ∧ waitPollLimit s.cfg = some 1 ∧ (initTable s.cfg)[4]? = some (.command 0x01) ∧
       (List.replicate 10 1).length = 4 * ((initTable s.cfg).take 4).countP (fun e => (entryBytes e).1 == 0) + 2 ∧
       s.envGrants = List.replicate 10 1 ++ 0 :: []) ∧
    (let s := { afterBrst with cfg := cfgWith (some 1), envGrants := [0] }
     (initTable s.cfg)[1]? = some (.command 0x38) ∧
       ([] : List Nat).length = 4 * ((initTable s.cfg).take 1).countP (fun e => (entryBytes e).1 == 0) + 0 ∧
       s.envGrants = [] ++ 0 :: []) ∧
    (let s := { afterBrst with cfg := cfgWith (some 4), phase := .initializing, dcIp := 2, wc := 3, q := [.addr 0x7C],
                               txnOpen := true, seq := .waiting .dinit .wait1, envGrants := [0] }
     s.noReset ∧ s.seq = .waiting .dinit .wait1 ∧ (initTable s.cfg)[s.dcIp.toNat]? = some (.command 0x0C) ∧
       engineReady s = false ∧ s.standsStill [] ∧ waitPollLimit s.cfg = some 4 ∧ 4 ≤ s.wc + 1) :=
  ⟨⟨⟨rfl, rfl, rfl⟩, ⟨rfl, rfl, rfl⟩, by decide, by decide, by decide, by decide⟩, by decide, by decide⟩

theorem witness_WarrResult :
    let s := { inTransaction with envGrants := [1, 1] }
    s.quiet ∧ s.q = [] ∧ s.ctrlEnable = true ∧ s.busState = .busy ∧ s.wif = true ∧ s.txnOpen = true ∧
      s.granted [(0x00 : Byte), 0x38].length ∧ s.granted ([] : List Byte).length := by
  unfold State.granted; decide

theorem witness_DwarrResult :
    (upGranted 8).granted (4 * [(0x41 : Byte), 0x00].length) ∧ (upGranted 8).granted (4 * ([] : List Byte).length) ∧
      (upGranted 8).quiet ∧ (upGranted 8).engineAtRest :=
  ⟨⟨by decide, by decide⟩, ⟨by decide, by decide⟩, upGranted_atRest 8⟩

theorem witness_DwstrResult :
    (0x00 : Byte) ∉ [(0x48 : Byte), 0x69] ∧ (upGranted 8).granted (4 * [(0x48 : Byte), 0x69].length) ∧
      (0x00 : Byte) ∉ ([] : List Byte) ∧ (upGranted 8).granted (4 * ([] : List Byte).length) ∧
      (upGranted 8).quiet ∧ (upGranted 8).engineAtRest :=
  ⟨by decide, ⟨by decide, by decide⟩, by decide, ⟨by decide, by decide⟩, upGranted_atRest 8⟩

theorem witness_ComputeDivisorResult :
    atReset.accepts ∧ (15000 : Nat) ≠ 0 ∧
      ∃ x : ℚ, x = (((20000000 : Nat) : ℚ) / (15000 : Nat) - 10 - ((20000000 : Nat) : ℚ) * (0 : Nat) / 1000000000) / 2 :=
  ⟨by decide, by decide, _, rfl⟩

theorem witness_ZeroBusFrequencyHasNoResult : atReset.accepts := by decide

theorem witness_ComputeDivisorMonotone :
    38461 ≤ 38462 ∧ 0 ≤ 0 ∧ computeDivisor 20000000 38461 0 = some 255 ∧ computeDivisor 20000000 38462 0 = some 254 := by
  decide

theorem witness_DivisorAdmission :
    (∃ d, admitDivisor 20000000 38315 0 = some d) ∧ (∃ d, admitDivisor 1000000 100000 0 = some d) ∧
      admitDivisor 20000000 38314 0 = none := ⟨⟨0xFF, by decide⟩, ⟨0x00, by decide⟩, by decide⟩

/-- The configuration of P1 as a host gives it. -/
def rawP1 : RawConfig where
  cpuHz := 20000000
  busHz := 100000
  riseNs := 0
  halfPeriodUs := 50
  pollLimit := none
  table := [(1, 0x32), (0, 0x38), (0, 0x0C), (1, 2), (0, 0x01)]
  cursorBase := 0x80
  glyphBase := 0x40
  cursorOffsetMax := 0x67
  displayFollows := true

theorem witness_BuildConfigAdmits :
    buildConfig rawP1 = .ok (cfgWith none) ∧
    buildConfig { rawP1 with table := [(1, 0x32), (0, 0x01)], halfPeriodUs := 25, pollLimit := some 1 } =
      .ok { cfgWith (some 1) with initMiddle := [], halfPeriodOver25 := 0 } ∧
    buildConfig { rawP1 with table := [(1, 0x32)] } = .error .tableNotAdmitted := by decide +kernel

theorem witness_InitRomLayout :
    initLen (cfgWith none) = 5 ∧ initLen (cfgWith none) ≤ 5 ∧ 4 < initLen (cfgWith none) ∧ 0 < initLen (cfgWith none) := by
  decide

theorem witness_IllegalResult :
    let s := { up with host := [.word 0x0401] }
    s.accepts ∧ s.q = [] ∧ 0 = (0x0401 : Word).toNat / 4096 ∧ 4 = (0x0401 : Word).toNat / 256 % 16 ∧
      1 = (0x0401 : Word).toNat % 256 ∧ s.host = .word 0x0401 :: [] := by decide

theorem witness_QueueOrderKept :
    { up with q := [.stop], trace := [.issueAddr 0x7C, .wStart 0x7C, .issueStop] }.QueueOrder ∧
      ∃ t, step { up with q := [.stop], trace := [.issueAddr 0x7C, .wStart 0x7C, .issueStop], envGrants := [1] } = .next t :=
  ⟨by unfold State.QueueOrder; decide, _, rfl⟩

theorem witness_ReadFlagNeverSet : up.RifClear ∧ ∃ t, step up = .next t := ⟨rfl, _, rfl⟩

theorem witness_InitProgressKept :
    atReset.InitProgress ∧ up.InitProgress ∧
      { afterBrst with phase := .initializing, dcIp := 2, txnOpen := true, seq := .waiting .dinit .wait3 }.InitProgress ∧
      { afterBrst with phase := .initializing, dcIp := 5, resetIn := true }.InitProgress :=
  ⟨⟨rfl, fun _ => trivial⟩, ⟨by show 5 = initLen (cfgWith none); decide, fun _ => trivial⟩,
    ⟨.inl (by show 2 < initLen (cfgWith none); decide), fun _ => ⟨rfl, fun _ => ⟨rfl, 0x0C, rfl⟩⟩⟩,
    ⟨.inr ⟨rfl, by show 5 = initLen (cfgWith none); decide⟩, fun h => nomatch h⟩⟩

theorem witness_SingleBufferKept :
    (up.InitProgress ∧ up.SingleBuffer ∧ ∃ t, step up = .next t) ∧
    (let s := { up with txnOpen := true, q := [.stop, .addr 0x7C], seq := .waiting (.wchr 0x41) .wait1, envGrants := [0] }
     s.InitProgress ∧ s.SingleBuffer ∧ ∃ t, step s = .next t) :=
  ⟨⟨witness_InitProgressKept.2.1, ⟨rfl, fun _ => ⟨(fun h => nomatch h), .inl rfl, fun _ => trivial⟩⟩, _, rfl⟩,
    ⟨by show 5 = initLen (cfgWith none); decide, fun _ => ⟨rfl, fun h => nomatch h⟩⟩,
    ⟨rfl, fun _ => ⟨(fun h => nomatch h), .inr (.inr (.inr ⟨0x7C, rfl⟩)), fun _ => ⟨rfl, fun _ => rfl⟩⟩⟩, _, rfl⟩

theorem witness_StepForgetsNothing :
    { up with host := [.word 0x0000], violated := true }.resetIn = false ∧
      ∃ t, step { up with host := [.word 0x0000], violated := true } = .next t := ⟨rfl, _, rfl⟩

end Sys2Proof.Tests
end

section
/-! PROOFS. The statements about the state: what every step but a reset keeps (R24, R45, R53), the register read port (R47, R71),
and the read-complete flag (R41). -/

namespace Sys2Proof.Machine

/-! ### What only a reset forgets -/

/-- Between `s` and `t` nothing is forgotten: no bit of `FAULTS`, nothing of the configuration, no event and no violation. -/
structure State.RecordKept (s t : State) : Prop where
  faults : s.faults &&& t.faults = s.faults
  cfg : t.cfg = s.cfg
  trace : s.trace <+: t.trace
  violated : s.violated = true → t.violated = true

theorem State.RecordKept.refl (s : State) : s.RecordKept s :=
  ⟨BitVec.and_self, rfl, List.prefix_rfl, id⟩

theorem State.RecordKept.trans {s t u : State} (h : s.RecordKept t) (h' : t.RecordKept u) : s.RecordKept u where
  faults := by rw [← h.faults, BitVec.and_assoc, h'.faults]
  cfg := h'.cfg.trans h.cfg
  trace := h.trace.trans h'.trace
  violated := h'.violated ∘ h.violated

/-- A change that leaves `FAULTS`, the configuration and the violation bit alone and at most appends to the trace forgets nothing. -/
theorem State.RecordKept.of_append {s t u : State} (h : s.RecordKept t) (ht : t.trace <+: u.trace := by simp)
    (hf : u.faults = t.faults := by simp) (hc : u.cfg = t.cfg := by simp) (hv : u.violated = t.violated := by simp) :
    s.RecordKept u :=
  h.trans ⟨by rw [hf, BitVec.and_self], hc, ht, fun e => hv.trans e⟩

theorem recordContract_recordKept (i : Instr) (s : State) : s.RecordKept (recordContract i s) :=
  ⟨BitVec.and_self, rfl, List.prefix_rfl, fun h => by simp [h]⟩

/-- A failure sets its sticky bit and clears none (R45, R254). -/
theorem failWith_recordKept (op : OpName) (c : ResultCode) (s : State) : s.RecordKept (failWith op c s) where
  faults := by
    rw [failWith_faults]
    ext i
    simpa using Or.inl
  cfg := rfl
  trace := List.prefix_append ..
  violated := id

theorem perform_recordKept {s : State} (h : performable s = true) : s.RecordKept (perform s) := by
  obtain ⟨a, q, -, e⟩ | ⟨b, q, -, -, e⟩ | ⟨q, -, e⟩ := perform_cases h <;> rw [e] <;> exact (State.RecordKept.refl s).of_append

/-- A read of a line takes the environment's answer and is recorded (R86). -/
theorem pinRead_snd (p : PinName) (s : State) : (pinRead p s).2 = emit (.pinRead p (pinRead p s).1) (lineTaken s) := rfl

/-- Every primitive forgets nothing of what `s` had recorded. -/
theorem recordKept_stepKeeps (s : State) : StepKeeps s.RecordKept where
  perform _ hp h := h.trans (perform_recordKept hp)
  contract _ _ h := h.trans (recordContract_recordKept _ _)
  fail _ _ _ h := h.trans (failWith_recordKept _ _ _)
  grant _ h := h.of_append
  point _ h := h.of_append
  clear _ h := h.of_append
  count _ h := h.of_append
  hold _ _ _ h := h.of_append
  done _ _ h := h.of_append
  issueStart _ _ h := h.of_append
  issueData _ _ h := h.of_append
  issueStop _ h := h.of_append
  divisor _ _ h := h.of_append
  enable _ h := h.of_append
  clearFlags _ h := h.of_append
  forceIdle _ h := h.of_append
  binitGhost _ h := h.of_append
  disable _ h := h.of_append
  pinDir _ _ _ h := h.of_append
  pinOut _ _ _ h := h.of_append
  pinPu _ _ _ h := h.of_append
  pinRead _ _ h := by rw [pinRead_snd]; exact h.of_append
  delayUs _ _ h := h.of_append
  delayMs _ _ h := h.of_append
  inner _ _ h := h.of_append
  outer _ _ h := h.of_append
  busReset _ h := h.of_append
  mode _ _ h := h.of_append
  drawMode _ h := h.of_append
  beginInit _ h := h.of_append
  nextEntry _ h := h.of_append
  endInit _ h := h.of_append
  answer _ _ h := h.of_append
  host _ _ h := h.of_append
  read _ _ h := h.of_append List.prefix_rfl rfl rfl rfl

/-- Settles O59: no primitive forgets anything, so no step but a reset does. -/
theorem stepForgetsNothing : Obligations.StepForgetsNothing := by
  intro s t hr he
  obtain ⟨hf, hc, ht, hv⟩ := (recordKept_stepKeeps s).step hr (.refl s) he
  exact ⟨hf, hc, ht, hv⟩

/-! ### The register read port -/

theorem toNat_append_add {m n : Nat} (x : BitVec m) (y : BitVec n) : (x ++ y).toNat = x.toNat * 2 ^ n + y.toNat := by
  rw [BitVec.toNat_append, ← Nat.shiftLeft_add_eq_or_of_lt y.isLt, Nat.shiftLeft_eq]

/-- The bits of a register stand at their places (R47). -/
theorem byteOfBits_toNat (b0 b1 b2 b3 b4 b5 b6 b7 : Bool) :
    (byteOfBits b0 b1 b2 b3 b4 b5 b6 b7).toNat =
      b0.toNat + 2 * b1.toNat + 4 * b2.toNat + 8 * b3.toNat + 16 * b4.toNat + 32 * b5.toNat + 64 * b6.toNat +
        128 * b7.toNat := by
  simp only [byteOfBits, toNat_append_add, BitVec.toNat_ofBool]
  omega

theorem busBit_eq (b : BusState) : busBit b = decide (b = .busy) := by cases b <;> rfl

theorem dirBit_eq (d : PinDir) : dirBit d = decide (d = .output) := by cases d <;> rfl

theorem dcstatReg_toNat (s : State) : (dcstatReg s).toNat = (phaseBits s.phase).toNat + 256 * s.dcIp.toNat := by
  have h0 : (0 : BitVec 6).toNat = 0 := rfl
  simp only [dcstatReg, toNat_append_add, h0]
  omega

/-- A block that takes up a read of a register serves it after the engine's turn (R8, R71). -/
theorem step_read {s : State} {n : Nat} {rest : List Request} (h : s.accepts) (hh : s.host = .read n :: rest) :
    step s = .next (hostRead n (engineTurn { s with host := rest })) := by
  obtain ⟨⟨hseq, hn⟩, hu⟩ := h
  have hstep : step s = serve (.read n) { s with host := rest } := by
    simp only [step, hn.1, hseq, fetch, hh, Bool.false_eq_true, if_false]
  rw [hstep, serve, engineGate_pass (s := { s with host := rest }) hu, runActions_cons, runActions_nil,
    runAction_none (s := { s with host := rest }) hn]

/-- Settles O11: each register is its fields at their places, and a read changes what is handed over and what the environment has still
to answer, nothing else. -/
theorem registerReadPort : Obligations.RegisterReadPort := by
  refine ⟨fun s => ⟨?ctrl, ?divisor, ?status, ?maddr, ?mdata, ?result, ?faults, ?dcstat, rfl, ?pinctl⟩, ?read⟩
  case ctrl => rw [readReg, BitVec.toNat_setWidth_of_le (by decide), ctrlReg, byteOfBits_toNat]; rfl
  case divisor => exact BitVec.toNat_setWidth_of_le (by decide)
  case status =>
    rw [readReg, BitVec.toNat_setWidth_of_le (by decide), statusReg, byteOfBits_toNat, busBit_eq]; rfl
  case maddr => exact BitVec.toNat_setWidth_of_le (by decide)
  case mdata => exact BitVec.toNat_setWidth_of_le (by decide)
  case result =>
    rw [readReg]
    cases s.result <;> rfl
  case faults => exact BitVec.toNat_setWidth_of_le (by decide)
  case dcstat =>
    rw [readReg, dcstatReg_toNat]
    cases s.phase <;> rfl
  case pinctl =>
    rw [readReg, BitVec.toNat_setWidth_of_le (by decide), pinctlReg, byteOfBits_toNat, dirBit_eq, dirBit_eq]
  case read =>
    intro s n rest h hh
    exact ⟨_, _, step_read h hh⟩

/-! ### The read-complete flag -/

/-- Every primitive leaves the read-complete flag alone or clears it (R41). -/
theorem rifClear_stepKeeps : StepKeeps State.RifClear where
  perform s hp h := by
    obtain ⟨a, q, -, e⟩ | ⟨b, q, -, -, e⟩ | ⟨q, -, e⟩ := perform_cases hp <;> rw [e] <;> exact h
  grant s h := (grantTaken_rif s).trans h
  point s h := (resetPoint_rif s).trans h
  pinDir p d s h := (pinSetDirection_rif s p d).trans h
  pinOut p l s h := (pinWrite_rif s p l).trans h
  pinPu p e s h := (pinSetPullup_rif s p e).trans h
  pinRead _ s h := (lineTaken_rif s).trans h
  issueStart _ _ _ := rfl
  issueData _ _ _ := rfl
  issueStop _ _ := rfl
  clearFlags _ _ := rfl
  clear _ h := h
  count _ h := h
  contract _ _ h := h
  hold _ _ _ h := h
  done _ _ h := h
  fail _ _ _ h := h
  divisor _ _ h := h
  enable _ h := h
  forceIdle _ h := h
  binitGhost _ h := h
  disable _ h := h
  delayUs _ _ h := h
  delayMs _ _ h := h
  inner _ _ h := h
  outer _ _ h := h
  busReset _ h := h
  mode _ _ h := h
  drawMode _ h := h
  beginInit _ h := h
  nextEntry _ h := h
  endInit _ h := h
  answer _ _ h := h
  host _ _ h := h
  read _ _ h := h

/-- Settles O56: a reset clears the flag, and every other step keeps it clear. -/
theorem readFlagNeverSet : Obligations.ReadFlagNeverSet := by
  intro s t h he
  cases hr : s.resetIn with
  | true =>
    have ht : t = resetEvent s := by simpa [step, hr] using he.symm
    subst ht
    rfl
  | false => exact rifClear_stepKeeps.step hr h he

end Sys2Proof.Machine
end

section
/-! PROOFS. Memory and queue (20_memory.md): the order of the engine's queue (R94). -/

namespace Sys2Proof.Machine

/-! ### The order of the queue -/

/-- A change that issues and performs nothing, and at most drops queued actions, keeps the order. -/
theorem State.QueueOrder.of_silent {s t : State} (h : s.QueueOrder)
    (hi : issuedActions t.trace = issuedActions s.trace := by simp [issuedActions, Event.issued])
    (hp : performedActions t.trace = performedActions s.trace := by simp [performedActions, Event.performed])
    (hq : t.q.Sublist s.q := by simp) : t.QueueOrder := by
  unfold State.QueueOrder
  rw [hi, hp]
  exact (hq.append_left _).trans h

/-- What is issued is queued behind everything else (R77). -/
theorem State.QueueOrder.of_issue {s t : State} (h : s.QueueOrder) (a : WireAction) (ht : t.trace = s.trace ++ [issueEvent a])
    (hq : t.q = s.q ++ [a]) : t.QueueOrder := by
  have hi : issuedActions [issueEvent a] = [a] := by cases a <;> rfl
  have hp : performedActions [issueEvent a] = [] := by cases a <;> rfl
  unfold State.QueueOrder
  rw [ht, hq, issuedActions_append, performedActions_append, hi, hp, List.append_nil, ← List.append_assoc]
  exact h.append_right _

/-- What is performed is the head of the queue (R78). -/
theorem State.QueueOrder.of_perform {s t : State} (h : s.QueueOrder) {a : WireAction} {q : List WireAction} {e : Event}
    (hs : s.q = a :: q) (ht : t.trace = s.trace ++ [e]) (hq : t.q = q) (hp : e.performed = some a) (hi : e.issued = none) :
    t.QueueOrder := by
  have hi' : issuedActions [e] = [] := by simp [issuedActions, hi]
  have hp' : performedActions [e] = [a] := by simp [performedActions, hp]
  unfold State.QueueOrder at h ⊢
  rw [ht, hq, issuedActions_append, performedActions_append, hi', hp', List.append_nil, List.append_assoc, List.singleton_append,
    ← hs]
  exact h

theorem perform_queueOrder {s : State} (hp : performable s = true) (h : s.QueueOrder) : (perform s).QueueOrder := by
  obtain ⟨a, q, hq, e⟩ | ⟨b, q, hq, -, e⟩ | ⟨q, hq, e⟩ := perform_cases hp <;> rw [e]
  · exact h.of_perform hq rfl rfl (by cases s.busState <;> rfl) (by cases s.busState <;> rfl)
  · exact h.of_perform hq rfl rfl rfl rfl
  · exact h.of_perform hq rfl rfl rfl rfl

/-- Every primitive keeps the order of issue. -/
theorem queueOrder_stepKeeps : StepKeeps State.QueueOrder where
  perform _ hp h := perform_queueOrder hp h
  issueStart a _ h := h.of_issue (.addr a) rfl rfl
  issueData b _ h := h.of_issue (.data b) rfl rfl
  issueStop _ h := h.of_issue .stop rfl rfl
  grant _ h := h.of_silent
  point _ h := h.of_silent
  clear _ h := h.of_silent
  count _ h := h.of_silent
  contract _ _ h := h.of_silent
  hold _ _ _ h := h.of_silent
  done _ _ h := h.of_silent
  fail _ _ _ h := h.of_silent
  divisor _ _ h := h.of_silent
  enable _ h := h.of_silent
  clearFlags _ h := h.of_silent
  forceIdle _ h := h.of_silent
  binitGhost _ h := h.of_silent
  disable _ h := h.of_silent
  pinDir _ _ _ h := h.of_silent
  pinOut _ _ _ h := h.of_silent
  pinPu _ _ _ h := h.of_silent
  pinRead _ _ h := by rw [pinRead_snd]; exact h.of_silent
  delayUs _ _ h := h.of_silent
  delayMs _ _ h := h.of_silent
  inner _ _ h := h.of_silent
  outer _ _ h := h.of_silent
  busReset _ h := h.of_silent
  mode _ _ h := h.of_silent
  drawMode _ h := h.of_silent
  beginInit _ h := h.of_silent
  nextEntry _ h := h.of_silent
  endInit _ h := h.of_silent
  answer _ _ h := h.of_silent
  host _ _ h := h.of_silent
  read _ _ h := h.of_silent rfl rfl (.refl _)

/-- A step under an asserted reset is the reset event (R290). -/
theorem step_asserted {s : State} (h : s.resetIn = true) : step s = .next (resetEvent s) := by simp [step, h]

/-- Settles O55: a reset empties the trace and the queue, and every primitive keeps the order. -/
theorem queueOrderKept : Obligations.QueueOrderKept := by
  intro s t h he
  cases hr : s.resetIn with
  | true =>
    rw [step_asserted hr] at he
    cases he
    exact List.nil_sublist _
  | false => exact queueOrder_stepKeeps.step hr h he

end Sys2Proof.Machine
end

section
/-! PROOFS. The engine's turn (R78, U1), `INIT_ROM` (R72), the command word that a step runs (R93), the pins (R85, R86) and `BusIssue` (R77). -/

namespace Sys2Proof.Machine

/-! ### One granted step -/

/-- An engine granted one step performs the head of its queue (R78, R79). -/
theorem engineTurn_one {s : State} {gs : List Nat} (hp : performable s = true) (he : s.envGrants = 1 :: gs) :
    engineTurn s = perform { s with envGrants := gs } := by
  have hq : s.q ≠ [] := by
    intro hq
    rw [performable_empty hq] at hp
    cases hp
  have hm : min (grantNow s) s.q.length = 1 := by
    have := List.length_pos_iff.mpr hq
    simp only [grantNow, he]
    omega
  have ht : grantTaken s = { s with envGrants := gs } := by simp [grantTaken, he]
  have hp' : performable { s with envGrants := gs } = true := hp
  rw [engineTurn, if_pos hp, hm, ht, performUpTo, if_pos hp', performUpTo]

/-- Settles O15: one granted step performs the head of the queue, and an engine that is off, empty or withheld performs nothing. -/
theorem enginePerformsHead : Obligations.EnginePerformsHead := by
  refine ⟨fun s x q gs hc hr he => ⟨?addrIdle, ?addrBusy, ?data, ?stop⟩, ?still, ?withheld⟩
  case addrIdle =>
    intro hq hb
    rw [engineTurn_one (performable_cons hc hr hq (by simp)) he, perform_addr (s := { s with envGrants := gs }) hq]
    simp [startEvent, hb]
  case addrBusy =>
    intro hq hb
    rw [engineTurn_one (performable_cons hc hr hq (by simp)) he, perform_addr (s := { s with envGrants := gs }) hq]
    simp [startEvent, hb]
  case data =>
    intro hq hb
    rw [engineTurn_one (performable_cons hc hr hq (fun _ _ => hb)) he, perform_data (s := { s with envGrants := gs }) hq]
  case stop =>
    intro hq
    rw [engineTurn_one (performable_cons hc hr hq (by simp)) he, perform_stop (s := { s with envGrants := gs }) hq]
  case still => exact fun s h => h.elim engineTurn_off engineTurn_empty
  case withheld => exact fun s gs hp he => engineTurn_withheld he hp

/-! ### The undefined byte -/

/-- An engine granted an undefined byte gives the operation taken up no meaning (R78, U1). -/
theorem enter_refused {i : Instr} {s : State} {g : Nat} {gs : List Nat} (hs : s.seq = .idle) (hu : atUndefinedByte s = true)
    (he : s.envGrants = (g + 1) :: gs) (body : Stage → State → Out) : enter i s body = .refused .dataWhileBusIdle := by
  have hu' : atUndefinedByte (recordContract i s) = true := hu
  have hg : grantNow (recordContract i s) ≠ 0 := by simp [grantNow, he]
  rw [enter, accept_idle hs, engineGate, if_pos hu', if_neg hg]

/-- An engine withheld before an undefined byte lets the operation begin (R79). -/
theorem enter_withheld {i : Instr} {s : State} {gs : List Nat} (hs : s.seq = .idle) (hu : atUndefinedByte s = true)
    (he : s.envGrants = 0 :: gs) (body : Stage → State → Out) :
    enter i s body = body .start { recordContract i s with envGrants := gs } := by
  have hu' : atUndefinedByte (recordContract i s) = true := hu
  have hg : grantNow (recordContract i s) = 0 := by simp [grantNow, he]
  have ht : grantTaken (recordContract i s) = { recordContract i s with envGrants := gs } := by simp [grantTaken, he]
  rw [enter, accept_idle hs, engineGate, if_pos hu', if_pos hg, ht]

/-- Every operation begins by being taken up, but a `DWSTR` without a terminator, which has no meaning. -/
theorem exec_eq_enter (i : Instr) :
    (∃ body, ∀ s, exec i s = enter i s body) ∨ (i.wellFormed = false ∧ ∀ s, exec i s = .refused .unterminatedString) := by
  cases i
  case dwstr bytes =>
    cases hz : bytes.contains 0x00 with
    | true => exact .inl ⟨_, fun s => by rw [exec, execDwstr, if_pos hz]⟩
    | false => exact .inr ⟨hz, fun s => by rw [exec, execDwstr, hz]; rfl⟩
  all_goals
    exact .inl ⟨_, fun s => by
      simp only [exec, execBinit, execStart, execWrb, execStop, execDis, execEn, execWait, execBrst, execDinit, execWcmd, execScur,
        execSgly, execWchr, execComputeDivisor, execWarr, execDwarr, execIllegal]
      rfl⟩

theorem engineTurn_atUndefinedByte {s : State} (h : atUndefinedByte s = true) : engineTurn s = s := by
  simp [engineTurn, performable, h]

/-- The actions of `DIS` on an engine before an undefined byte, which takes no step between them (R159). -/
theorem runActions_dis_atUndefinedByte {s : State} (hn : s.noReset) (hu : atUndefinedByte s = true) :
    runActions [disableEngine, doneWith .dis] s = doneWith .dis (disableEngine s) := by
  have hn' : (disableEngine s).noReset := hn
  rw [runActions_cons, runAction_none hn, engineTurn_atUndefinedByte hu, runActions_cons, runActions_nil, runAction_rest hn' rfl]

/-- Settles O16: granted, no operation gets past the gate; withheld, `DIS` drops the byte. -/
theorem undefinedByteIsRefused : Obligations.UndefinedByteIsRefused := by
  intro s g gs hs hu he
  refine ⟨fun i hi => ?_, fun hn => ?_⟩
  · obtain ⟨body, hb⟩ | ⟨hw, -⟩ := exec_eq_enter i
    · rw [hb, enter_refused hs hu he]
    · rw [hi] at hw
      cases hw
  · rw [exec, execDis, enter_withheld (s := { s with envGrants := 0 :: gs }) hs hu rfl,
      runActions_dis_atUndefinedByte (by exact hn) (by exact hu)]
    simp [doneWith, disableEngine, emit, recordContract, requires, hs]

/-! ### `INIT_ROM` -/

theorem initLen_eq (c : Config) : initLen c = (c.initMiddle.take 253).length + 2 := by simp [initLen, initTable]

theorem memRead_last (c : Config) : memRead c (initLen c - 1) = some (0, 0x01) := by
  rw [initLen_eq]
  simp [memRead, initTable, entryBytes]

theorem entryBytes_kind (e : InitEntry) : (entryBytes e).1 = 0 ∨ (entryBytes e).1 = 1 := by cases e <;> simp [entryBytes]

/-- Entry `i` of a table listed from address `a` on stands at `a + 2·i`, its kind first (R72). -/
theorem romCells_getElem? (a : Nat) (es : List InitEntry) (i : Nat) :
    (romCells a es)[2 * i]? = es[i]?.map (fun e => (a + 2 * i, (entryBytes e).1)) ∧
    (romCells a es)[2 * i + 1]? = es[i]?.map (fun e => (a + 2 * i + 1, (entryBytes e).2)) := by
  induction es generalizing a i with
  | nil => simp [romCells]
  | cons e es ih =>
    cases i with
    | zero => simp [romCells]
    | succ i =>
      have ha : a + 2 + 2 * i = a + 2 * (i + 1) := by omega
      simpa [romCells, Nat.mul_succ, ha] using ih (a + 2) i

/-- Settles O52, by what the listing of a table holds at an even and at an odd address. -/
theorem initRomLayout : Obligations.InitRomLayout := by
  intro c
  have hlen := initLen_eq c
  have htake : (c.initMiddle.take 253).length ≤ 253 := List.length_take_le ..
  refine ⟨by omega, by omega, rfl, memRead_last c, fun i hi => ?_, fun i hi => ?_, romCells_length 0 _, romCells_wf 0 _⟩
  · rw [memRead, List.getElem?_eq_none hi, Option.map_none]
  · have hget : (initTable c)[i]? = some (initTable c)[i] := List.getElem?_eq_getElem hi
    obtain ⟨hkind, hvalue⟩ := romCells_getElem? 0 (initTable c) i
    rw [hget, Option.map_some, Nat.zero_add] at hkind hvalue
    exact ⟨_, _, by rw [memRead, hget]; rfl, entryBytes_kind _, hkind, hvalue⟩

/-! ### The command word -/

/-- An idle block runs the operation its host's next command word decodes to (R93, R110). -/
theorem step_word {s : State} {w : Word} {rest : List Request} (hr : s.resetIn = false) (hs : s.seq = .idle)
    (hh : s.host = .word w :: rest) : step s = exec (decode w) { s with host := rest } := by
  simp [step, fetch, serve, hr, hs, hh]

/-- Settles O8; the second clause is the first one for the word that was placed. -/
theorem stepRunsDecodedWord : Obligations.StepRunsDecodedWord :=
  ⟨fun _ _ _ hr hs hh => step_word hr hs hh, fun _ _ _ => step_word rfl rfl rfl⟩

/-! ### Pins -/

theorem lineLevel_on {s : State} (h : s.ctrlEnable = true) (p : PinName) (env : Bool) : lineLevel s p env = env := by
  simp [lineLevel, h]

theorem lineLevel_off {s : State} (h : s.ctrlEnable = false) (p : PinName) (env : Bool) :
    lineLevel s p env = (ownLevel (s.pin p) && env) := by
  simp [lineLevel, h]

/-- Settles O12: each primitive by its definition, and the engine's line level by R81. -/
theorem pinPrimitivesWrite : Obligations.PinPrimitivesWrite :=
  ⟨fun _ _ _ => ⟨rfl, rfl, rfl, rfl, rfl, rfl⟩, fun s p a b env h =>
    (lineLevel_on (s := { s with sda := a, scl := b }) h p env).trans (lineLevel_on h p env).symm⟩

/-- A read of a line takes the environment's next answer and records the level (R86). -/
theorem pinRead_eq {s : State} {env : Bool} {ls : List Bool} (p : PinName) (he : s.envLines = env :: ls) :
    pinRead p s = (lineLevel s p env, { s with envLines := ls, trace := s.trace ++ [.pinRead p (lineLevel s p env)] }) := by
  simp [pinRead, envLineAt, lineTaken, emit, he]

theorem ownLevel_input {p : Pin} (h : p.dir = .input) : ownLevel p = true := by simp [ownLevel, h]

theorem ownLevel_output {p : Pin} (h : p.dir = .output) : ownLevel p = p.out := by simp [ownLevel, h]

/-- Settles O13: what the block drives is 1 on a released pin and `OUT` on a driven one. -/
theorem pinReadLevel : Obligations.PinReadLevel := by
  intro s p env ls hc he
  rw [pinRead_eq p he, lineLevel_off hc]
  refine ⟨fun hd => ?_, fun hd => ?_⟩
  · rw [ownLevel_input hd, Bool.true_and]
  · rw [ownLevel_output hd]

/-- Settles O14, by the definition of `BusIssue` for each of the three actions. -/
theorem issueLoadsAndQueues : Obligations.IssueLoadsAndQueues := fun _ _ => ⟨rfl, rfl, rfl⟩

end Sys2Proof.Machine
end

section
/-! PROOFS. The single buffer (R50, R94, R301): what the engine, the polls, each operation and each step keep of it. -/

namespace Sys2Proof.Machine

/-! ### The buffer -/

/-- What may be queued while a transaction is open, and while none is (R301). -/
def QueueFits : Bool → List WireAction → Prop
  | false, q => q = [] ∨ q = [.stop]
  | true, q => q = [] ∨ (∃ a, q = [.addr a]) ∨ (∃ b, q = [.data b]) ∨ (∃ a, q = [.stop, .addr a])

/-- The part of `State.SingleBuffer` about the flags and the queue. -/
structure State.Buffered (s : State) : Prop where
  rif : s.rif = false
  wif : s.wif = true → s.q = []
  queue : QueueFits s.txnOpen s.q

/-- The part of `State.SingleBuffer` about the operation in progress. -/
def State.HeldWell (s : State) : Prop :=
  s.resetIn = false → ∀ i k, s.seq = .waiting i k → heldAt i k = true ∧ (waitsInTransaction i = true → s.txnOpen = true)

/-- Both parts. -/
structure State.Orderly (s : State) : Prop where
  buffered : s.Buffered
  held : s.HeldWell

theorem singleBuffer_iff {s : State} : s.SingleBuffer ↔ s.rif = false ∧ (s.violated = false → s.Orderly) := by
  constructor
  · rintro ⟨hr, h⟩
    refine ⟨hr, fun hv => ?_⟩
    obtain ⟨hwif, hqueue, hheld⟩ := h hv
    refine ⟨⟨hr, hwif, ?_⟩, fun hn i k hs => ?_⟩
    · cases ht : s.txnOpen <;> rw [ht] at hqueue <;> exact hqueue
    · have hheld := hheld hn
      rw [hs] at hheld
      exact hheld
  · rintro ⟨hr, h⟩
    refine ⟨hr, fun hv => ?_⟩
    obtain ⟨⟨-, hwif, hqueue⟩, hheld⟩ := h hv
    refine ⟨hwif, ?_, fun hn => ?_⟩
    · cases ht : s.txnOpen <;> rw [ht] at hqueue <;> exact hqueue
    · cases hs : s.seq with
      | idle => trivial
      | waiting i k => exact hheld hn i k hs

/-- A change that leaves the queue and the transaction alone and raises no flag keeps the buffer. -/
theorem State.Buffered.of_same {s t : State} (h : s.Buffered) (hq : t.q = s.q := by simp)
    (ht : t.txnOpen = s.txnOpen := by simp) (hw : t.wif = s.wif := by simp) (hr : t.rif = s.rif := by simp) : t.Buffered :=
  ⟨hr.trans h.rif, by rw [hw, hq]; exact h.wif, by rw [ht, hq]; exact h.queue⟩

/-- A change that leaves nothing queued keeps the buffer. -/
theorem State.Buffered.of_empty {s : State} (hr : s.rif = false) (hq : s.q = []) : s.Buffered :=
  ⟨hr, fun _ => hq, by rw [hq]; cases s.txnOpen <;> exact .inl rfl⟩

/-- Behind an action that raises a flag nothing is queued. -/
theorem QueueFits.tail_nil {b : Bool} {a : WireAction} {q : List WireAction} (h : QueueFits b (a :: q)) (ha : raisesFlag a = true) :
    q = [] := by
  cases b <;> simp only [QueueFits] at h
  · obtain h | h := h <;> cases h
    cases ha
  · obtain h | ⟨a, h⟩ | ⟨b, h⟩ | ⟨a, h⟩ := h <;> cases h
    · rfl
    · rfl
    · cases ha

/-- What is queued behind a stop fits without it. -/
theorem QueueFits.tail_fits {b : Bool} {q : List WireAction} (h : QueueFits b (.stop :: q)) : QueueFits b q := by
  cases b <;> simp only [QueueFits] at h
  · obtain h | h := h <;> cases h
    exact .inl rfl
  · obtain h | ⟨a, h⟩ | ⟨b, h⟩ | ⟨a, h⟩ := h <;> cases h
    exact .inr (.inl ⟨a, rfl⟩)

/-- The engine takes the one action that raises a flag, or the stop before it (R78). -/
theorem perform_buffered {s : State} (hp : performable s = true) (h : s.Buffered) : (perform s).Buffered := by
  obtain ⟨hr, hw, hf⟩ := h
  obtain ⟨a, q, hq, e⟩ | ⟨b, q, hq, -, e⟩ | ⟨q, hq, e⟩ := perform_cases hp <;> rw [e] <;> rw [hq] at hf hw
  · exact .of_empty hr (hf.tail_nil rfl)
  · exact .of_empty hr (hf.tail_nil rfl)
  · exact ⟨hr, fun h => (nomatch hw h), hf.tail_fits⟩

theorem buffered_pollKeeps : PollKeeps State.Buffered where
  perform _ hp h := perform_buffered hp h
  grant _ h := h.of_same
  point _ h := h.of_same
  clear _ h := h.of_same
  count _ h := h.of_same

/-- Under no asserted reset a raised flag means that nothing is queued. -/
theorem State.Buffered.empty_of_ready {s : State} (h : s.Buffered) (hr : engineReady s = true) : s.q = [] := by
  rw [engineReady, h.rif, Bool.or_false] at hr
  exact h.wif hr

/-! ### Inside a transaction and between two -/

/-- The buffer, with a transaction open (`b = true`) or none (`b = false`), unless a reset has cut the operation short. -/
structure State.Stands (b : Bool) (s : State) : Prop where
  buffered : s.Buffered
  txn : s.resetIn = false → s.txnOpen = b

theorem State.Stands.of_same {b : Bool} {s t : State} (h : s.Stands b) (ht : t.Buffered) (htxn : t.txnOpen = s.txnOpen := by simp)
    (hr : t.resetIn = s.resetIn := by simp) : t.Stands b :=
  ⟨ht, fun e => htxn.trans (h.txn (hr.symm.trans e))⟩

/-- An asserted reset stays asserted at a point. -/
theorem resetIn_of_resetPoint {s : State} (h : (resetPoint s).resetIn = false) : s.resetIn = false := by
  cases hr : s.resetIn with
  | false => rfl
  | true => rw [resetPoint_asserted hr, hr] at h; exact h

theorem stands_pollKeeps (b : Bool) : PollKeeps (State.Stands b) where
  perform s hp h := by
    have hb := perform_buffered hp h.buffered
    obtain ⟨a, q, -, e⟩ | ⟨c, q, -, -, e⟩ | ⟨q, -, e⟩ := perform_cases hp <;> rw [e] at hb ⊢ <;> exact ⟨hb, h.txn⟩
  grant _ h := h.of_same h.buffered.of_same
  point s h := ⟨h.buffered.of_same, fun e => (resetPoint_txnOpen s).trans (h.txn (resetIn_of_resetPoint e))⟩
  clear _ h := h.of_same h.buffered.of_same
  count _ h := h.of_same h.buffered.of_same

/-- After the engine's turn and the point before it, an action runs, unless a reset is asserted (R93, R290). -/
theorem runAction_cases (act : State → State) (s : State) :
    ((resetPoint (engineTurn s)).resetIn = true ∧ runAction act s = resetPoint (engineTurn s)) ∨
    ((resetPoint (engineTurn s)).resetIn = false ∧ runAction act s = act (resetPoint (engineTurn s))) := by
  unfold runAction
  dsimp only
  split
  · exact .inl ⟨‹_›, rfl⟩
  · exact .inr ⟨Bool.eq_false_iff.mpr ‹_›, rfl⟩

/-- An asserted reset leaves the transaction as it may be. -/
theorem State.Stands.of_asserted {b : Bool} {s : State} (h : s.Buffered) (hr : s.resetIn = true) : s.Stands b :=
  ⟨h, fun e => by rw [hr] at e; cases e⟩

/-- An action that keeps the buffer, and opens or closes the transaction or leaves it as it is. -/
theorem State.Stands.act {b b' : Bool} {act : State → State} {s : State} (h : s.Stands b)
    (ha : ∀ u, u.Stands b → u.resetIn = false → (act u).Stands b') : (runAction act s).Stands b' := by
  have hu := (stands_pollKeeps b).point _ ((stands_pollKeeps b).turn _ h)
  obtain ⟨hr, e⟩ | ⟨hr, e⟩ := runAction_cases act s <;> rw [e]
  · exact .of_asserted hu.buffered hr
  · exact ha _ hu hr

/-- The same after a wait, when nothing is queued any more. -/
theorem State.Stands.act_ready {b b' : Bool} {act : State → State} {s : State} (h : s.Stands b)
    (hw : s.resetIn = true ∨ engineReady s = true)
    (ha : ∀ u, u.Stands b → u.resetIn = false → u.q = [] → (act u).Stands b') : (runAction act s).Stands b' := by
  have hu := (stands_pollKeeps b).point _ ((stands_pollKeeps b).turn _ h)
  obtain ⟨hr, e⟩ | ⟨hr, e⟩ := runAction_cases act s <;> rw [e]
  · exact .of_asserted hu.buffered hr
  · have hn : s.resetIn = false := (engineTurn_resetIn s).symm.trans (resetIn_of_resetPoint hr)
    have hq : s.q = [] := h.buffered.empty_of_ready (hw.resolve_left (by simp [hn]))
    exact ha _ hu hr ((resetPoint_q _).trans (engineTurn_queue_nil hq))

/-- A start goes behind at most one stop (R154, R301). -/
theorem openTransaction_stands {a : Byte} {s : State} (h : s.Stands false) (hn : s.resetIn = false) :
    (openTransaction a s).Stands true := by
  have hq := h.buffered.queue
  rw [h.txn hn] at hq
  refine ⟨⟨rfl, fun e => (nomatch e), ?_⟩, fun _ => rfl⟩
  show QueueFits true (s.q ++ [.addr a])
  obtain hq | hq := hq <;> rw [hq]
  · exact .inr (.inl ⟨a, rfl⟩)
  · exact .inr (.inr (.inr ⟨a, rfl⟩))

/-- A byte is issued into an empty queue, inside a transaction (R155). -/
theorem busIssue_data_stands {b : Byte} {s : State} (h : s.Stands true) (hn : s.resetIn = false) (hq : s.q = []) :
    (busIssue (.data b) s).Stands true := by
  refine ⟨⟨rfl, fun e => (nomatch e), ?_⟩, fun _ => h.txn hn⟩
  show QueueFits s.txnOpen (s.q ++ [.data b])
  rw [h.txn hn, hq]
  exact .inr (.inr (.inl ⟨b, rfl⟩))

/-- A stop is issued into an empty queue, and closes the transaction (R157). -/
theorem closeTransaction_stands {s : State} (hq : s.q = []) : (closeTransaction s).Stands false := by
  refine ⟨⟨rfl, fun e => (nomatch e), ?_⟩, fun _ => rfl⟩
  show QueueFits false (s.q ++ [.stop])
  rw [hq]
  exact .inr rfl

/-! ### How an operation ends, or is held -/

theorem State.Orderly.of_idle {s : State} (h : s.Buffered) (hs : s.resetIn = false → s.seq = .idle) : s.Orderly :=
  ⟨h, fun hr i k hw => by rw [hs hr] at hw; cases hw⟩

/-- A last action that ends the operation. -/
theorem State.Buffered.act_last {act : State → State} {s : State} (h : s.Buffered) (hb : ∀ u, u.Buffered → (act u).Buffered)
    (hs : ∀ u, (act u).seq = .idle) : (runAction act s).Orderly := by
  refine .of_idle (buffered_pollKeeps.action hb _ h) fun hr => ?_
  obtain ⟨hr', e⟩ | ⟨-, e⟩ := runAction_cases act s <;> rw [e] at hr ⊢
  · rw [hr'] at hr
    cases hr
  · exact hs _

theorem State.Buffered.done {s : State} (h : s.Buffered) (op : OpName) : (runAction (doneWith op) s).Orderly :=
  h.act_last (fun _ h => h.of_same) fun _ => rfl

theorem State.Buffered.fail {s : State} (h : s.Buffered) (op : OpName) (c : ResultCode) : (runAction (failWith op c) s).Orderly :=
  h.act_last (fun _ h => h.of_same) fun _ => rfl

/-- A failed poll ends the operation or holds it in the wait (R158). -/
theorem State.Buffered.pollFailed {s : State} (h : s.Buffered) (op : OpName) {i : Instr} {k : Stage} (hk : heldAt i k = true)
    (ht : waitsInTransaction i = true → s.txnOpen = true) : (pollFailed op i k s).Orderly := by
  obtain e | e := pollFailed_cases op i k s <;> rw [e]
  · exact .of_idle h.of_same fun _ => rfl
  · refine ⟨h.of_same, fun _ j l hw => ?_⟩
    cases hw
    exact ⟨hk, ht⟩

/-- The same inside a transaction. -/
theorem State.Stands.pollFailed {s : State} (h : s.Stands true) (hr : s.resetIn = false) (op : OpName) {i : Instr} {k : Stage}
    (hk : heldAt i k = true) : (pollFailed op i k s).Orderly :=
  h.buffered.pollFailed op hk fun _ => h.txn hr

/-! ### A byte, and a display transaction -/

theorem writeByte_orderly {b : Byte} {i : Instr} {k : Stage} {s t : State} {next : State → Out} (h : s.Stands true)
    (hi : heldAt i .wait1 = true) (hn : ∀ u, u.Stands true → u.Orderly → next u = .next t → t.Orderly)
    (he : writeByte b i k s next = .next t) : t.Orderly := by
  unfold writeByte at he
  obtain ⟨u, e, hw, hu⟩ | ⟨u, e, hr, -, hu⟩ := (stands_pollKeeps true).poll .wait1 (decide (k = .start)) s h <;> rw [e] at he
  · simp only at he
    split at he
    · have hd := hu.act_ready (act := busIssue (.data b)) hw fun _ => busIssue_data_stands
      exact hn _ (hd.act fun _ h _ => h.of_same h.buffered.of_same) (hd.buffered.done .wrb) he
    · cases he
  · cases he
    exact hu.pollFailed hr .wrb hi

/-- How a display transaction can stand: through, and closed; or held in one of its waits, open. -/
def Flow.Framed : Flow → Prop
  | .go u => u.Stands false
  | .blocked k u => k ≠ .start ∧ u.resetIn = false ∧ u.Stands true

/-- One wait of a display transaction, and what follows it. -/
theorem Flow.framed_wait {k : Stage} {fresh : Bool} {s : State} {next : State → Flow} (h : s.Stands true) (hk : k ≠ .start)
    (hn : ∀ u, u.Stands true → (u.resetIn = true ∨ engineReady u = true) → (next u).Framed) :
    ((waitIdle k fresh s).andThen next).Framed := by
  obtain ⟨u, e, hw, hu⟩ | ⟨u, e, hr, -, hu⟩ := (stands_pollKeeps true).poll k fresh s h <;> rw [e]
  · exact hn u hu hw
  · exact ⟨hk, hr, hu⟩

/-- A display transaction opens before its first wait, and closes after its last (R219). -/
theorem frame_framed (sel x : Byte) {k : Stage} {s : State} (h : s.Stands (decide (k ≠ .start))) : (frame sel x k s).Framed := by
  have issue : ∀ (b : Byte) (u : State), u.Stands true → (u.resetIn = true ∨ engineReady u = true) →
      (runActions [busIssue (.data b)] u).Stands true := fun b u hu hw => hu.act_ready hw fun _ => busIssue_data_stands
  have after3 : ∀ u, u.Stands true → (u.resetIn = true ∨ engineReady u = true) → (frameAfterWait3 u).Framed := fun u hu hw =>
    hu.act_ready (act := closeTransaction) hw fun _ _ _ => closeTransaction_stands
  have after2 : ∀ u, u.Stands true → (u.resetIn = true ∨ engineReady u = true) → (frameAfterWait2 x u).Framed := fun u hu hw =>
    Flow.framed_wait (issue x u hu hw) (by decide) after3
  have after1 : ∀ u, u.Stands true → (u.resetIn = true ∨ engineReady u = true) → (frameAfterWait1 sel x u).Framed := fun u hu hw =>
    Flow.framed_wait (issue sel u hu hw) (by decide) after2
  cases k with
  | start => exact Flow.framed_wait (h.act (act := openTransaction addrByte) fun _ => openTransaction_stands) (by decide) after1
  | wait1 => exact Flow.framed_wait h (by decide) after1
  | wait2 => exact Flow.framed_wait h (by decide) after2
  | wait3 => exact Flow.framed_wait h (by decide) after3

theorem framerOp_orderly {op : OpName} {i : Instr} {sel x : Byte} {f g : State → State} {k : Stage} {s : State}
    (hf : ∀ b u, u.Stands b → (f u).Stands b) (hg : ∀ u, u.Buffered → (g u).Buffered)
    (hi : ∀ k, k ≠ .start → heldAt i k = true) (h : s.Stands (decide (k ≠ .start))) :
    (framerOp op i sel x f g k s).Orderly := by
  have hs : (if k = .start then f s else s).Stands (decide (k ≠ .start)) := by
    split
    · exact hf _ _ h
    · exact h
  have hd := frame_framed sel x hs
  unfold framerOp
  cases e : frame sel x k (if k = .start then f s else s) with
  | go u =>
    rw [e] at hd
    exact (buffered_pollKeeps.action hg _ hd.buffered).done op
  | blocked j u =>
    rw [e] at hd
    obtain ⟨hj, hr, hu⟩ := hd
    exact hu.pollFailed hr op (hi j hj)

/-! ### Lists of bytes, and the Init Sequence -/

theorem warrSteps_orderly {t : State} : ∀ bs k s, s.Orderly → (bs ≠ [] → s.Stands true) → warrSteps bs k s = .next t →
    t.Orderly := by
  intro bs
  induction bs with
  | nil => intro k s h _ he; cases he; exact h
  | cons b bs ih =>
    intro k s _ hs he
    exact writeByte_orderly (hs (by simp)) rfl (fun u hu ho e => ih _ _ ho (fun _ => hu) e) he

/-- `rest` names an operation that can be held, over every list of bytes with `Q`. -/
theorem wchrSteps_orderly {rest : List Byte → Instr} {Q : Byte → Prop}
    (hrest : ∀ b bs k, (∀ c ∈ b :: bs, Q c) → k ≠ .start → heldAt (rest (b :: bs)) k = true) :
    ∀ bs k s, (∀ c ∈ bs, Q c) → s.Orderly → s.Stands (decide (k ≠ .start)) → (wchrSteps rest bs k s).Orderly := by
  intro bs
  induction bs with
  | nil => intro k s _ h _; exact h
  | cons b bs ih =>
    intro k s hQ _ hs
    have hd := frame_framed selData b hs
    rw [wchrSteps]
    cases e : frame selData b k s with
    | go u =>
      rw [e] at hd
      exact ih _ _ (fun c hc => hQ c (List.mem_cons_of_mem _ hc)) (hd.buffered.done .wchr)
        (State.Stands.act hd fun _ h _ => h.of_same h.buffered.of_same)
    | blocked j u =>
      rw [e] at hd
      obtain ⟨hj, hr, hu⟩ := hd
      exact hu.pollFailed hr .wchr (hrest b bs j hQ hj)

theorem initSteps_orderly : ∀ es k s, (k ≠ .start → ∃ v es', es = .command v :: es') → s.Stands (decide (k ≠ .start)) →
    (initSteps es k s).Orderly := by
  intro es
  induction es with
  | nil =>
    intro k s _ hs
    exact (buffered_pollKeeps.action (act := endInit) (fun _ h => h.of_same) _ hs.buffered).done .dinit
  | cons e es ih =>
    intro k s hk hs
    have next : ∀ (act : State → State) (u : State), (∀ v, v.Stands false → (act v).Stands false) → u.Stands false →
        (initSteps es .start (runActions [act, nextEntry] u)).Orderly := fun act u ha hu =>
      ih _ _ (fun h => absurd rfl h) ((hu.act fun v hv _ => ha v hv).act fun _ h _ => h.of_same h.buffered.of_same)
    cases e with
    | wait v =>
      have hstart : k = .start := by
        by_contra hne
        obtain ⟨v, es', e⟩ := hk hne
        cases e
      subst hstart
      exact next _ _ (fun _ h => h.of_same h.buffered.of_same) hs
    | command v =>
      have hd := frame_framed selCommand v hs
      rw [initSteps]
      cases e : frame selCommand v k s with
      | go u =>
        rw [e] at hd
        exact next _ _ (fun _ h => h.of_same h.buffered.of_same) hd
      | blocked j u =>
        rw [e] at hd
        obtain ⟨hj, hr, hu⟩ := hd
        exact hu.pollFailed hr .dinit (decide_eq_true hj)

/-! ### The bus recovery is a list of actions -/

/-- The actions that a bus recovery is made of, but for its end (R190 to R195); none of them issues anything. -/
inductive RecoveryAction : (State → State) → Prop
  | disable : RecoveryAction disableEngine
  | enable : RecoveryAction enableEngine
  | forceIdle : RecoveryAction forceIdle
  | busReset : RecoveryAction busResetDone
  | pinDir (p : PinName) (d : PinDir) : RecoveryAction (pinSetDirection p d)
  | pinOut (p : PinName) (l : Bool) : RecoveryAction (pinWrite p l)
  | pinPu (p : PinName) (e : Bool) : RecoveryAction (pinSetPullup p e)
  | read : RecoveryAction fun s => (pinRead .sda s).2
  | delay : RecoveryAction halfPeriod
  | clearInner : RecoveryAction clearInner
  | countPulse : RecoveryAction countPulse
  | clearOuter : RecoveryAction clearOuter
  | countAttempt : RecoveryAction countAttempt

/-- Some such actions lead from `s` to `t`. -/
def RecoveryRun (s t : State) : Prop := ∃ acts, (∀ act ∈ acts, RecoveryAction act) ∧ runActions acts s = t

theorem RecoveryRun.refl (s : State) : RecoveryRun s s := ⟨[], by simp, rfl⟩

theorem RecoveryRun.trans {s t u : State} (h : RecoveryRun s t) (h' : RecoveryRun t u) : RecoveryRun s u := by
  obtain ⟨as, ha, rfl⟩ := h
  obtain ⟨bs, hb, rfl⟩ := h'
  exact ⟨as ++ bs, List.forall_mem_append.mpr ⟨ha, hb⟩, runActions_append as bs s⟩

theorem RecoveryRun.actions {s t : State} (h : RecoveryRun s t) {acts : List (State → State)}
    (ha : ∀ act ∈ acts, RecoveryAction act) : RecoveryRun s (runActions acts t) :=
  h.trans ⟨acts, ha, rfl⟩

/-- A sample of the data line is an action that reads it (R86, R290). -/
theorem readData_snd (s : State) : (readData s).2 = runAction (fun u => (pinRead .sda u).2) s := by
  unfold readData
  obtain ⟨hr, e⟩ | ⟨hr, e⟩ := runAction_cases (fun u => (pinRead .sda u).2) s <;> rw [e] <;> simp [hr]

theorem RecoveryRun.readData {s t : State} (h : RecoveryRun s t) : RecoveryRun s (readData t).2 := by
  rw [readData_snd]
  exact h.actions (acts := [_]) (by simpa using .read)

theorem RecoveryRun.pulse {s t : State} (h : RecoveryRun s t) : RecoveryRun s (pulse t) := by
  refine h.actions ?_
  simp only [List.forall_mem_cons]
  exact ⟨.pinOut _ _, .delay, .pinOut _ _, .delay, .countPulse, by simp⟩

theorem RecoveryRun.pulseLoop {s : State} : ∀ n t, RecoveryRun s t → RecoveryRun s (pulseLoop n t) := by
  intro n
  induction n with
  | zero => intro t h; exact h
  | succ n ih =>
    intro t h
    rw [Machine.pulseLoop]
    split
    · exact h.pulse.readData
    · exact ih _ h.pulse.readData

/-- One attempt, its count included (R193, R194). -/
theorem RecoveryRun.attempt {s t : State} (h : RecoveryRun s t) :
    RecoveryRun s (runActions [Machine.countAttempt] (manualStop (pulses t))) := by
  have hpulses : RecoveryRun s (pulses t) := by
    refine RecoveryRun.pulseLoop _ _ (h.actions ?_)
    simp only [List.forall_mem_cons]
    exact ⟨.pinOut _ _, .pinDir _ _, .clearInner, by simp⟩
  have hstop : RecoveryRun s (manualStop (pulses t)) := by
    refine hpulses.actions ?_
    simp only [List.forall_mem_cons]
    exact ⟨.pinOut _ _, .delay, .pinOut _ _, .pinDir _ _, .delay, .pinOut _ _, .delay, .pinDir _ _, .delay, by simp⟩
  exact hstop.actions (by simpa using .countAttempt)

theorem RecoveryRun.attemptLoop {s : State} : ∀ n t, RecoveryRun s t → RecoveryRun s (attemptLoop n t).2 := by
  intro n
  induction n with
  | zero => intro t h; exact h
  | succ n ih =>
    intro t h
    rw [Machine.attemptLoop]
    split
    · exact h.readData
    · exact ih _ h.readData.attempt

/-- `BRST` runs such actions, whatever the lines do, and then ends `OK` or `RECOVERY_EXHAUSTED` (R190, R195). -/
theorem recover_cases (s : State) :
    ∃ u, RecoveryRun s u ∧
      (recover s = runAction (doneWith .brst) u ∨ recover s = runAction (failWith .brst .recoveryExhausted) u) := by
  have hstep1 : RecoveryRun s (recoveryStep1 s) := by
    refine (RecoveryRun.refl s).actions ?_
    simp only [List.forall_mem_cons]
    exact ⟨.disable, .pinPu _ _, .pinPu _ _, .pinDir _ _, .pinDir _ _, by simp⟩
  have hloop := RecoveryRun.attemptLoop recoveryOuterMax _ (hstep1.actions (acts := [clearOuter]) (by simpa using .clearOuter))
  refine ⟨_, hloop.actions (acts := enableActions ++ [busResetDone]) ?_, ?_⟩
  · simp only [enableActions, List.cons_append, List.nil_append, List.forall_mem_cons]
    exact ⟨.enable, .pinDir _ _, .pinDir _ _, .forceIdle, .busReset, by simp⟩
  · unfold recover
    dsimp only
    split
    · exact .inl rfl
    · exact .inr rfl

theorem disableEngine_buffered {s : State} (h : s.Buffered) : (disableEngine s).Buffered := .of_empty h.rif rfl

theorem RecoveryAction.buffered {act : State → State} (ha : RecoveryAction act) {s : State} (h : s.Buffered) : (act s).Buffered := by
  cases ha
  case disable => exact disableEngine_buffered h
  case read =>
    show (pinRead .sda s).2.Buffered
    rw [pinRead_snd]
    exact h.of_same
  all_goals exact h.of_same

theorem recover_orderly {s : State} (h : s.Buffered) : (recover s).Orderly := by
  obtain ⟨u, ⟨acts, ha, rfl⟩, e⟩ := recover_cases s
  have hu := buffered_pollKeeps.actions acts (fun act hm _ h => (ha act hm).buffered h) s h
  obtain e | e := e <;> rw [e]
  · exact hu.done _
  · exact hu.fail _ _

/-! ### Taking up an operation -/

/-- What is so where the body of operation `i` begins at `k`, in a run that has kept every contract. -/
structure Entered (i : Instr) (k : Stage) (u : State) : Prop where
  orderly : u.Orderly
  fresh : k = .start → requires i u = true
  resumed : k ≠ .start → heldAt i k = true ∧ (waitsInTransaction i = true → u.txnOpen = true)

theorem requires_recordContract (i : Instr) (s : State) : requires i (recordContract i s) = requires i s := by cases i <;> rfl

theorem requires_grantTaken (i : Instr) (s : State) : requires i (grantTaken s) = requires i s := by
  unfold grantTaken
  split <;> cases i <;> rfl

theorem not_heldAt_start (i : Instr) : heldAt i .start = false := by cases i <;> simp [heldAt]

theorem State.Orderly.of_same {s t : State} (h : s.Orderly) (hb : t.Buffered) (hs : t.seq = s.seq := by simp)
    (hr : t.resetIn = false → s.resetIn = false := by simp) (ht : t.txnOpen = s.txnOpen := by simp) : t.Orderly :=
  ⟨hb, fun e i k hw => by rw [ht]; exact h.held (hr e) i k (hs.symm.trans hw)⟩

theorem orderly_pollKeeps : PollKeeps State.Orderly where
  perform s hp h := by
    have hb := perform_buffered hp h.buffered
    obtain ⟨a, q, -, e⟩ | ⟨c, q, -, -, e⟩ | ⟨q, -, e⟩ := perform_cases hp <;> rw [e] at hb ⊢ <;> exact h.of_same hb
  grant _ h := h.of_same h.buffered.of_same
  point _ h := h.of_same h.buffered.of_same (hr := resetIn_of_resetPoint)
  clear _ h := h.of_same h.buffered.of_same
  count _ h := h.of_same h.buffered.of_same

theorem Entered.grantTaken {i : Instr} {k : Stage} {u : State} (h : Entered i k u) : Entered i k (grantTaken u) where
  orderly := orderly_pollKeeps.grant _ h.orderly
  fresh hk := (requires_grantTaken i u).trans (h.fresh hk)
  resumed hk := by rw [grantTaken_txnOpen]; exact h.resumed hk

/-- An operation that answers ran its body from a state with what `Entered` says. -/
theorem enter_entered {i : Instr} {s t : State} {body : Stage → State → Out} (h : s.Orderly) (hr : s.resetIn = false)
    (hreq : s.seq = .idle → requires i s = true) (he : enter i s body = .next t) :
    ∃ k u, body k u = .next t ∧ Entered i k u ∧ u.cfg = s.cfg ∧ u.dcIp = s.dcIp ∧ (k ≠ .start → s.seq = .waiting i k) := by
  obtain ⟨k, u₀, u, hbody, hu, hcase⟩ := enter_next he
  have h₀ : Entered i k u₀ ∧ u₀.cfg = s.cfg ∧ u₀.dcIp = s.dcIp ∧ (k ≠ .start → s.seq = .waiting i k) := by
    obtain ⟨hs, rfl, rfl⟩ | ⟨hs, rfl⟩ := hcase
    · exact ⟨⟨h.of_same h.buffered.of_same, fun _ => (requires_recordContract i s).trans (hreq hs), fun hk => absurd rfl hk⟩,
        rfl, rfl, fun hk => absurd rfl hk⟩
    · have hheld := h.held hr i k hs
      have hk : k ≠ .start := by
        rintro rfl
        rw [not_heldAt_start] at hheld
        cases hheld.1
      exact ⟨⟨h, fun e => absurd e hk, fun _ => hheld⟩, rfl, rfl, fun _ => hs⟩
  obtain ⟨hent, hcfg, hip, hseq⟩ := h₀
  obtain rfl | rfl := hu
  · exact ⟨k, _, hbody, hent, hcfg, hip, hseq⟩
  · exact ⟨k, _, hbody, hent.grantTaken, by simp [hcfg], by simp [hip], hseq⟩

/-- An operation that is never held is entered at its start. -/
theorem Entered.at_start {i : Instr} {k : Stage} {u : State} (h : Entered i k u) (hi : ∀ k, heldAt i k = false) : k = .start := by
  by_contra hk
  obtain ⟨hheld, -⟩ := h.resumed hk
  rw [hi] at hheld
  cases hheld

/-- An operation that opens its own transaction starts outside one and resumes inside one. -/
theorem Entered.stands_frame {i : Instr} {k : Stage} {u : State} (h : Entered i k u) (hreq : requires i u = true → u.txnOpen = false)
    (hi : waitsInTransaction i = true) : u.Stands (decide (k ≠ .start)) := by
  refine ⟨h.orderly.buffered, fun _ => ?_⟩
  by_cases hk : k = .start
  · rw [hreq (h.fresh hk), hk]; rfl
  · rw [(h.resumed hk).2 hi, decide_eq_true hk]

/-- An operation that needs an open transaction has one, whether it starts or resumes. -/
theorem Entered.stands_open {i : Instr} {k : Stage} {u : State} (h : Entered i k u) (hreq : requires i u = true → u.txnOpen = true)
    (hi : waitsInTransaction i = true) : u.Stands true := by
  refine ⟨h.orderly.buffered, fun _ => ?_⟩
  by_cases hk : k = .start
  · exact hreq (h.fresh hk)
  · exact (h.resumed hk).2 hi

theorem txnOpen_of_startAllowed {s : State} (h : startAllowed s = true) : s.txnOpen = false := by
  simp only [startAllowed, Bool.and_eq_true, Bool.not_eq_true'] at h
  exact h.2

theorem txnOpen_of_frameAllowed {s : State} (h : frameAllowed s = true) : s.txnOpen = false :=
  txnOpen_of_startAllowed (Bool.and_eq_true_iff.mp h).1

theorem txnOpen_of_requires_dinit {s : State} (h : requires .dinit s = true) : s.txnOpen = false := by
  simp only [requires, Bool.and_eq_true, Bool.not_eq_true'] at h
  obtain ⟨⟨-, htxn⟩, -⟩ := h
  exact htxn

/-- A held `DINIT` stands at a command entry (R231). -/
theorem State.InitProgress.dinit_entry {s : State} {k : Stage} (h : s.InitProgress) (hr : s.resetIn = false)
    (hs : s.seq = .waiting .dinit k) : ∃ v es, (initTable s.cfg).drop s.dcIp.toNat = .command v :: es := by
  obtain ⟨-, hheld⟩ := h
  have hheld := hheld hr
  rw [hs] at hheld
  obtain ⟨-, v, hv⟩ := hheld.2 rfl
  obtain ⟨hlt, hv⟩ := List.getElem?_eq_some_iff.mp hv
  exact ⟨v, _, by rw [List.drop_eq_getElem_cons hlt, hv]⟩

theorem modeAfterCommand_stands {b : Bool} {c : Byte} {s : State} (h : s.Stands b) : (modeAfterCommand c s).Stands b := by
  unfold modeAfterCommand
  split
  · exact h.of_same h.buffered.of_same
  · exact h

/-! ### Each operation -/

/-- An operation issued with its contract kept, or going on, keeps the single buffer. -/
theorem exec_orderly {i : Instr} {s t : State} (h : s.Orderly) (hr : s.resetIn = false) (hinit : s.InitProgress)
    (hreq : s.seq = .idle → requires i s = true) (he : exec i s = .next t) : t.Orderly := by
  have entered : ∀ {body}, enter i s body = .next t → _ := fun he => enter_entered h hr hreq he
  cases i with
  | binit d =>
    obtain ⟨k, u, e, hu, -⟩ := entered (by simpa only [exec, execBinit] using he)
    cases e
    refine (buffered_pollKeeps.actions [setDivisor d, enableEngine, clearFlags, forceIdle, binitGhost] ?_ u hu.orderly.buffered).done
      .binit
    simp only [List.forall_mem_cons]
    exact ⟨fun _ h => h.of_same, fun _ h => h.of_same, fun _ h => ⟨rfl, fun e => (nomatch e), h.queue⟩, fun _ h => h.of_same,
      fun _ h => .of_empty h.rif rfl, by simp⟩
  | start a =>
    obtain ⟨k, u, e, hu, -⟩ := entered (by simpa only [exec, execStart] using he)
    cases e
    have hk := hu.at_start fun _ => by simp [heldAt]
    have hreq := (Bool.and_eq_true_iff.mp (hu.fresh hk)).1
    have hs : u.Stands false := ⟨hu.orderly.buffered, fun _ => txnOpen_of_startAllowed hreq⟩
    exact (hs.act (act := openTransaction a) fun _ => openTransaction_stands).buffered.done .start
  | wrb b =>
    obtain ⟨k, u, e, hu, -⟩ := entered (by simpa only [exec, execWrb] using he)
    exact writeByte_orderly (hu.stands_open id rfl) rfl (fun v _ hv e => by cases e; exact hv) e
  | stop =>
    obtain ⟨k, u, e, hu, -⟩ := entered (by simpa only [exec, execStop] using he)
    obtain ⟨v, e', hw, hv⟩ | ⟨v, e', hn, -, hv⟩ :=
      (stands_pollKeeps true).poll .wait1 (decide (k = .start)) u (hu.stands_open id rfl) <;> simp only [e'] at e
    · split at e
      · cases e
        exact (hv.act_ready (act := closeTransaction) hw fun _ _ _ => closeTransaction_stands).buffered.done .stop
      · cases e
    · cases e
      exact hv.pollFailed hn .stop rfl
  | dis =>
    obtain ⟨k, u, e, hu, -⟩ := entered (by simpa only [exec, execDis] using he)
    cases e
    exact (buffered_pollKeeps.action (fun _ => disableEngine_buffered) u hu.orderly.buffered).done .dis
  | en =>
    obtain ⟨k, u, e, hu, -⟩ := entered (by simpa only [exec, execEn] using he)
    cases e
    refine (buffered_pollKeeps.actions enableActions ?_ u hu.orderly.buffered).done .en
    simp only [enableActions, List.forall_mem_cons]
    exact ⟨fun _ h => h.of_same, fun _ h => h.of_same, fun _ h => h.of_same, fun _ h => h.of_same, by simp⟩
  | wait =>
    obtain ⟨k, u, e, hu, -⟩ := entered (by simpa only [exec, execWait] using he)
    obtain ⟨v, e', -, hv⟩ | ⟨v, e', -, -, hv⟩ :=
      buffered_pollKeeps.poll .wait1 (decide (k = .start)) u hu.orderly.buffered <;> simp only [e'] at e <;> cases e
    · exact hv.done .wait
    · exact hv.pollFailed .wait rfl fun e => (nomatch e)
  | brst =>
    obtain ⟨k, u, e, hu, -⟩ := entered (by simpa only [exec, execBrst] using he)
    rw [← Host.Outcome.next.inj e]
    exact recover_orderly hu.orderly.buffered
  | dinit =>
    obtain ⟨k, u, e, hu, hcfg, hip, hseq⟩ := entered (by simpa only [exec, execDinit] using he)
    have hs := hu.stands_frame txnOpen_of_requires_dinit rfl
    by_cases hk : k = .start
    · subst hk
      cases e
      exact initSteps_orderly _ _ _ (fun h => absurd rfl h) (hs.act fun _ h _ => h.of_same h.buffered.of_same)
    · have hentry := hinit.dinit_entry hr (hseq hk)
      rw [← hcfg, ← hip] at hentry
      have ht : t = initSteps ((initTable u.cfg).drop u.dcIp.toNat) k u := by
        cases k
        case start => exact absurd rfl hk
        all_goals
          simp only at e
          split at e <;> cases e
          rfl
      rw [ht]
      exact initSteps_orderly _ _ _ (fun _ => hentry) hs
  | wcmd c =>
    obtain ⟨k, u, e, hu, -⟩ := entered (by simpa only [exec, execWcmd] using he)
    cases e
    exact framerOp_orderly (fun _ _ => modeAfterCommand_stands) (fun _ h => h) (fun _ hk => decide_eq_true hk)
      (hu.stands_frame txnOpen_of_frameAllowed rfl)
  | scur o =>
    obtain ⟨k, u, e, hu, -⟩ := entered (by simpa only [exec, execScur] using he)
    cases e
    exact framerOp_orderly (fun _ _ h => h.of_same h.buffered.of_same) (fun _ h => h.of_same) (fun _ hk => decide_eq_true hk)
      (hu.stands_frame (fun h => txnOpen_of_frameAllowed (Bool.and_eq_true_iff.mp h).1) rfl)
  | sgly o =>
    obtain ⟨k, u, e, hu, -⟩ := entered (by simpa only [exec, execSgly] using he)
    cases e
    exact framerOp_orderly (fun _ _ h => h.of_same h.buffered.of_same) (fun _ h => h.of_same) (fun _ hk => decide_eq_true hk)
      (hu.stands_frame (fun h => txnOpen_of_frameAllowed (Bool.and_eq_true_iff.mp h).1) rfl)
  | wchr b =>
    obtain ⟨k, u, e, hu, -⟩ := entered (by simpa only [exec, execWchr] using he)
    cases e
    exact framerOp_orderly (fun _ _ h => h) (fun _ h => h) (fun _ hk => decide_eq_true hk)
      (hu.stands_frame txnOpen_of_frameAllowed rfl)
  | computeDivisor cpu bus rise =>
    obtain ⟨k, u, e, hu, -⟩ := entered (by simpa only [exec, execComputeDivisor] using he)
    cases e
    exact orderly_pollKeeps.action (act := giveAnswer _) (fun _ h => h.of_same h.buffered.of_same) u hu.orderly
  | warr bs =>
    obtain ⟨k, u, e, hu, -⟩ := entered (by simpa only [exec, execWarr] using he)
    refine warrSteps_orderly bs k u hu.orderly (fun hne => hu.stands_open (fun h => ?_) rfl) e
    simpa [requires, hne] using h
  | dwarr bs =>
    obtain ⟨k, u, e, hu, -⟩ := entered (by simpa only [exec, execDwarr] using he)
    cases e
    exact wchrSteps_orderly (Q := fun _ => True) (fun _ _ _ _ hk => by simpa [heldAt] using hk) bs k u (fun _ _ => trivial) hu.orderly
      (hu.stands_frame txnOpen_of_frameAllowed rfl)
  | dwstr bs =>
    simp only [exec, execDwstr] at he
    split at he
    · obtain ⟨k, u, e, hu, -⟩ := entered he
      cases e
      refine wchrSteps_orderly (Q := fun b => b ≠ 0x00) (fun b bs k hQ hk => ?_) _ k u (fun c hc => ?_) hu.orderly
        (hu.stands_frame (fun h => txnOpen_of_frameAllowed (Bool.and_eq_true_iff.mp h).1) rfl)
      · have hb : b ≠ 0x00 := hQ b List.mem_cons_self
        simpa [heldAt, stringBody, hk] using hb
      · simpa using List.mem_takeWhile_imp hc
    · cases he
  | illegal w =>
    obtain ⟨k, u, e, hu, -⟩ := entered (by simpa only [exec, execIllegal] using he)
    cases e
    exact hu.orderly.buffered.fail _ _

/-! ### Every step -/

theorem recordContract_idem (i : Instr) (s : State) : recordContract i (recordContract i s) = recordContract i s := by
  have h := requires_recordContract i s
  unfold recordContract at h ⊢
  simp [h]

/-- An idle block that has recorded whether the contract holds runs the operation as it would have without. -/
theorem exec_recordContract {i : Instr} {s : State} (h : s.seq = .idle) : exec i (recordContract i s) = exec i s := by
  have h' : (recordContract i s).seq = .idle := h
  obtain ⟨body, hb⟩ | ⟨-, hb⟩ := exec_eq_enter i
  · rw [hb, hb, enter, enter, accept_idle h, accept_idle h', recordContract_idem]
  · rw [hb, hb]

/-- An operation that an idle block ends with no violation recorded kept its contract (R258). -/
theorem requires_of_exec {i : Instr} {s t : State} (hs : s.seq = .idle) (he : exec i s = .next t) (hv : t.violated = false) :
    requires i s = true := by
  rw [← exec_recordContract hs] at he
  have hkept := ((recordKept_stepKeeps (recordContract i s)).exec (.refl _) he).violated
  by_contra hn
  have hn : (recordContract i s).violated = true := by simp [recordContract, Bool.eq_false_iff.mpr hn]
  rw [hkept hn] at hv
  cases hv

/-- Every step but a reset, in a run with no violation so far, keeps both parts of the single buffer. -/
theorem step_orderly {s t : State} (hn : s.resetIn = false) (hinit : s.InitProgress) (h : s.Orderly) (he : step s = .next t)
    (hv : t.violated = false) : t.Orderly := by
  have begin : ∀ i rest, s.seq = .idle → exec i { s with host := rest } = .next t → t.Orderly := by
    intro i rest hs e
    have hh : State.Orderly { s with host := rest } := h.of_same h.buffered.of_same
    exact exec_orderly hh hn hinit (fun hs => requires_of_exec hs e hv) e
  obtain ⟨e, -⟩ | ⟨-, i, k, hs, e⟩ | ⟨-, hs, -, u, hu, rfl⟩ | ⟨-, hs, w, rest, -, e⟩ | ⟨-, hs, i, rest, -, -, e⟩ |
    ⟨-, hs, n, rest, u, -, hu, rfl⟩ := step_cases he
  · rw [hn] at e; cases e
  · exact exec_orderly h hn hinit (fun hi => by rw [hs] at hi; cases hi) e
  · refine orderly_pollKeeps.point _ (orderly_pollKeeps.turn _ ?_)
    obtain rfl | rfl := hu
    · exact h
    · exact orderly_pollKeeps.grant _ h
  · exact begin _ _ hs e
  · exact begin _ _ hs e
  · have hh : State.Orderly { s with host := rest } := h.of_same h.buffered.of_same
    refine orderly_pollKeeps.action (act := hostRead n)
      (fun _ h => h.of_same (h.buffered.of_same rfl rfl rfl rfl) rfl id rfl) u ?_
    obtain rfl | rfl := hu
    · exact hh
    · exact orderly_pollKeeps.grant _ hh

/-- Settles O58: a reset leaves nothing queued; and where no contract has been violated by the end of a step, none was before it, and
the operation it ran kept its own. -/
theorem singleBufferKept : Obligations.SingleBufferKept := by
  intro s t hinit h he
  rw [singleBuffer_iff] at h ⊢
  obtain ⟨hrif, horderly⟩ := h
  cases hr : s.resetIn with
  | true =>
    rw [step_asserted hr] at he
    cases he
    exact ⟨rfl, fun _ => .of_idle (.of_empty rfl rfl) fun _ => rfl⟩
  | false =>
    refine ⟨rifClear_stepKeeps.step hr hrif he, fun hv => step_orderly hr hinit (horderly ?_) he hv⟩
    by_contra hn
    rw [((recordKept_stepKeeps s).step hr (.refl s) he).violated (by simpa using hn)] at hv
    cases hv

end Sys2Proof.Machine
end

section
/-! PROOFS. The encoding (30_encoding.md): the decoder and the encoder agree, which words are reserved (R112), the words of an expansion
(R125), and what a step runs that is no command word (R303). -/

namespace Sys2Proof

/-! ### The reserved words -/

/-- R112, on the fields of R110. -/
theorem Word.reserved_iff (w : Word) :
    w.reserved = true ↔
      2 ≤ w.unit.toNat ∨ (w.unit.toNat = 0 ∧ (w.fn.toNat = 0 ∨ 9 ≤ w.fn.toNat)) ∨ (w.unit.toNat = 1 ∧ 5 ≤ w.fn.toNat) ∨
        (((w.unit.toNat = 0 ∧ 4 ≤ w.fn.toNat ∧ w.fn.toNat ≤ 8) ∨ (w.unit.toNat = 1 ∧ w.fn.toNat = 0)) ∧
          w.imm.toNat ≠ 0) := by
  simp only [Word.reserved, Word.unit, Word.fn, Word.imm, Bool.or_eq_true, Bool.and_eq_true, decide_eq_true_eq, or_assoc, and_assoc]

/-! The fields as digits of the word (R110). -/

theorem Word.unit_toNat (w : Word) : w.unit.toNat = w.toNat / 4096 := by
  have := w.isLt
  rw [Word.unit, BitVec.extractLsb'_toNat, Nat.shiftRight_eq_div_pow]
  omega

theorem Word.fn_toNat (w : Word) : w.fn.toNat = w.toNat / 256 % 16 := by
  simp [Word.fn, BitVec.extractLsb'_toNat, Nat.shiftRight_eq_div_pow]

theorem Word.imm_toNat (w : Word) : w.imm.toNat = w.toNat % 256 := by
  simp [Word.imm, BitVec.extractLsb'_toNat]

/-! ### Decoding a word -/

/-- `w` is not reserved, and it is the word of the well-formed operation `i`. -/
structure Instr.WordIs (i : Instr) (w : Word) : Prop where
  legal : w.reserved = false
  wellFormed : i.wellFormed = true
  encode : i.encode = some w

/-- A legal word whose unit and fn are those of a row is that row's word, with the operand it carries (R111). -/
theorem Instr.WordIs.of_fields {i : Instr} {w : Word} {u f : Nat} (hu : w.unit.toNat = u) (hf : w.fn.toNat = f)
    (hl : ¬ w.reserved = true) (hw : i.wellFormed = true)
    (he : i.encode = some (commandWord (.ofNat 4 u) (.ofNat 4 f) w.imm)) : i.WordIs w where
  legal := Bool.eq_false_iff.mpr hl
  wellFormed := hw
  encode := by simp [he, ← hu, ← hf, commandWord_fields]

/-- A row of format N reads its operation where `imm` is 0, and a reserved word elsewhere (R110, R112). -/
theorem formatN_cases {i : Instr} {w : Word} {u f : Nat} (hu : w.unit.toNat = u) (hf : w.fn.toNat = f)
    (hl : w.reserved = true ↔ w.imm.toNat ≠ 0) (hw : i.wellFormed = true)
    (he : i.encode = some (commandWord (.ofNat 4 u) (.ofNat 4 f) 0)) :
    (w.reserved = true ∧ formatN i w = .illegal w) ∨ (formatN i w).WordIs w := by
  unfold formatN
  split
  · rename_i hz
    exact .inr (.of_fields hu hf (by simp [hl, hz]) hw (by rw [hz, he]))
  · rename_i hz
    exact .inl ⟨hl.mpr fun h => hz (BitVec.eq_of_toNat_eq h), rfl⟩

/-- What the decoder reads: a reserved word as itself, every other as the operation whose word it is. -/
theorem decode_cases (w : Word) : (w.reserved = true ∧ decode w = .illegal w) ∨ (decode w).WordIs w := by
  have hr := w.reserved_iff
  unfold decode
  split <;> rename_i hu hf
  -- the rows with an operand
  case h_1 | h_2 | h_3 | h_10 | h_11 | h_12 | h_13 => exact .inr (.of_fields hu hf (by simp [hr, hu, hf]) rfl rfl)
  -- the rows of format N
  case h_4 | h_5 | h_6 | h_7 | h_8 | h_9 => exact formatN_cases hu hf (by simp [hr, hu, hf]) rfl rfl
  -- no row has this unit and fn: the first three clauses of R112
  case h_14 => exact .inl ⟨hr.mpr (by grind), rfl⟩

theorem decode_of_reserved {w : Word} (h : w.reserved = true) : decode w = .illegal w := by
  obtain ⟨-, e⟩ | hw := decode_cases w
  · exact e
  · exact absurd h (Bool.eq_false_iff.mp hw.legal)

theorem decode_wellFormed (w : Word) : (decode w).wellFormed = true := by
  obtain ⟨hr, e⟩ | hw := decode_cases w
  · rw [e]; exact hr
  · exact hw.wellFormed

/-- No bit of a word is dropped: a reserved word is kept whole, and a legal one is its operation's word. -/
theorem encode_decode (w : Word) : (decode w).encode = some w := by
  obtain ⟨-, e⟩ | hw := decode_cases w
  · rw [e]; rfl
  · exact hw.encode

theorem decode_eq_illegal_iff {w : Word} : decode w = .illegal w ↔ w.reserved = true := by
  refine ⟨fun h => ?_, decode_of_reserved⟩
  have hw := decode_wellFormed w
  rwa [h] at hw

theorem eq_of_decode_eq_illegal {v w : Word} (h : decode w = .illegal v) : v = w := by
  have he := encode_decode w
  rw [h] at he
  exact Option.some.inj he

/-- Settles O3, by the two kinds of word that `decode_cases` names. -/
theorem encodeDecodeAgree : Obligations.EncodeDecodeAgree := fun w => ⟨decode_wellFormed w, encode_decode w⟩

/-- Settles O4: the fields are the digits of the word, and the decoder keeps a word exactly where R112 reserves it. -/
theorem reservedWordsAreIllegal : Obligations.ReservedWordsAreIllegal := by
  rintro w unit fn imm rfl rfl rfl
  refine ⟨?_, fun v => eq_of_decode_eq_illegal⟩
  rw [decode_eq_illegal_iff, Word.reserved_iff, Word.unit_toNat, Word.fn_toNat, Word.imm_toNat]

/-! ### Decoding the word of an operation -/

/-- The decoder reads the word of a well-formed operation as that operation: the fields of the word are those of its row (R111), and a
reserved word is its own `ILLEGAL` (R112). -/
theorem decode_encode {i : Instr} {w : Word} (hi : i.wellFormed = true) (h : i.encode = some w) : decode w = i := by
  cases i with
  | computeDivisor | warr | dwarr | dwstr => cases h
  | illegal v => cases h; exact decode_of_reserved hi
  | binit | start | wrb | wcmd | scur | sgly | wchr => cases h; simp [decode]
  | stop | dis | en | wait | brst | dinit => cases h; simp [decode, formatN]

/-- Settles O2. -/
theorem decodeEncodeAgree : Obligations.DecodeEncodeAgree := fun _ hi _ h => decode_encode hi h

/-- Settles O1. -/
theorem decodeKnownWords : Obligations.DecodeKnownWords := by
  unfold Obligations.DecodeKnownWords
  decide

/-! ### The words of an expansion -/

/-- Well-formed operations that have words are read back from their words, one after another (R110). -/
theorem decodeAll_filterMap_encode {is : List Instr} (h : ∀ i ∈ is, i.wellFormed = true ∧ i.encode.isSome = true) :
    decodeAll (is.filterMap Instr.encode) = is := by
  induction is with
  | nil => rfl
  | cons i is ih =>
    obtain ⟨⟨hi, hs⟩, his⟩ := List.forall_mem_cons.mp h
    obtain ⟨w, hw⟩ := Option.isSome_iff_exists.mp hs
    rw [List.filterMap_cons_some hw]
    exact congrArg₂ List.cons (decode_encode hi hw) (ih his)

theorem decodeAll_wrb (bs : List Byte) : decodeAll ((bs.map Instr.wrb).filterMap Instr.encode) = bs.map Instr.wrb :=
  decodeAll_filterMap_encode (List.forall_mem_map.mpr fun _ _ => ⟨rfl, rfl⟩)

theorem decodeAll_wchr (bs : List Byte) : decodeAll ((bs.map Instr.wchr).filterMap Instr.encode) = bs.map Instr.wchr :=
  decodeAll_filterMap_encode (List.forall_mem_map.mpr fun _ _ => ⟨rfl, rfl⟩)

/-- The first `0x00` ends a string, whatever follows it (R216). -/
theorem stringBody_append_zero {body : List Byte} (h : 0x00 ∉ body) (tail : List Byte) :
    stringBody (body ++ 0x00 :: tail) = body := by
  have hb : ∀ b ∈ body, decide (b ≠ 0x00) = true := fun b hb => decide_eq_true fun e => h (e ▸ hb)
  rw [stringBody, List.takeWhile_append_of_pos hb]
  simp

/-- Settles O5: the words are those of the expansion's operations, and a string expands to its body. -/
theorem expansionWordsDecode : Obligations.ExpansionWordsDecode := by
  refine ⟨decodeAll_wrb, decodeAll_wchr, fun body tail h => ?_⟩
  rw [Instr.words, Instr.expansion, stringBody_append_zero h]
  exact decodeAll_wchr body

end Sys2Proof

namespace Sys2Proof.Machine

/-! ### Calls by name, and an operation in progress -/

/-- An idle block runs the operation its host calls by name, and refuses a term that is none (log 12). -/
theorem step_call {s : State} {i : Instr} {rest : List Request} (hr : s.resetIn = false) (hs : s.seq = .idle)
    (hh : s.host = .call i :: rest) :
    step s = if i.wellFormed then exec i { s with host := rest } else .refused .illFormedCall := by
  simp [step, fetch, serve, hr, hs, hh]

/-- An operation in progress goes on before anything else is accepted (R303). -/
theorem step_waiting {s : State} {i : Instr} {k : Stage} (hr : s.resetIn = false) (hs : s.seq = .waiting i k) :
    step s = exec i s := by
  simp [step, hr, hs]

/-- Settles O9. -/
theorem stepRunsCallsAndResumes : Obligations.StepRunsCallsAndResumes := by
  refine ⟨fun s i rest hr hs hh => ⟨fun hi => ?_, fun hi => ?_⟩, fun s i k hr hs => step_waiting hr hs⟩
  · rw [step_call hr hs hh, if_pos hi]
  · rw [step_call hr hs hh, if_neg (Bool.eq_false_iff.mp hi)]

end Sys2Proof.Machine
end

section
/-! PROOFS. The Bus Master (40_bus_master.md): `START`, and the operations of one wait, from a block that takes them up (R154 to
R158). -/

namespace Sys2Proof.Machine

/-! ### Taking up an operation -/

/-- A quiet block with nothing queued takes up a request. -/
theorem accepts_of_empty {s : State} (h : s.quiet) (hq : s.q = []) : s.accepts := ⟨h, atUndefinedByte_empty hq⟩

/-- A stop is no undefined byte. -/
theorem atUndefinedByte_stop {s : State} {q : List WireAction} (hq : s.q = .stop :: q) : atUndefinedByte s = false := by
  simp [atUndefinedByte, hq]

/-- An address is no undefined byte. -/
theorem atUndefinedByte_addr {s : State} {a : Byte} {q : List WireAction} (hq : s.q = .addr a :: q) : atUndefinedByte s = false := by
  simp [atUndefinedByte, hq]

/-- A block that takes up operation `i` runs it from its start, with its contract recorded. -/
theorem enter_accepts {i : Instr} {s : State} (h : s.accepts) (body : Stage → State → Out) :
    enter i s body = body .start (recordContract i s) := by
  obtain ⟨⟨hs, -⟩, hu⟩ := h
  exact enter_idle hs hu body

/-- A contract that is kept leaves nothing to record. -/
theorem recordContract_kept {i : Instr} {s : State} (h : requires i s = true) : recordContract i s = s := by
  simp [recordContract, h]

/-! ### The engine's turn before the end of an operation -/

/-- A granted engine with only an address queued sends the start (R78). -/
theorem engineTurn_addr {s : State} {a : Byte} {g : Nat} {gs : List Nat} (hc : s.ctrlEnable = true) (hr : s.resetIn = false)
    (hq : s.q = [.addr a]) (he : s.envGrants = (g + 1) :: gs) :
    engineTurn s =
      { s with q := [], busState := .busy, wif := true, envGrants := gs, trace := s.trace ++ [startEvent s.busState a] } := by
  rw [engineTurn_single hq he (Nat.succ_pos g) (performable_cons hc hr hq (by simp)),
    perform_addr (s := { s with envGrants := gs }) hq]

/-- A granted engine with only a data byte queued sends it on a busy bus (R78). -/
theorem engineTurn_data {s : State} {b : Byte} {g : Nat} {gs : List Nat} (hc : s.ctrlEnable = true) (hr : s.resetIn = false)
    (hb : s.busState = .busy) (hq : s.q = [.data b]) (he : s.envGrants = (g + 1) :: gs) :
    engineTurn s = { s with q := [], wif := true, envGrants := gs, trace := s.trace ++ [.wByte b] } := by
  rw [engineTurn_single hq he (Nat.succ_pos g) (performable_cons hc hr hq fun _ _ => hb),
    perform_data (s := { s with envGrants := gs }) hq]

/-- A withheld engine leaves its queue as it is (R79). -/
theorem engineTurn_held {s : State} {x : WireAction} {q : List WireAction} {gs : List Nat} (hc : s.ctrlEnable = true)
    (hr : s.resetIn = false) (hq : s.q = x :: q) (hb : ∀ b, x = .data b → s.busState = .busy) (he : s.envGrants = 0 :: gs) :
    engineTurn s = { s with envGrants := gs } :=
  engineTurn_withheld he (performable_cons hc hr hq hb)

theorem engineTurn_noReset {s : State} (h : s.noReset) : (engineTurn s).noReset := by
  obtain ⟨hr, he⟩ := h
  exact ⟨(engineTurn_resetIn s).trans hr, (engineTurn_envResets s).trans he⟩

/-- An operation of one action: the engine has a turn before the action and one before the end (R93). -/
theorem runActions_done {act : State → State} {op : OpName} {s : State} (hn : s.noReset)
    (ha : (act (engineTurn s)).noReset) :
    runActions [act, doneWith op] s = doneWith op (engineTurn (act (engineTurn s))) := by
  rw [runActions_cons, runAction_none hn, runActions_cons, runAction_none ha, runActions_nil]

/-! ### `START` -/

/-- `START a` issues its address and ends; it never waits (R154). -/
theorem exec_start {a : Byte} {s : State} (h : s.accepts) :
    exec (.start a) s = .next (runActions [openTransaction a, doneWith .start] (recordContract (.start a) s)) := by
  rw [exec, execStart, enter_accepts h]

/-- The engine has its turn before the address, and before the end of `START`. -/
theorem exec_start_turns {a : Byte} {s : State} (h : s.accepts) :
    exec (.start a) s =
      .next (doneWith .start (engineTurn (openTransaction a (engineTurn (recordContract (.start a) s))))) := by
  have hn : (recordContract (.start a) s).noReset := h.1.2
  rw [exec_start h, runActions_done hn (by exact engineTurn_noReset hn)]

/-- With nothing queued the address is the one action the engine may take before `START` ends. -/
theorem exec_start_empty {a : Byte} {s : State} (h : s.quiet) (hq : s.q = []) :
    exec (.start a) s = .next (doneWith .start (engineTurn (openTransaction a (recordContract (.start a) s)))) := by
  rw [exec_start_turns (accepts_of_empty h hq), engineTurn_empty (s := recordContract (.start a) s) hq]

/-- A granted engine has sent the start, or the repeated start, before `START` ends (R78, R154). -/
theorem exec_start_granted {a : Byte} {s : State} {g : Nat} {gs : List Nat} (h : s.quiet) (hq : s.q = [])
    (hc : s.ctrlEnable = true) (he : s.envGrants = (g + 1) :: gs) :
    exec (.start a) s =
      .next { s with
        maddr := a, wif := true, rif := false, busState := .busy, txnOpen := true, result := .ok, envGrants := gs
        violated := s.violated || !requires (.start a) s
        trace := s.trace ++ [.issueAddr a, startEvent s.busState a, .done .start .ok] } := by
  rw [exec_start_empty h hq,
    engineTurn_addr (s := openTransaction a (recordContract (.start a) s)) (a := a) hc h.2.1 (by simp [hq]) he]
  simp [doneWith, emit, openTransaction, busIssue, issueEvent, recordContract, hq, h.1]

/-- Settles O18: the engine before the address, and behind a queued stop, by what it is granted. -/
theorem startResult : Obligations.StartResult := by
  intro a s h
  have hr : s.resetIn = false := h.2.1
  refine ⟨fun hq hc => ?off, fun gs hq hc he => ?withheld, fun g gs hq hc he => exec_start_granted h hq hc he,
    fun gs hq hc he => ?behindStop⟩
  case off =>
    rw [exec_start_empty h hq, engineTurn_off (s := openTransaction a (recordContract (.start a) s)) hc]
    simp [doneWith, emit, openTransaction, busIssue, issueEvent, recordContract, hq, h.1]
  case withheld =>
    rw [exec_start_empty h hq,
      engineTurn_held (s := openTransaction a (recordContract (.start a) s)) (x := .addr a) (q := []) hc hr (by simp [hq]) (by simp)
        he]
    simp [doneWith, emit, openTransaction, busIssue, issueEvent, recordContract, hq, h.1]
  case behindStop =>
    rw [exec_start_turns ⟨h, atUndefinedByte_stop hq⟩, engineTurn_held (s := recordContract (.start a) s) hc hr hq (by simp) he,
      engineTurn_held (x := .stop) (q := [.addr a]) (by exact hc) (by exact hr) (by simp [hq]) (by simp) rfl]
    simp [doneWith, emit, openTransaction, busIssue, issueEvent, recordContract, hq, h.1]

/-- Settles O28: inside an open transaction the contract of `START` is broken, and the bus is busy. -/
theorem nestedStartIsRepeatedStart : Obligations.NestedStartIsRepeatedStart := by
  intro s a g gs rest h hq hc ht hb he hh
  have hstep : step s = .next { s with
      maddr := a, wif := true, rif := false, result := .ok, violated := true, envGrants := gs, host := rest
      trace := s.trace ++ [.issueAddr a, .wRstart a, .done .start .ok] } := by
    rw [step_call h.2.1 h.1 hh, if_pos (by rfl), exec_start_granted (s := { s with host := rest }) h hq hc he]
    simp [requires, startAllowed, startEvent, ht, hb]
  refine ⟨hstep, ?_⟩
  rw [contractStep, hstep]
  rfl

/-! ### `WRB` and `WARR` -/

/-- With a flag up, nothing queued and a transaction open, a byte is issued without waiting (R155). -/
theorem writeByte_ready {b : Byte} {i : Instr} {s : State} {next : State → Out} (hn : s.noReset) (hq : s.q = [])
    (hr : engineReady s = true) (ht : s.txnOpen = true) :
    writeByte b i .start s next = next (doneWith .wrb (engineTurn (busIssue (.data b) (clearPolls s)))) := by
  have hrun : runActions [busIssue (.data b), doneWith .wrb] (clearPolls s) =
      doneWith .wrb (engineTurn (busIssue (.data b) (clearPolls s))) := by
    have he : engineTurn (clearPolls s) = clearPolls s := engineTurn_empty hq
    rw [runActions_done (s := clearPolls s) hn (by rw [he]; exact hn), he]
  have hgo : ((clearPolls s).resetIn || (clearPolls s).txnOpen) = true := by simp [ht]
  simp only [writeByte, decide_true, waitIdle_ready hn hq hr, hgo, if_true, hrun]

/-- The same on a granted engine, which has sent the byte before the end (R78). -/
theorem writeByte_granted {b : Byte} {i : Instr} {s : State} {next : State → Out} {g : Nat} {gs : List Nat} (h : s.quiet)
    (hq : s.q = []) (hr : engineReady s = true) (ht : s.txnOpen = true) (hc : s.ctrlEnable = true) (hb : s.busState = .busy)
    (he : s.envGrants = (g + 1) :: gs) :
    writeByte b i .start s next =
      next { s with
        mdata := b, wif := true, rif := false, wc := 0, result := .ok, envGrants := gs
        trace := s.trace ++ [.issueData b, .wByte b, .done .wrb .ok] } := by
  rw [writeByte_ready h.2 hq hr ht,
    engineTurn_data (s := busIssue (.data b) (clearPolls s)) (b := b) hc h.2.1 hb (by simp [hq]) he]
  simp [doneWith, emit, busIssue, issueEvent, clearPolls, hq, h.1]

/-- `WRB` runs its one byte, its contract kept. -/
theorem exec_wrb {b : Byte} {s : State} (h : s.accepts) (ht : s.txnOpen = true) :
    exec (.wrb b) s = writeByte b (.wrb b) .start s .next := by
  rw [exec, execWrb, enter_accepts h, recordContract_kept (i := .wrb b) ht]

/-- Settles O19: the byte waits for a withheld engine, and is sent by a granted one. -/
theorem wrbResult : Obligations.WrbResult := by
  intro b s h hq ht hr hc
  rw [exec_wrb (accepts_of_empty h hq) ht]
  refine ⟨fun gs hb he => ?withheld, fun g gs hb he => writeByte_granted h hq hr ht hc hb he⟩
  case withheld =>
    rw [writeByte_ready h.2 hq hr ht,
      engineTurn_held (s := busIssue (.data b) (clearPolls s)) (x := .data b) (q := []) hc h.2.1 (by simp [hq]) (fun _ _ => hb) he]
    simp [doneWith, emit, busIssue, issueEvent, clearPolls, hq, h.1]

/-- The first of the turns at which the engine is granted a step, and the others (R79). -/
theorem State.granted.head {n : Nat} {s : State} (h : s.granted (n + 1)) :
    ∃ g gs, s.envGrants = (g + 1) :: gs ∧ ∀ u : State, u.envGrants = gs → u.granted n := by
  obtain ⟨hlen, hall⟩ := h
  cases he : s.envGrants with
  | nil => simp [he] at hlen
  | cons g gs =>
    rw [he, List.take_succ_cons, List.forall_mem_cons] at hall
    rw [he, List.length_cons] at hlen
    obtain ⟨hg, hgs⟩ := hall
    obtain ⟨g, rfl⟩ := Nat.exists_eq_succ_of_ne_zero (Nat.pos_iff_ne_zero.mp hg)
    exact ⟨g, gs, rfl, fun u hu => ⟨by rw [hu]; omega, by rw [hu]; exact hgs⟩⟩

/-- Every byte of a list is sent, in order, in the one transaction, by an engine that is granted each of them (R156). -/
theorem warrSteps_granted : ∀ (bs : List Byte) (s : State), s.quiet → s.q = [] → s.ctrlEnable = true → s.busState = .busy →
    s.wif = true → s.txnOpen = true → s.granted bs.length →
    warrSteps bs .start s =
      .next { s with
        mdata := bs.getLast?.getD s.mdata
        rif := if bs = [] then s.rif else false
        wc := if bs = [] then s.wc else 0
        result := if bs = [] then s.result else .ok
        envGrants := s.envGrants.drop bs.length
        trace := s.trace ++ bs.flatMap (fun b => [.issueData b, .wByte b, .done .wrb .ok]) } := by
  intro bs
  induction bs with
  | nil => intro s _ _ _ _ _ _ _; simp [warrSteps]
  | cons b bs ih =>
    intro s h hq hc hb hw ht hg
    obtain ⟨g, gs, he, hgs⟩ := State.granted.head hg
    have hr : engineReady s = true := by simp [engineReady, hw]
    rw [warrSteps, writeByte_granted h hq hr ht hc hb he]
    refine Eq.trans (ih _ h hq hc hb rfl ht (hgs _ rfl)) ?_
    simp [hw, he, List.getLast?_cons]

/-- Settles O44: the contract is kept, and every byte finds the flag of the one before it up. -/
theorem warrResult : Obligations.WarrResult := by
  intro bs s h hq hc hb hw ht hg
  rw [exec, execWarr, enter_accepts (accepts_of_empty h hq), recordContract_kept (by simp [requires, ht]),
    warrSteps_granted bs s h hq hc hb hw ht hg]

/-! ### `STOP` and `WAIT` -/

/-- `STOP` whose wait is lifted inside a transaction, nothing queued, issues its stop (R157). -/
theorem exec_stop_lifted {s u : State} (h : s.accepts) (ht : s.txnOpen = true) (hw : waitIdle .wait1 true s = .go u)
    (hn : u.noReset) (hq : u.q = []) (hu : u.txnOpen = true) :
    exec .stop s = .next (doneWith .stop (engineTurn (closeTransaction u))) := by
  have hrun : runActions [closeTransaction, doneWith .stop] u = doneWith .stop (engineTurn (closeTransaction u)) := by
    rw [runActions_done hn (by exact engineTurn_noReset hn), engineTurn_empty hq]
  rw [exec, execStop, enter_accepts h, recordContract_kept (i := .stop) ht]
  simp only [decide_true, hw, hu, Bool.or_true, if_true, hrun]

/-- With a flag up and nothing queued the wait is lifted at once. -/
theorem exec_stop_ready {s : State} (h : s.quiet) (ht : s.txnOpen = true) (hq : s.q = []) (hf : engineReady s = true) :
    exec .stop s = .next (doneWith .stop (engineTurn (closeTransaction (clearPolls s)))) :=
  exec_stop_lifted (accepts_of_empty h hq) ht (waitIdle_ready h.2 hq hf) h.2 hq ht

/-- Settles O20: a flag that is up, or the address performed before the poll, lifts the wait; the stop is then withheld or granted. -/
theorem stopResult : Obligations.StopResult := by
  intro s h ht hc
  have hr : s.resetIn = false := h.2.1
  refine ⟨fun gs hq hf he => ?withheld, fun g gs hq hf he => ?granted, fun a g g' gs hq he => ?address⟩
  case withheld =>
    rw [exec_stop_ready h ht hq hf,
      engineTurn_held (s := closeTransaction (clearPolls s)) (x := .stop) (q := []) hc hr (by simp [hq]) (by simp) he]
    simp [doneWith, emit, closeTransaction, busIssue, issueEvent, clearPolls, hq, h.1]
  case granted =>
    rw [exec_stop_ready h ht hq hf,
      engineTurn_stop (s := closeTransaction (clearPolls s)) hc hr (by simp [hq]) he]
    simp [doneWith, emit, closeTransaction, busIssue, issueEvent, clearPolls, hq, h.1]
  case address =>
    rw [exec_stop_lifted ⟨h, atUndefinedByte_addr hq⟩ ht (waitIdle_addr h.2 hq he hc) (by exact h.2) rfl ht,
      engineTurn_stop (g := g') (gs := gs) (by exact hc) (by exact hr) (by simp) rfl]
    simp [doneWith, emit, closeTransaction, busIssue, issueEvent, h.1]

/-- `WAIT` whose wait is lifted ends `OK` (R158). -/
theorem exec_wait_lifted {s u : State} (h : s.accepts) (hreq : flagWillRise s = true) (hw : waitIdle .wait1 true s = .go u)
    (hn : u.noReset) (hq : u.q = []) : exec .wait s = .next (doneWith .wait u) := by
  rw [exec, execWait, enter_accepts h, recordContract_kept (i := .wait) hreq]
  simp only [decide_true, hw, runActions_cons, runActions_nil, runAction_rest hn hq]

/-- Settles O21, by what lifts the wait: a flag that is up, or the address performed before the poll. -/
theorem waitResult : Obligations.WaitResult := by
  refine ⟨fun s h hq hf => ?ready, fun s a g gs h hc hq he => ?address⟩
  case ready =>
    rw [exec_wait_lifted (accepts_of_empty h hq) (by simp [flagWillRise, hf]) (waitIdle_ready h.2 hq hf) h.2 hq]
    simp [doneWith, emit, clearPolls, h.1]
  case address =>
    rw [exec_wait_lifted ⟨h, atUndefinedByte_addr hq⟩ (by simp [flagWillRise, hc, hq, raisesFlag]) (waitIdle_addr h.2 hq he hc)
      (by exact h.2) rfl]
    simp [doneWith, emit, h.1]

/-! ### No open transaction -/

/-- Settles O27: the flag lifts the wait, and no transaction is open to issue the byte or the stop into. -/
theorem noTransactionIsRefused : Obligations.NoTransactionIsRefused := by
  intro s h hq hf ht
  have h' : s.accepts := accepts_of_empty h hq
  have lifted : ∀ i, waitIdle .wait1 true (recordContract i s) = .go (clearPolls (recordContract i s)) := fun i =>
    waitIdle_ready (s := recordContract i s) h.2 hq hf
  have closed : ∀ i, ((clearPolls (recordContract i s)).resetIn || (clearPolls (recordContract i s)).txnOpen) = false := fun i => by
    simp [ht, h.2.1]
  refine ⟨fun b => ?byte, ?stop⟩
  case byte =>
    rw [exec, execWrb, enter_accepts h', writeByte]
    simp only [decide_true, lifted, closed, Bool.false_eq_true, if_false]
  case stop =>
    rw [exec, execStop, enter_accepts h']
    simp only [decide_true, lifted, closed, Bool.false_eq_true, if_false]

end Sys2Proof.Machine
end

section
/-! PROOFS. The Bus Master: a poll that finds no flag (R158, R251), and the operations that never wait, with what they leave alone
(R153, R154, R159, R160). -/

namespace Sys2Proof.Machine

/-! ### A poll that finds no flag -/

/-- An engine before an undefined byte may take no step. -/
theorem performable_atUndefinedByte {s : State} (h : atUndefinedByte s = true) : performable s = false := by
  simp [performable, h]

/-- An engine that may take no step leaves a poll without a flag. -/
theorem waitIdle_still {k : Stage} {fresh : Bool} {s : State} (hn : s.noReset) (hf : engineReady s = false)
    (hp : performable s = false) : waitIdle k fresh s = .blocked k (if fresh then clearPolls s else s) := by
  have hp' : performable (if fresh then clearPolls s else s) = false := by cases fresh <;> exact hp
  have hf' : engineReady (if fresh then clearPolls s else s) = false := by cases fresh <;> exact hf
  have ht : engineTurn (if fresh then clearPolls s else s) = if fresh then clearPolls s else s := by simp [engineTurn, hp']
  rw [waitIdle_eq k fresh hn, ht, hf']
  rfl

/-- An engine that stands still passes the gate and leaves a poll without a flag (R79, R158). -/
theorem engineGate_blocked {s : State} {gs : List Nat} (fresh : Bool) (hn : s.noReset) (hf : engineReady s = false)
    (hs : s.standsStill gs) :
    ∃ u, (∀ body, engineGate s body = body u) ∧
      waitIdle .wait1 fresh u = .blocked .wait1 { (if fresh then clearPolls s else s) with envGrants := gs } := by
  obtain ⟨hoff, rfl⟩ | ⟨hc, hq, he⟩ := hs
  · have hu : atUndefinedByte s = false := hoff.elim atUndefinedByte_empty atUndefinedByte_off
    have hp : performable s = false := hoff.elim performable_empty performable_off
    exact ⟨s, engineGate_pass hu, by rw [waitIdle_still hn hf hp]; cases fresh <;> rfl⟩
  · cases hu : atUndefinedByte s with
    | false =>
      have hp : performable s = true := by simp [performable, hc, hq, hu, hn.1]
      exact ⟨s, engineGate_pass hu, waitIdle_withheld hn hp he hf⟩
    | true =>
      have hg : grantNow s = 0 := by simp [grantNow, he]
      have ht : grantTaken s = { s with envGrants := gs } := by simp [grantTaken, he]
      have hp : performable { s with envGrants := gs } = false := performable_atUndefinedByte hu
      refine ⟨{ s with envGrants := gs }, fun body => by rw [engineGate, if_pos hu, if_pos hg, ht], ?_⟩
      rw [waitIdle_still (s := { s with envGrants := gs }) hn hf hp]
      cases fresh <;> rfl

/-- The operations of one wait, with their mnemonic. -/
def OneWait (op : OpName) (i : Instr) : Prop :=
  op = .wait ∧ i = .wait ∨ op = .stop ∧ i = .stop ∨ ∃ b, op = .wrb ∧ i = .wrb b

/-- An operation of one wait begins with a poll; what a failed one does is said once, by `pollFailed`. -/
theorem OneWait.body {op : OpName} {i : Instr} (h : OneWait op i) :
    ∃ body, (∀ s, exec i s = enter i s body) ∧
      ∀ k s u, waitIdle .wait1 (decide (k = .start)) s = .blocked .wait1 u → body k s = .next (pollFailed op i .wait1 u) := by
  obtain ⟨rfl, rfl⟩ | ⟨rfl, rfl⟩ | ⟨b, rfl, rfl⟩ := h
  · exact ⟨_, fun s => by rw [exec, execWait], fun k s u hw => by simp only [hw]⟩
  · exact ⟨_, fun s => by rw [exec, execStop], fun k s u hw => by simp only [hw]⟩
  · exact ⟨_, fun s => by rw [exec, execWrb], fun k s u hw => by simp only [writeByte, hw]⟩

/-- From the start (`n = 0`) or going on (`n = WC`), an operation of one wait whose engine stands still makes one failed poll. -/
theorem exec_pollFailed {op : OpName} {i : Instr} {s : State} {gs : List Nat} {n : Nat} {v : Bool} (hi : OneWait op i)
    (hn : s.noReset) (hf : engineReady s = false) (hs : s.standsStill gs)
    (hk : (s.seq = .idle ∧ n = 0 ∧ v = (s.violated || !requires i s)) ∨ (s.seq = .waiting i .wait1 ∧ n = s.wc ∧ v = s.violated)) :
    exec i s = .next (pollFailed op i .wait1 { s with wc := n, violated := v, envGrants := gs }) := by
  obtain ⟨body, hexec, hbody⟩ := hi.body
  obtain ⟨hseq, rfl, rfl⟩ | ⟨hseq, rfl, rfl⟩ := hk
  · obtain ⟨u, hgate, hw⟩ := engineGate_blocked (s := recordContract i s) true hn hf hs
    rw [hexec, enter, accept_idle hseq, hgate, hbody .start u _ hw]
    rfl
  · obtain ⟨u, hgate, hw⟩ := engineGate_blocked false hn hf hs
    rw [hexec, enter, accept_waiting hseq, hgate, hbody .wait1 u _ hw]
    rfl

/-- Settles O25: the failed poll is counted, and then compared with the limit. -/
theorem failedPollHoldsOrTimesOut : Obligations.FailedPollHoldsOrTimesOut := by
  intro s op i gs hn hf hs hi n v hk
  have hpoll := exec_pollFailed hi hn hf hs hk
  refine ⟨fun l hlim hl => ?timedOut, fun h => ?held⟩
  case timedOut =>
    rw [hpoll, pollFailed_timedOut (l := l) (by exact hlim) (by exact hl)]
    rfl
  case held =>
    rw [hpoll]
    obtain hnone | ⟨l, hlim, hl⟩ := h
    · rw [pollFailed_unbounded (by exact hnone)]; rfl
    · rw [pollFailed_held (l := l) (by exact hlim) (by exact hl)]; rfl

/-! ### `BINIT`, `DIS` and `EN` -/

/-- `BINIT d` runs its actions in the order of R153. -/
theorem exec_binit {d : Byte} {s : State} (h : s.accepts) :
    exec (.binit d) s =
      .next (runActions ([setDivisor d, enableEngine, clearFlags, forceIdle] ++ [binitGhost, doneWith .binit])
        (recordContract (.binit d) s)) := by
  rw [exec, execBinit, enter_accepts h]
  rfl

/-- `DIS` always keeps its contract (R159). -/
theorem exec_dis {s : State} (h : s.accepts) : exec .dis s = .next (runActions [disableEngine, doneWith .dis] s) := by
  rw [exec, execDis, enter_accepts h, recordContract_kept rfl]

theorem exec_en {s : State} (h : s.accepts) :
    exec .en s = .next (runActions (enableActions ++ [doneWith .en]) (recordContract .en s)) := by
  rw [exec, execEn, enter_accepts h]

/-- Settles O17: with nothing queued the engine does nothing between the actions. -/
theorem binitResult : Obligations.BinitResult := by
  intro d s h hq
  rw [exec_binit (accepts_of_empty h hq), runActions_rest _ (recordContract (.binit d) s) hq h.2 (by simp [State.Rests])]
  simp [setDivisor, enableEngine, clearFlags, forceIdle, binitGhost, doneWith, emit, recordContract, hq, h.1]

/-- Settles O22: the engine that `DIS` turns off has no turn after it. -/
theorem disResult : Obligations.DisResult := by
  intro s h
  have hn : (disableEngine (engineTurn s)).noReset := engineTurn_noReset h.1.2
  rw [exec_dis h, runActions_done h.1.2 hn, engineTurn_off (s := disableEngine (engineTurn s)) rfl]
  simp [disableEngine, doneWith, emit, h.1.1]

/-- Settles O23: with nothing queued the engine does nothing between the actions. -/
theorem enResult : Obligations.EnResult := by
  intro s h hq
  rw [exec_en (accepts_of_empty h hq),
    runActions_rest _ (recordContract .en s) hq h.2 (by simp [State.Rests, enableActions])]
  simp [enableActions, enableEngine, pinSetDirection, setPin, State.pin, forceIdle, doneWith, emit, recordContract, requires, h.1]

/-! ### What the operations that never wait leave alone -/

/-- An action whose effect outside the engine's part of the state does not depend on that part, and which brings no reset. -/
def State.ActsOutside (act : State → State) : Prop :=
  ∀ u : State, (act u).sequencerPart = (act u.sequencerPart).sequencerPart ∧ (u.noReset → (act u).noReset)

/-- Outside its own part of the state, whatever the engine does at its turns between such actions cannot be seen (R78, R93). -/
theorem runActions_sequencerPart : ∀ (acts : List (State → State)) {s u : State}, s.noReset → s.sequencerPart = u.sequencerPart →
    (∀ act ∈ acts, State.ActsOutside act) →
    (runActions acts s).sequencerPart = (acts.foldl (fun v act => act v) u).sequencerPart := by
  intro acts
  induction acts with
  | nil => intro s u _ h _; exact h
  | cons act acts ih =>
    intro s u hn h ha
    obtain ⟨hact, hacts⟩ := List.forall_mem_cons.mp ha
    rw [runActions_cons, runAction_none hn, List.foldl_cons]
    refine ih ((hact _).2 (engineTurn_noReset hn)) ?_ hacts
    rw [(hact _).1, engineTurn_sequencerPart, h, ← (hact u).1]

@[simp] theorem controlEvents_controlEvents (tr : List Event) : controlEvents (controlEvents tr) = controlEvents tr := by
  simp [controlEvents, List.filter_filter]

@[simp] theorem controlEvents_nil : controlEvents [] = [] := rfl

theorem controlEvents_cons (e : Event) (tr : List Event) :
    controlEvents (e :: tr) = if e.isWire then controlEvents tr else e :: controlEvents tr := by
  cases h : e.isWire <;> simp [controlEvents, h]

/-! Each action of these operations acts outside the engine's part. -/

theorem setDivisor_actsOutside (d : Byte) : State.ActsOutside (setDivisor d) := fun u =>
  ⟨by simp [State.sequencerPart, setDivisor, emit], id⟩

theorem enableEngine_actsOutside : State.ActsOutside enableEngine := fun u =>
  ⟨by simp [State.sequencerPart, enableEngine, emit], id⟩

theorem clearFlags_actsOutside : State.ActsOutside clearFlags := fun u =>
  ⟨by simp [State.sequencerPart, clearFlags, emit], id⟩

theorem forceIdle_actsOutside : State.ActsOutside forceIdle := fun u =>
  ⟨by simp [State.sequencerPart, forceIdle, emit], id⟩

theorem binitGhost_actsOutside : State.ActsOutside binitGhost := fun u =>
  ⟨by simp [State.sequencerPart, binitGhost], id⟩

theorem doneWith_actsOutside (op : OpName) : State.ActsOutside (doneWith op) := fun u =>
  ⟨by simp [State.sequencerPart, doneWith, emit], id⟩

theorem openTransaction_actsOutside (a : Byte) : State.ActsOutside (openTransaction a) := fun u =>
  ⟨by simp [State.sequencerPart, openTransaction, busIssue], id⟩

theorem pinSetDirection_actsOutside (p : PinName) (d : PinDir) : State.ActsOutside (pinSetDirection p d) := fun u => by
  cases p <;> exact ⟨by simp [State.sequencerPart, pinSetDirection, setPin, State.pin, emit], id⟩

theorem enableActions_actsOutside : ∀ act ∈ enableActions, State.ActsOutside act := by
  simp only [enableActions, List.forall_mem_cons]
  exact ⟨enableEngine_actsOutside, pinSetDirection_actsOutside _ _, pinSetDirection_actsOutside _ _, forceIdle_actsOutside, by simp⟩

/-- The actions of `BINIT` before it drops the queue. -/
theorem binitActions_actsOutside (d : Byte) : ∀ act ∈ [setDivisor d, enableEngine, clearFlags, forceIdle], State.ActsOutside act := by
  simp only [List.forall_mem_cons]
  exact ⟨setDivisor_actsOutside d, enableEngine_actsOutside, clearFlags_actsOutside, forceIdle_actsOutside, by simp⟩

/-- `BINIT` leaves nothing queued, whatever the engine did before (R153). -/
theorem binit_queue {d : Byte} {s : State} (hn : s.noReset) :
    (runActions ([setDivisor d, enableEngine, clearFlags, forceIdle] ++ [binitGhost, doneWith .binit]) s).q = [] := by
  have hpart := runActions_sequencerPart _ hn rfl (binitActions_actsOutside d)
  have hkeep : (runActions [setDivisor d, enableEngine, clearFlags, forceIdle] s).noReset :=
    ⟨(congrArg State.resetIn hpart).trans hn.1, (congrArg State.envResets hpart).trans hn.2⟩
  rw [runActions_append, runActions_done hkeep (by exact engineTurn_noReset hkeep), doneWith_q, engineTurn_queue_nil rfl]

/-- Settles O24: outside the engine's part of the state, each operation is its actions run with no engine. -/
theorem nonWaitingOperationsFrame : Obligations.NonWaitingOperationsFrame := by
  intro s h
  have hn : s.noReset := h.1.2
  have hs : s.seq = .idle := h.1.1
  refine ⟨fun d => ⟨_, exec_binit h, binit_queue hn, ?binit⟩, fun a => ⟨_, exec_start h, ?start⟩,
    ⟨_, disResult s h, rfl, ?dis⟩, ⟨_, exec_en h, ?en⟩⟩
  case binit =>
    rw [runActions_sequencerPart _ (by exact hn) rfl (List.forall_mem_append.mpr ⟨binitActions_actsOutside d, by
      simpa using ⟨binitGhost_actsOutside, doneWith_actsOutside .binit⟩⟩)]
    simp [State.sequencerPart, setDivisor, enableEngine, clearFlags, forceIdle, binitGhost, doneWith, emit, recordContract,
      controlEvents_cons, Event.isWire, hs]
  case start =>
    rw [runActions_sequencerPart _ (by exact hn) rfl (by simpa using ⟨openTransaction_actsOutside a, doneWith_actsOutside .start⟩)]
    simp [State.sequencerPart, openTransaction, busIssue, issueEvent, doneWith, emit, recordContract,
      controlEvents_cons, Event.isWire, hs]
  case dis => simp [State.sequencerPart, controlEvents_cons, Event.isWire]
  case en =>
    rw [runActions_sequencerPart _ (by exact hn) rfl (List.forall_mem_append.mpr ⟨enableActions_actsOutside, by
      simpa using doneWith_actsOutside .en⟩)]
    simp [State.sequencerPart, enableActions, enableEngine, forceIdle, pinSetDirection, setPin, State.pin, doneWith, emit,
      recordContract, requires, controlEvents_cons, Event.isWire, hs]

end Sys2Proof.Machine
end

section
/-! PROOFS. `computeDivisor` (R151, R152, R161): its value is the rational of the formula, truncated once toward zero. -/

namespace Sys2Proof.Machine

/-- The rational of R151, before its truncation. -/
def divisorQuotient (c t r : Nat) : ℚ := ((c : ℚ) / t - 10 - (c : ℚ) * r / 1000000000) / 2

/-- Truncation toward zero (R151). -/
def truncTowardZero (x : ℚ) : ℤ := if 0 ≤ x then ⌊x⌋ else ⌈x⌉

theorem truncTowardZero_intCast_div_natCast (n : ℤ) {d : ℕ} (hd : 0 < d) : truncTowardZero ((n : ℚ) / d) = n.tdiv d := by
  have hd' : (0 : ℚ) < d := Nat.cast_pos.mpr hd
  obtain hn | hn := le_or_gt 0 n
  · have hx : (0 : ℚ) ≤ n / d := div_nonneg (Int.cast_nonneg hn) hd'.le
    rw [truncTowardZero, if_pos hx, Rat.floor_intCast_div_natCast, Int.tdiv_eq_ediv_of_nonneg hn]
  · have hx : (n : ℚ) / d < 0 := div_neg_of_neg_of_pos (Int.cast_lt_zero.mpr hn) hd'
    rw [truncTowardZero, if_neg hx.not_ge, Rat.ceil_intCast_div_natCast, ← Int.tdiv_eq_ediv_of_nonneg (by omega), Int.neg_tdiv,
      neg_neg]

theorem truncTowardZero_mono : Monotone truncTowardZero := by
  intro x y h
  unfold truncTowardZero
  split <;> split
  · exact Int.floor_le_floor h
  · exact absurd (le_trans ‹0 ≤ x› h) ‹¬ 0 ≤ y›
  · calc ⌈x⌉ ≤ 0 := Int.ceil_le.mpr (by simpa using (not_le.mp ‹¬ 0 ≤ x›).le)
      _ ≤ ⌊y⌋ := Int.floor_nonneg.mpr ‹_›
  · exact Int.ceil_le_ceil h

/-- The model's quotient of integers is the rational of R151, truncated once toward zero. -/
theorem computeDivisor_eq {c t r : Nat} (ht : t ≠ 0) : computeDivisor c t r = some (truncTowardZero (divisorQuotient c t r)) := by
  have hd : 0 < 2 * t * 1000000000 := by positivity
  have ht' : (t : ℚ) ≠ 0 := Nat.cast_ne_zero.mpr ht
  have hx : divisorQuotient c t r =
      (((c : ℤ) * 1000000000 - 10 * (t : ℤ) * 1000000000 - (c : ℤ) * (r : ℤ) * (t : ℤ) : ℤ) : ℚ) / (2 * t * 1000000000 : ℕ) := by
    push_cast
    rw [divisorQuotient]
    field_simp
  rw [computeDivisor, if_neg ht, hx, truncTowardZero_intCast_div_natCast _ hd]
  push_cast
  rfl

theorem computeDivisor_zero (c r : Nat) : computeDivisor c 0 r = none := rfl

theorem computeDivisor_eq_some {c t r : Nat} {d : ℤ} :
    computeDivisor c t r = some d ↔ t ≠ 0 ∧ truncTowardZero (divisorQuotient c t r) = d := by
  by_cases ht : t = 0
  · simp [ht, computeDivisor_zero]
  · simp [ht, computeDivisor_eq ht]

theorem divisorQuotient_anti {c t t' r r' : Nat} (ht : t ≠ 0) (htt : t ≤ t') (hrr : r ≤ r') :
    divisorQuotient c t' r' ≤ divisorQuotient c t r := by
  have ht' : (0 : ℚ) < t := Nat.cast_pos.mpr (Nat.pos_of_ne_zero ht)
  unfold divisorQuotient
  gcongr

/-- Settles O49: the rational falls in both arguments, and truncation is monotone. -/
theorem computeDivisorMonotone : Obligations.ComputeDivisorMonotone := by
  intro c t t' r r' d d' htt hrr hd hd'
  obtain ⟨ht, rfl⟩ := computeDivisor_eq_some.mp hd
  obtain ⟨-, rfl⟩ := computeDivisor_eq_some.mp hd'
  exact truncTowardZero_mono (divisorQuotient_anti ht htt hrr)

/-- A byte is the divisor `d` exactly where `d` is in its range, and then it is the byte of `d`. -/
theorem ofInt_eq_iff {d : ℤ} {b : Byte} : (0 ≤ d ∧ d ≤ 255) ∧ BitVec.ofInt 8 d = b ↔ d = b.toNat := by
  constructor
  · rintro ⟨⟨h0, h255⟩, rfl⟩
    rw [BitVec.toNat_ofInt]
    omega
  · rintro rfl
    have := b.isLt
    exact ⟨by omega, by simp⟩

/-- Settles O50: where there is a result, it is admitted exactly in the range of a byte. -/
theorem divisorAdmission : Obligations.DivisorAdmission := by
  intro c t r d
  by_cases ht : t = 0
  · simp [ht, admitDivisor, computeDivisor_zero]
  · simp [ht, admitDivisor, computeDivisor_eq ht, ofInt_eq_iff]

/-- A call of `computeDivisor` hands its value over, after the engine's turn (R8, R151). -/
theorem exec_computeDivisor {c t r : Nat} {s : State} (h : s.accepts) :
    exec (.computeDivisor c t r) s =
      .next { engineTurn (recordContract (.computeDivisor c t r) s) with answer := divisorAnswer c t r } := by
  rw [exec, execComputeDivisor, enter_accepts h, runActions_cons, runActions_nil, runAction_none (by exact h.1.2)]
  rfl

/-- Settles O47: the contract is kept, and the value is `computeDivisor_eq`'s. -/
theorem computeDivisorResult : Obligations.ComputeDivisorResult := by
  rintro c t r s h ht x rfl
  have ha : divisorAnswer c t r = .divisor (truncTowardZero (divisorQuotient c t r)) := by rw [divisorAnswer, computeDivisor_eq ht]
  rw [exec_computeDivisor h, ha, recordContract_kept (by simp [requires, ht])]
  rfl

/-- Settles O48: there is no value to hand over, and the contract is broken. -/
theorem zeroBusFrequencyHasNoResult : Obligations.ZeroBusFrequencyHasNoResult := by
  intro c r s h
  refine ⟨computeDivisor_zero c r, ?_⟩
  have hv : recordContract (.computeDivisor c 0 r) s = { s with violated := true } := by simp [recordContract, requires]
  rw [exec_computeDivisor h, hv]
  rfl

end Sys2Proof.Machine
end

section
/-! PROOFS. The bus recovery (41_bus_recovery.md): `BRST` on lines that are known (R190 to R195), and its bounds on any lines (R196). -/

namespace Sys2Proof.Machine

/-! ### The recovery around its attempts -/

/-- The state at the first pass of step 2, from a state with nothing queued (R191, R192). -/
def recoveryBegun (s : State) : State :=
  { s with
    ctrlEnable := false
    txnOpen := false
    rcOuter := 0
    sda := { s.sda with dir := .input, pu := true }
    scl := { s.scl with dir := .input, pu := true }
    trace := s.trace ++ recoveryStep1Events }

/-- The state after step 3, from a state with nothing queued (R195). -/
def recoveryEnabled (s : State) : State :=
  { s with
    ctrlEnable := true
    busState := .idle
    busReset := true
    sda := { s.sda with dir := .input }
    scl := { s.scl with dir := .input }
    trace := s.trace ++ recoveryStep3Events }

/-- With nothing queued a recovery is its attempts, step 3, and the result they had (R190, R195). -/
theorem recover_rest {s u : State} {freed : Bool} (hn : s.noReset) (hq : s.q = [])
    (h : attemptLoop recoveryOuterMax (recoveryBegun s) = (freed, u)) (hnu : u.noReset) (hqu : u.q = []) :
    recover s = (if freed then doneWith .brst else failWith .brst .recoveryExhausted) (recoveryEnabled u) := by
  have hbegin : runActions [clearOuter] (recoveryStep1 s) = recoveryBegun s := recoveryStep1_rest hn hq
  have henable : runActions (enableActions ++ [busResetDone]) u = recoveryEnabled u := recoveryStep3_rest hnu hqu
  have hne : (recoveryEnabled u).noReset := hnu
  have hqe : (recoveryEnabled u).q = [] := hqu
  simp only [recover, hbegin, h, henable, runActions_cons, runActions_nil, runAction_rest hne hqe]

theorem exec_brst {s : State} (h : s.accepts) : exec .brst s = .next (recover (recordContract .brst s)) := by
  rw [exec, execBrst, enter_accepts h]

/-! ### One pass on known lines -/

/-- A high sample ends step 2, freed (R192). -/
theorem attemptLoop_high {s : State} {ls : List Bool} (n : Nat) (hn : s.noReset) (hq : s.q = []) (hc : s.ctrlEnable = false)
    (hd : s.sda.dir = .input) (he : s.envLines = true :: ls) :
    attemptLoop (n + 1) s = (true, { s with envLines := ls, trace := s.trace ++ [.pinRead .sda true] }) := by
  simp only [attemptLoop, readData_rest hn hq hc hd he, if_true]

/-- A low sample leads to an attempt, and to the next pass (R192). -/
theorem attemptLoop_low {s : State} {ls : List Bool} (n : Nat) (hn : s.noReset) (hq : s.q = []) (hc : s.ctrlEnable = false)
    (hd : s.sda.dir = .input) (he : s.envLines = false :: ls) :
    attemptLoop (n + 1) s =
      attemptLoop n (runActions [countAttempt] (manualStop (pulses
        { s with envLines := ls, trace := s.trace ++ [.pinRead .sda false] }))) := by
  simp only [attemptLoop, readData_rest hn hq hc hd he, Bool.false_eq_true, if_false]

/-- An attempt whose data line goes high after `k + 1` pulses (R193, R194). -/
theorem attempt_freed {s : State} {k : Nat} {ls : List Bool} (hn : s.noReset) (hq : s.q = []) (hc : s.ctrlEnable = false)
    (hd : s.sda.dir = .input) (hk : k < recoveryInnerMax) (he : s.envLines = List.replicate k false ++ true :: ls) :
    runActions [countAttempt] (manualStop (pulses s)) =
      { s with
        scl := { s.scl with dir := .output, out := true }
        sda := { s.sda with dir := .input, out := false }
        rcOuter := s.rcOuter + 1
        rcInner := BitVec.ofNat 5 (k + 1)
        envLines := ls
        trace := s.trace ++ [.pinOut .scl true, .pinDir .scl .output] ++
          (List.replicate k (pulseEvents (halfPeriodUs s.cfg) false)).flatten ++
          pulseEvents (halfPeriodUs s.cfg) true ++ manualStopEvents (halfPeriodUs s.cfg) } := by
  rw [pulses, pulsesBegin_rest hn hq,
    pulseLoop_freed k recoveryInnerMax _ ls (by exact hn) (by exact hq) (by exact hc) (by exact hd) hk (by exact he),
    manualStop_rest (by exact hn) (by exact hq)]
  simp

/-- The events of a pass whose data line never goes high: the sample, sixteen pulses, the manual stop (R192 to R194). -/
def heldPassEvents (h : BitVec 16) : List Event :=
  [.pinRead .sda false, .pinOut .scl true, .pinDir .scl .output] ++
    (List.replicate recoveryInnerMax (pulseEvents h false)).flatten ++ manualStopEvents h

/-- A pass whose data line never goes high (R192 to R194). -/
theorem attemptLoop_held {s : State} {ls : List Bool} (n : Nat) (hn : s.noReset) (hq : s.q = []) (hc : s.ctrlEnable = false)
    (hd : s.sda.dir = .input) (he : s.envLines = false :: (List.replicate recoveryInnerMax false ++ ls)) :
    attemptLoop (n + 1) s =
      attemptLoop n { s with
        scl := { s.scl with dir := .output, out := true }
        sda := { s.sda with dir := .input, out := false }
        rcOuter := s.rcOuter + 1
        rcInner := BitVec.ofNat 5 recoveryInnerMax
        envLines := ls
        trace := s.trace ++ heldPassEvents (halfPeriodUs s.cfg) } := by
  rw [attemptLoop_low n hn hq hc hd he, pulses, pulsesBegin_rest (by exact hn) (by exact hq),
    pulseLoop_held recoveryInnerMax _ ls (by exact hn) (by exact hq) (by exact hc) (by exact hd) (by decide) rfl,
    manualStop_rest (by exact hn) (by exact hq)]
  simp [heldPassEvents]

theorem rcOuter_add (x : BitVec 2) (k : Nat) : x + 1 + BitVec.ofNat 2 k = x + BitVec.ofNat 2 (k + 1) := by
  rw [Nat.add_comm k, BitVec.ofNat_add, BitVec.add_assoc]
  rfl

/-- Passes whose data line never goes high end exhausted (R192). -/
theorem attemptLoop_exhausted : ∀ (n : Nat) (s : State) (ls : List Bool), s.noReset → s.q = [] → s.ctrlEnable = false →
    s.sda.dir = .input → 0 < n →
    s.envLines = (List.replicate n (false :: List.replicate recoveryInnerMax false)).flatten ++ ls →
    attemptLoop n s =
      (false, { s with
        scl := { s.scl with dir := .output, out := true }
        sda := { s.sda with dir := .input, out := false }
        rcOuter := s.rcOuter + BitVec.ofNat 2 n
        rcInner := BitVec.ofNat 5 recoveryInnerMax
        envLines := ls
        trace := s.trace ++ (List.replicate n (heldPassEvents (halfPeriodUs s.cfg))).flatten }) := by
  intro n
  induction n with
  | zero => intro s ls _ _ _ _ h; omega
  | succ n ih =>
    intro s ls hn hq hc hd _ he
    rw [List.replicate_succ, List.flatten_cons, List.append_assoc, List.cons_append] at he
    rw [attemptLoop_held n hn hq hc hd he]
    rcases Nat.eq_zero_or_pos n with rfl | hpos
    · simp [attemptLoop]
    · rw [ih _ ls (by exact hn) (by exact hq) (by exact hc) rfl hpos rfl]
      simp [List.replicate_succ]
      exact rcOuter_add _ _

/-! ### `BRST` on known lines -/

/-- Settles O31: the first sample ends step 2 before any attempt. -/
theorem brstOnFreeBus : Obligations.BrstOnFreeBus := by
  intro s ls h hq he
  have hn : (recordContract .brst s).noReset := h.2
  have hloop := attemptLoop_high (s := recoveryBegun (recordContract .brst s)) 2 hn hq rfl rfl he
  rw [exec_brst (accepts_of_empty h hq), recover_rest hn hq hloop (by exact hn) (by exact hq)]
  simp [recoveryEnabled, recoveryBegun, doneWith, emit, recordContract, requires, h.1]

/-- Settles O32: a low sample, an attempt freed by its last pulse, and a high sample. -/
theorem brstFreedAfterPulses : Obligations.BrstFreedAfterPulses := by
  intro s k ls h hq hk hk16 he
  obtain ⟨k, rfl⟩ : ∃ j, k = j + 1 := ⟨k - 1, by omega⟩
  rw [Nat.add_sub_cancel] at he ⊢
  have hn : (recordContract .brst s).noReset := h.2
  have hlow := attemptLoop_low (s := recoveryBegun (recordContract .brst s)) 2 hn hq rfl rfl he
  rw [attempt_freed (by exact hn) (by exact hq) rfl rfl (by exact hk16) rfl,
    attemptLoop_high 1 (by exact hn) (by exact hq) rfl rfl rfl] at hlow
  rw [exec_brst (accepts_of_empty h hq), recover_rest hn hq hlow (by exact hn) (by exact hq)]
  simp [recoveryEnabled, recoveryBegun, doneWith, emit, recordContract, requires, h.1]

/-- Settles O33: three passes whose data line never goes high. -/
theorem brstExhausted : Obligations.BrstExhausted := by
  intro s ls h hq he
  have hn : (recordContract .brst s).noReset := h.2
  have hloop := attemptLoop_exhausted recoveryOuterMax (recoveryBegun (recordContract .brst s)) ls hn hq rfl rfl (by decide) he
  rw [exec_brst (accepts_of_empty h hq), recover_rest hn hq hloop (by exact hn) (by exact hq)]
  simp [-List.reduceReplicate, recoveryEnabled, recoveryBegun, heldPassEvents, recoveryOuterMax, recoveryInnerMax, failWith,
    ResultCode.faultBit, emit, recordContract, requires, h.1]

/-! ### `BRST` on any lines -/

/-- What a part of step 2 may write: the pins but for their pull-ups, the counters, the environment's line answers and the trace. -/
structure RecoveryWrites where
  sda : Pin
  scl : Pin
  outer : BitVec 2
  inner : BitVec 5
  lines : List Bool
  draws : Nat
  events : List Event

/-- The state after such writes. -/
def RecoveryWrites.applied (w : RecoveryWrites) (s : State) : State :=
  { s with
    sda := { w.sda with pu := s.sda.pu }
    scl := { w.scl with pu := s.scl.pu }
    rcOuter := w.outer
    rcInner := w.inner
    envLines := w.lines
    draws := w.draws
    trace := s.trace ++ w.events }

/-- How often the data line is sampled. -/
def sampleCount (evs : List Event) : Nat := evs.countP fun e => e = .pinRead .sda true ∨ e = .pinRead .sda false

/-- How often the half-period `h` is waited for. -/
def delayCount (h : BitVec 16) (evs : List Event) : Nat := evs.countP fun e => e = .delayUs h

@[simp] theorem sampleCount_append (a b : List Event) : sampleCount (a ++ b) = sampleCount a + sampleCount b := List.countP_append

@[simp] theorem delayCount_append (h : BitVec 16) (a b : List Event) : delayCount h (a ++ b) = delayCount h a + delayCount h b :=
  List.countP_append

/-- From `s` to `t` a part of step 2 has sampled the data line `r` times and waited `d` half-periods, and has sent nothing. -/
def RecoveryPart (r d : Nat) (s t : State) : Prop :=
  ∃ w : RecoveryWrites, t = w.applied s ∧ sampleCount w.events = r ∧ delayCount (halfPeriodUs s.cfg) w.events = d ∧
    controlEvents w.events = w.events

theorem RecoveryPart.noReset {r d : Nat} {s t : State} (h : RecoveryPart r d s t) (hn : s.noReset) : t.noReset := by
  obtain ⟨w, rfl, -⟩ := h
  exact hn

theorem RecoveryPart.queue {r d : Nat} {s t : State} (h : RecoveryPart r d s t) (hq : s.q = []) : t.q = [] := by
  obtain ⟨w, rfl, -⟩ := h
  exact hq

theorem RecoveryPart.refl (s : State) : RecoveryPart 0 0 s s :=
  ⟨⟨s.sda, s.scl, s.rcOuter, s.rcInner, s.envLines, s.draws, []⟩, by simp [RecoveryWrites.applied], rfl, rfl, rfl⟩

theorem RecoveryPart.trans {r r' d d' : Nat} {s t u : State} (h : RecoveryPart r d s t) (h' : RecoveryPart r' d' t u) :
    RecoveryPart (r + r') (d + d') s u := by
  obtain ⟨v, rfl, rfl, rfl, hv⟩ := h
  obtain ⟨w, rfl, rfl, rfl, hw⟩ := h'
  exact ⟨{ w with events := v.events ++ w.events }, by simp [RecoveryWrites.applied], sampleCount_append .., delayCount_append ..,
    by rw [controlEvents_append, hv, hw]⟩

/-- The environment answers a line read with its next answer, or with a draw (R86). -/
theorem lineTaken_eq (s : State) : lineTaken s = { s with envLines := (lineTaken s).envLines, draws := (lineTaken s).draws } := by
  unfold lineTaken
  split <;> rfl

/-- A sample of the data line, whatever the line does (R86). -/
theorem readData_part {s : State} (hn : s.noReset) (hq : s.q = []) : RecoveryPart 1 0 s (readData s).2 := by
  have hread : (readData s).2 = emit (.pinRead .sda (pinRead .sda s).1) (lineTaken s) := by
    rw [readData_snd, runAction_rest hn hq, pinRead_snd]
  rw [hread, lineTaken_eq]
  exact ⟨⟨s.sda, s.scl, s.rcOuter, s.rcInner, (lineTaken s).envLines, (lineTaken s).draws, [.pinRead .sda (pinRead .sda s).1]⟩,
    rfl, by cases (pinRead .sda s).1 <;> rfl, rfl, rfl⟩

/-- A pulse waits two half-periods (R193). -/
theorem pulse_part {s : State} (hn : s.noReset) (hq : s.q = []) : RecoveryPart 0 2 s (pulse s) := by
  rw [pulse_rest hn hq]
  exact ⟨⟨s.sda, { s.scl with out := true }, s.rcOuter, s.rcInner + 1, s.envLines, s.draws,
    [.pinOut .scl false, .delayUs (halfPeriodUs s.cfg), .pinOut .scl true, .delayUs (halfPeriodUs s.cfg)]⟩,
    rfl, by simp [sampleCount], by simp [delayCount], rfl⟩

/-- At most `n` pulses, each of two half-periods and with its sample (R193). -/
theorem pulseLoop_part : ∀ (n : Nat) (s : State), s.noReset → s.q = [] → ∃ k ≤ n, RecoveryPart k (2 * k) s (pulseLoop n s) := by
  intro n
  induction n with
  | zero => intro s _ _; exact ⟨0, le_rfl, .refl s⟩
  | succ n ih =>
    intro s hn hq
    have hpulse := pulse_part hn hq
    have hone := hpulse.trans (readData_part (hpulse.noReset hn) (hpulse.queue hq))
    rw [pulseLoop]
    split
    · exact ⟨1, by omega, hone⟩
    · obtain ⟨k, hk, hrest⟩ := ih _ (hone.noReset hn) (hone.queue hq)
      exact ⟨k + 1, by omega, by simpa [Nat.mul_add, Nat.add_comm] using hone.trans hrest⟩

/-- An attempt: at most sixteen pulses, and the four half-periods of the manual stop (R193, R194). -/
theorem attempt_part {s : State} (hn : s.noReset) (hq : s.q = []) :
    ∃ k ≤ recoveryInnerMax, RecoveryPart k (2 * k + 4) s (runActions [countAttempt] (manualStop (pulses s))) := by
  have hbegin : RecoveryPart 0 0 s (runActions [pinWrite .scl true, pinSetDirection .scl .output, clearInner] s) := by
    rw [pulsesBegin_rest hn hq]
    exact ⟨⟨s.sda, { s.scl with dir := .output, out := true }, s.rcOuter, 0, s.envLines, s.draws,
      [.pinOut .scl true, .pinDir .scl .output]⟩, rfl, by simp [sampleCount], by simp [delayCount], rfl⟩
  obtain ⟨k, hk, hloop⟩ := pulseLoop_part recoveryInnerMax _ (hbegin.noReset hn) (hbegin.queue hq)
  have hpulses : RecoveryPart (0 + k) (0 + 2 * k) s (pulses s) := hbegin.trans hloop
  rw [Nat.zero_add, Nat.zero_add] at hpulses
  refine ⟨k, hk, hpulses.trans (r' := 0) ?_⟩
  rw [manualStop_rest (hpulses.noReset hn) (hpulses.queue hq)]
  generalize pulses s = u
  exact ⟨⟨{ u.sda with dir := .input, out := false }, { u.scl with out := true }, u.rcOuter + 1, u.rcInner, u.envLines, u.draws,
    manualStopEvents (halfPeriodUs u.cfg)⟩, rfl, by simp [sampleCount, manualStopEvents],
    by simp [delayCount, manualStopEvents], rfl⟩

/-- Step 2: at most 17 samples and 36 half-periods in a pass, and at least one sample (R196). -/
theorem attemptLoop_part : ∀ (n : Nat) (s : State), s.noReset → s.q = [] →
    ∃ r d, r ≤ 17 * n ∧ d ≤ 36 * n ∧ (0 < n → 1 ≤ r) ∧ RecoveryPart r d s (attemptLoop n s).2 := by
  intro n
  induction n with
  | zero => intro s _ _; exact ⟨0, 0, le_rfl, le_rfl, fun h => h, .refl s⟩
  | succ n ih =>
    intro s hn hq
    have hread := readData_part hn hq
    rw [attemptLoop]
    split
    · exact ⟨1, 0, by omega, by omega, fun _ => le_rfl, hread⟩
    · obtain ⟨k, hk, hattempt⟩ := attempt_part (hread.noReset hn) (hread.queue hq)
      have hpass := hread.trans hattempt
      obtain ⟨r, d, hr, hd, -, hrest⟩ := ih _ (hpass.noReset hn) (hpass.queue hq)
      have hk16 : k ≤ 16 := hk
      exact ⟨_, _, by omega, by omega, fun _ => by omega, hpass.trans hrest⟩

/-- What step 1 makes of `s` as far as the engine goes: it has one turn, and what it leaves queued is dropped (R191). -/
def queueDropped (s : State) : State := { engineTurn s with q := [] }

/-- A recovery is the same from a state whose engine has had its turn and has nothing left queued (R191). -/
theorem recover_queueDropped {s : State} (hn : s.noReset) : recover s = recover (queueDropped s) := by
  have hnd : (queueDropped s).noReset := engineTurn_noReset hn
  have hstep1 : recoveryStep1 s = recoveryStep1 (queueDropped s) := by
    simp only [recoveryStep1, runActions_cons, runAction_none hn, runAction_rest hnd rfl]
    rfl
  rw [recover, recover, hstep1]

/-- An operation that ends `OK` sets no bit of `FAULTS` (R45, R254). -/
theorem doneWith_eq_failWith (op : OpName) (s : State) : doneWith op s = failWith op .ok s := by
  simp [doneWith, failWith, ResultCode.faultBit, emit]

/-- A recovery without a reset: its attempts within the bounds of R196, step 3, and its result (R190, R195). -/
theorem recover_bounded {s : State} (hn : s.noReset) :
    ∃ (c : ResultCode) (r d : Nat) (u : State), (c = .ok ∨ c = .recoveryExhausted) ∧ 1 ≤ r ∧ r ≤ 51 ∧ d ≤ 108 ∧
      RecoveryPart r d (recoveryBegun (queueDropped s)) u ∧ recover s = failWith .brst c (recoveryEnabled u) := by
  have hnd : (queueDropped s).noReset := engineTurn_noReset hn
  obtain ⟨r, d, hr, hd, hpos, hpart⟩ := attemptLoop_part recoveryOuterMax (recoveryBegun (queueDropped s)) hnd rfl
  rcases hloop : attemptLoop recoveryOuterMax (recoveryBegun (queueDropped s)) with ⟨freed, u⟩
  rw [hloop] at hpart
  have hend := recover_rest hnd rfl hloop (hpart.noReset hnd) (hpart.queue rfl)
  rw [← recover_queueDropped hn] at hend
  cases freed
  · exact ⟨.recoveryExhausted, r, d, u, .inr rfl, hpos (by decide), hr, hd, hpart, hend⟩
  · exact ⟨.ok, r, d, u, .inl rfl, hpos (by decide), hr, hd, hpart, hend.trans (doneWith_eq_failWith ..)⟩

/-- The events of a recovery whose step 2 has the events `evs` (R190). -/
def recoveryEvents (evs : List Event) (c : ResultCode) : List Event :=
  recoveryStep1Events ++ evs ++ recoveryStep3Events ++ [.done .brst c]

/-- The data line is sampled in step 2 only. -/
theorem sampleCount_recoveryEvents (evs : List Event) (c : ResultCode) : sampleCount (recoveryEvents evs c) = sampleCount evs := by
  simp [recoveryEvents, sampleCount, recoveryStep1Events, recoveryStep3Events]

/-- A half-period is waited for in step 2 only. -/
theorem delayCount_recoveryEvents (h : BitVec 16) (evs : List Event) (c : ResultCode) :
    delayCount h (recoveryEvents evs c) = delayCount h evs := by
  simp [recoveryEvents, delayCount, recoveryStep1Events, recoveryStep3Events]

theorem controlEvents_recoveryEvents {evs : List Event} (h : controlEvents evs = evs) (c : ResultCode) :
    controlEvents (recoveryEvents evs c) = recoveryEvents evs c := by
  simp only [recoveryEvents, controlEvents_append, h]
  rfl

/-- What a recovery appends to the trace, after what the engine sent in its turn. -/
theorem recovery_trace (w : RecoveryWrites) (c : ResultCode) (s : State) :
    (failWith .brst c (recoveryEnabled (w.applied (recoveryBegun (queueDropped s))))).trace =
      (engineTurn s).trace ++ recoveryEvents w.events c := by
  simp [recoveryEvents, recoveryEnabled, RecoveryWrites.applied, recoveryBegun, queueDropped]

/-- Settles O34: the engine's turn, step 1, at most three passes, step 3, and the result. -/
theorem brstAlwaysEndsEnabled : Obligations.BrstAlwaysEndsEnabled := by
  intro s h
  obtain ⟨c, r, d, u, hc, hpos, hr, hd, ⟨w, rfl, rfl, rfl, hcontrol⟩, hend⟩ := recover_bounded (s := recordContract .brst s) h.1.2
  have hcfg : (recoveryBegun (queueDropped (recordContract .brst s))).cfg = s.cfg := engineTurn_cfg _
  rw [hcfg, ← delayCount_recoveryEvents _ _ c] at hd
  rw [← sampleCount_recoveryEvents _ c] at hpos hr
  have hfaults : (c = .ok ∧ s.faults ||| c.faultBit = s.faults) ∨
      (c = .recoveryExhausted ∧ s.faults ||| c.faultBit = s.faults ||| 0b010) :=
    hc.imp (fun e => ⟨e, by simp [e, ResultCode.faultBit]⟩) (fun e => ⟨e, by simp [e, ResultCode.faultBit]⟩)
  refine ⟨_, recoveryEvents w.events c, by rw [exec_brst h, hend], ?trace, hpos, hr, hd, ?state⟩
  case trace =>
    rw [recovery_trace, controlEvents_append, engineTurn_controlEvents, controlEvents_recoveryEvents hcontrol]
    rfl
  case state => simpa [recoveryEnabled, RecoveryWrites.applied, recoveryBegun, queueDropped] using hfaults

end Sys2Proof.Machine
end

section
/-! PROOFS. The framer on an engine at rest (42_display_controller.md): the four operations when the engine is granted its steps, and
the two pseudo-operations that send one display transaction per byte (R211 to R219). -/

namespace Sys2Proof.Machine

/-! ### A transaction that goes through -/

/-- What a display transaction leaves on a bus at rest whose engine is granted its four steps, `gs` the grants after them (R219). -/
def frameSent (sel x : Byte) (gs : List Nat) (s : State) : State :=
  { s with
    maddr := 0x7C, mdata := x, wif := false, rif := false, wc := 0, txnOpen := false, envGrants := gs
    trace := s.trace ++ frameEvents sel x }

/-- The transaction goes through, and the engine's turn after it performs the stop (R94, R219). -/
theorem frame_sent {s : State} {g1 g2 g3 g4 : Nat} {gs : List Nat} (sel x : Byte) (hn : s.noReset) (h : s.engineAtRest)
    (he : s.envGrants = (g1 + 1) :: (g2 + 1) :: (g3 + 1) :: (g4 + 1) :: gs) :
    ∃ u, frame sel x .start s = .go u ∧ u.noReset ∧ engineTurn u = frameSent sel x gs s := by
  obtain ⟨u, hu, hturn⟩ := frame_granted_stop sel x hn h he
  refine ⟨u, hu, ?_, hturn⟩
  rw [State.noReset, ← engineTurn_resetIn, ← engineTurn_envResets, hturn]
  exact hn

/-- A framer operation whose transaction is through settles the display's mode and ends (R210). -/
theorem framerOp_through {op : OpName} {i : Instr} {sel x : Byte} {f g : State → State} {k : Stage} {s u : State}
    (hf : frame sel x k (if k = .start then f s else s) = .go u) (hn : u.noReset) (hg : (g (engineTurn u)).noReset) :
    framerOp op i sel x f g k s = doneWith op (engineTurn (g (engineTurn u))) := by
  simp only [framerOp, hf, runActions_done hn hg]

/-- A framer operation whose transaction stands in a wait has made a failed poll there (R219). -/
theorem framerOp_blocked {op : OpName} {i : Instr} {sel x : Byte} {f g : State → State} {k j : Stage} {s u : State}
    (hf : frame sel x k (if k = .start then f s else s) = .blocked j u) :
    framerOp op i sel x f g k s = pollFailed op i j u := by
  simp only [framerOp, hf]

/-- A framer operation on a bus at rest whose engine is granted its four steps. -/
theorem framerOp_granted {op : OpName} {i : Instr} {sel x : Byte} {f g : State → State} {s : State} {g1 g2 g3 g4 : Nat} {gs : List Nat}
    (hn : (f s).noReset) (h : (f s).engineAtRest) (hg : State.Rests g)
    (he : (f s).envGrants = (g1 + 1) :: (g2 + 1) :: (g3 + 1) :: (g4 + 1) :: gs) :
    framerOp op i sel x f g .start s = doneWith op (g (frameSent sel x gs (f s))) := by
  obtain ⟨u, hu, hun, hturn⟩ := frame_sent sel x hn h he
  obtain ⟨hq, hr, her⟩ := hg (frameSent sel x gs (f s))
  obtain ⟨-, hrest, -⟩ := h
  rw [framerOp_through (by exact hu) hun, hturn, engineTurn_empty (hq hrest)]
  rw [hturn]
  exact ⟨hr.trans hn.1, her.trans hn.2⟩

theorem id_rests : State.Rests id := fun _ => ⟨id, rfl, rfl⟩

theorem setMode_rests (m : DispMode) : State.Rests (setMode m) := fun _ => ⟨id, rfl, rfl⟩

/-- A quiet block whose engine is at rest takes up a request. -/
theorem accepts_of_atRest {s : State} (h : s.quiet) (hrest : s.engineAtRest) : s.accepts := by
  obtain ⟨-, hq, -⟩ := hrest
  exact accepts_of_empty h hq

/-! ### The four operations -/

theorem setAddressForm_iff {c : Config} {b : Byte} :
    setAddressForm c b = true ↔ b &&& c.cursorBase = c.cursorBase ∨ b &&& c.glyphBase = c.glyphBase := by
  simp [setAddressForm]

/-- What a raw command byte does to the display's mode, and to nothing else (R218). -/
theorem modeAfterCommand_eq (c : Byte) (s : State) :
    modeAfterCommand c s =
      { s with
        dispMode :=
          if c &&& s.cfg.cursorBase = s.cfg.cursorBase ∨ c &&& s.cfg.glyphBase = s.cfg.glyphBase then Config.freeMode s.draws
          else s.dispMode
        draws :=
          if c &&& s.cfg.cursorBase = s.cfg.cursorBase ∨ c &&& s.cfg.glyphBase = s.cfg.glyphBase then s.draws + 1
          else s.draws } := by
  simp only [modeAfterCommand, setAddressForm_iff]
  split <;> rfl

/-- Settles O35: the mode by the byte's form, then the transaction. -/
theorem wcmdResult : Obligations.WcmdResult := by
  intro c s g1 g2 g3 g4 gs h hrest he
  have hmode := modeAfterCommand_eq c (recordContract (.wcmd c) s)
  rw [exec, execWcmd, enter_accepts (accepts_of_atRest h hrest),
    framerOp_granted (by rw [hmode]; exact h.2) (by rw [hmode]; exact hrest) id_rests (by rw [hmode]; exact he), hmode]
  simp [doneWith, emit, frameSent, recordContract, selCommand, h.1]

/-- The commands that set the display's mode: a draw while the operation runs, and mode `m` once it is through (R212, R213). -/
theorem setAddress_granted {op : OpName} {i : Instr} {x : Byte} {m : DispMode} {s : State} {g1 g2 g3 g4 : Nat} {gs : List Nat}
    (h : s.quiet) (hrest : s.engineAtRest) (he : s.envGrants = (g1 + 1) :: (g2 + 1) :: (g3 + 1) :: (g4 + 1) :: gs) :
    framerOp op i 0x00 x drawMode (setMode m) .start (recordContract i s) =
      { s with
        maddr := 0x7C, mdata := x, wif := false, rif := false, wc := 0, txnOpen := false, result := .ok, envGrants := gs
        draws := s.draws + 1, dispMode := m, violated := s.violated || !requires i s
        trace := s.trace ++ frameEvents 0x00 x ++ [.done op .ok] } := by
  rw [framerOp_granted (by exact h.2) (by exact hrest) (setMode_rests m) (by exact he)]
  simp [doneWith, emit, setMode, frameSent, drawMode, recordContract, h.1]

/-- Settles O36: `SCUR` sets the cursor mode. -/
theorem scurResult : Obligations.ScurResult := by
  intro o s g1 g2 g3 g4 gs h hrest he
  rw [exec, execScur, enter_accepts (accepts_of_atRest h hrest)]
  exact congrArg _ (setAddress_granted h hrest he)

/-- Settles O37: `SGLY` sets the glyph mode. -/
theorem sglyResult : Obligations.SglyResult := by
  intro o s g1 g2 g3 g4 gs h hrest he
  rw [exec, execSgly, enter_accepts (accepts_of_atRest h hrest)]
  exact congrArg _ (setAddress_granted h hrest he)

/-- `WCHR b` runs its transaction with the data selector, its contract recorded (R214). -/
theorem exec_wchr {b : Byte} {s : State} (h : s.accepts) :
    exec (.wchr b) s = .next (framerOp .wchr (.wchr b) 0x40 b id id .start (recordContract (.wchr b) s)) := by
  rw [exec, execWchr, enter_accepts h]
  rfl

/-- An engine withheld at two turns leaves its queue as it is (R79). -/
theorem engineTurn_held_twice {s : State} {x : WireAction} {q : List WireAction} {gs : List Nat} (hc : s.ctrlEnable = true)
    (hr : s.resetIn = false) (hq : s.q = x :: q) (hb : ∀ b, x = .data b → s.busState = .busy) (he : s.envGrants = 0 :: 0 :: gs) :
    engineTurn (engineTurn s) = { s with envGrants := gs } := by
  rw [engineTurn_held (s := s) hc hr hq hb he]
  exact engineTurn_held (s := { s with envGrants := 0 :: gs }) hc hr hq hb rfl

/-- Settles O38: the stop is performed at the turn after the transaction, or withheld at the two turns before the end (R96). -/
theorem wchrResult : Obligations.WchrResult := by
  intro b s g1 g2 g3 gs h hrest
  rw [exec_wchr (accepts_of_atRest h hrest)]
  refine ⟨fun g4 he => ?performed, fun he => ?queued⟩
  case performed =>
    rw [framerOp_granted (by exact h.2) (by exact hrest) id_rests (by exact he)]
    simp [doneWith, emit, frameSent, recordContract, h.1]
  case queued =>
    have hsent := frame_granted (s := recordContract (.wchr b) s) 0x40 b h.2 hrest he
    rw [framerOp_through hsent (by exact h.2) (by exact engineTurn_noReset h.2), id_eq,
      engineTurn_held_twice (x := .stop) (q := []) (by exact hrest.1) (by exact h.2.1) rfl (by simp) rfl]
    simp [doneWith, emit, recordContract, h.1]

/-! ### One transaction per byte -/

/-- Four turns at which the engine is granted a step, and the others (R79). -/
theorem State.granted.transaction {n : Nat} {s : State} (h : s.granted (4 * (n + 1))) :
    ∃ g1 g2 g3 g4 gs, s.envGrants = (g1 + 1) :: (g2 + 1) :: (g3 + 1) :: (g4 + 1) :: gs ∧
      ∀ u : State, u.envGrants = gs → u.granted (4 * n) := by
  obtain ⟨g1, l1, e1, h1⟩ := State.granted.head h
  obtain ⟨g2, l2, e2, h2⟩ := State.granted.head (h1 { s with envGrants := l1 } rfl)
  obtain ⟨g3, l3, e3, h3⟩ := State.granted.head (h2 { s with envGrants := l2 } rfl)
  obtain ⟨g4, gs, e4, h4⟩ := State.granted.head (h3 { s with envGrants := l3 } rfl)
  have e2 : l1 = (g2 + 1) :: l2 := e2
  have e3 : l2 = (g3 + 1) :: l3 := e3
  have e4 : l3 = (g4 + 1) :: gs := e4
  exact ⟨g1, g2, g3, g4, gs, by rw [e1, e2, e3, e4], h4⟩

/-- Every byte of a list is sent, in order, in a transaction of its own, by an engine that is granted its steps (R215). -/
theorem wchrSteps_granted (rest : List Byte → Instr) : ∀ (bs : List Byte) (s : State), s.quiet → s.engineAtRest →
    s.granted (4 * bs.length) →
    wchrSteps rest bs .start s =
      { s with
        maddr := if bs = [] then s.maddr else 0x7C
        mdata := bs.getLast?.getD s.mdata
        wif := if bs = [] then s.wif else false
        rif := if bs = [] then s.rif else false
        wc := if bs = [] then s.wc else 0
        txnOpen := if bs = [] then s.txnOpen else false
        result := if bs = [] then s.result else .ok
        envGrants := s.envGrants.drop (4 * bs.length)
        trace := s.trace ++ bs.flatMap (fun b => frameEvents 0x40 b ++ [.done .wchr .ok]) } := by
  intro bs
  induction bs with
  | nil => intro s _ _ _; simp [wchrSteps]
  | cons b bs ih =>
    intro s h hrest hg
    obtain ⟨g1, g2, g3, g4, gs, he, hgs⟩ := State.granted.transaction hg
    obtain ⟨u, hu, hun, hturn⟩ := frame_sent selData b h.2 hrest he
    have hdone : wchrSteps rest (b :: bs) .start s = wchrSteps rest bs .start (doneWith .wchr (frameSent selData b gs s)) := by
      simp only [wchrSteps, hu, runActions_cons, runActions_nil, runAction_none hun, hturn]
    rw [hdone, ih (doneWith .wchr (frameSent selData b gs s)) ⟨rfl, h.2⟩ hrest (hgs _ rfl)]
    simp [doneWith, emit, frameSent, selData, he, h.1, List.getLast?_cons, Nat.mul_add]

/-- Settles O45: with its contract recorded, the bytes one after another. -/
theorem dwarrResult : Obligations.DwarrResult := by
  intro bs s h hrest hg
  rw [exec, execDwarr, enter_accepts (accepts_of_atRest h hrest),
    wchrSteps_granted .dwarr bs (recordContract (.dwarr bs) s) h hrest hg]
  rfl

/-- Settles O46: the bytes sent are the body of the string; without a terminator there is no meaning. -/
theorem dwstrResult : Obligations.DwstrResult := by
  refine ⟨fun body tail s hb h hrest hg => ?sent, fun bs s hb => ?refused⟩
  case sent =>
    have hz : (body ++ 0x00 :: tail).contains 0x00 = true := by simp
    rw [exec, execDwstr, if_pos hz, enter_accepts (accepts_of_atRest h hrest), stringBody_append_zero hb,
      wchrSteps_granted _ body (recordContract (.dwstr (body ++ 0x00 :: tail)) s) h hrest hg]
    rfl
  case refused =>
    have hz : ¬ bs.contains 0x00 = true := by simpa using hb
    rw [exec, execDwstr, if_neg hz]

end Sys2Proof.Machine
end

section
/-! PROOFS. The framer under every engine and environment (42_display_controller.md): the issues of a display transaction from the wait
it stands in, what a framer operation leaves unchanged, ended, held or timed out, and `WCHR` when a wait times out (R217, R219, R262). -/

namespace Sys2Proof.Machine

/-! ### A display transaction, wait by wait -/

/-- Without a reset, a wait that begins is one that goes on with the poll counter cleared (R158). -/
theorem waitIdle_fresh (k : Stage) {s : State} (hn : s.noReset) : waitIdle k true s = waitIdle k false (clearPolls s) := by
  rw [waitIdle_eq k true hn, waitIdle_eq k false (s := clearPolls s) hn]
  rfl

/-- A wait that goes on is lifted exactly when a flag is up after the engine's turn (R158). -/
theorem waitIdle_andThen (k : Stage) {s : State} (next : State → Flow) (hn : s.noReset) :
    (waitIdle k false s).andThen next = if engineReady (engineTurn s) then next (engineTurn s) else .blocked k (engineTurn s) := by
  rw [waitIdle_eq k false hn]
  simp only [Bool.false_eq_true, if_false]
  split <;> rfl

/-- The start: the address is issued, and the first wait goes on from there. -/
theorem frame_start (sel x : Byte) {s : State} (hn : s.noReset) :
    frame sel x .start s = frame sel x .wait1 (clearPolls (openTransaction 0x7C (engineTurn s))) := by
  have hadr : addrByte = 0x7C := by decide
  simp only [frame, hadr, runActions_cons, runActions_nil, runAction_none hn]
  rw [waitIdle_fresh _ (by exact engineTurn_noReset hn)]

/-- Lifted, the first wait is followed by the selector and the second. -/
theorem frameAfterWait1_eq (sel x : Byte) {s : State} (hn : s.noReset) :
    frameAfterWait1 sel x s = frame sel x .wait2 (clearPolls (busIssue (.data sel) (engineTurn s))) := by
  simp only [frame, frameAfterWait1, runActions_cons, runActions_nil, runAction_none hn]
  rw [waitIdle_fresh _ (by exact engineTurn_noReset hn)]

/-- Lifted, the second wait is followed by the payload and the third. -/
theorem frameAfterWait2_eq (sel x : Byte) {s : State} (hn : s.noReset) :
    frameAfterWait2 x s = frame sel x .wait3 (clearPolls (busIssue (.data x) (engineTurn s))) := by
  simp only [frame, frameAfterWait2, runActions_cons, runActions_nil, runAction_none hn]
  rw [waitIdle_fresh _ (by exact engineTurn_noReset hn)]

/-- Lifted, the third wait is followed by the stop. -/
theorem frameAfterWait3_eq {s : State} (hn : s.noReset) : frameAfterWait3 s = .go (closeTransaction (engineTurn s)) := by
  rw [frameAfterWait3, runActions_cons, runActions_nil, runAction_none hn]

/-! ### What a display transaction leaves alone -/

/-- The part of the state that no framer operation touches. -/
def State.framerPart (s : State) : State :=
  { s.sequencerPart with
    maddr := 0, mdata := 0, rif := false, wc := 0, txnOpen := false, result := .ok, faults := 0, dispMode := .cursor, trace := []
    violated := false, seq := .idle }

theorem framerPart_eq_iff {s t : State} :
    t.framerPart = s.framerPart ↔
      t.divisor = s.divisor ∧ t.ctrlEnable = s.ctrlEnable ∧ t.phase = s.phase ∧ t.dcIp = s.dcIp ∧ t.rcOuter = s.rcOuter ∧
      t.rcInner = s.rcInner ∧ t.sda = s.sda ∧ t.scl = s.scl ∧ t.bmInited = s.bmInited ∧ t.busReset = s.busReset ∧
      t.dispPhase = s.dispPhase ∧ t.host = s.host ∧ t.answer = s.answer ∧ t.envLines = s.envLines ∧
      t.envResets = s.envResets ∧ t.resetIn = s.resetIn ∧ t.cfg = s.cfg := by
  simp [State.framerPart, State.sequencerPart]

/-- From `s` to `t` operation `op`, its address issued, makes the issues `evs` and keeps what no framer operation touches, `MADDR`, and,
if it is `WCHR`, the display's mode; it does not raise the read-complete flag. -/
structure State.FramerKept (op : OpName) (s t : State) (evs : List Event) : Prop where
  part : t.framerPart = s.framerPart
  maddr : t.maddr = s.maddr
  rif : s.rif = false → t.rif = false
  mode : op = .wchr → t.dispMode = s.dispMode
  trace : controlEvents t.trace = controlEvents s.trace ++ evs

theorem State.FramerKept.refl (op : OpName) (s : State) : FramerKept op s s [] := ⟨rfl, rfl, id, fun _ => rfl, by simp⟩

theorem State.FramerKept.trans {op : OpName} {s t u : State} {es fs : List Event} (h : FramerKept op s t es)
    (h' : FramerKept op t u fs) : FramerKept op s u (es ++ fs) where
  part := h'.part.trans h.part
  maddr := h'.maddr.trans h.maddr
  rif := h'.rif ∘ h.rif
  mode e := (h'.mode e).trans (h.mode e)
  trace := by rw [h'.trace, h.trace, List.append_assoc]

/-- The same where the second part issues nothing. -/
theorem State.FramerKept.trans_nil {op : OpName} {s t u : State} {es : List Event} (h : FramerKept op s t es)
    (h' : FramerKept op t u []) : FramerKept op s u es := by
  simpa using h.trans h'

theorem State.FramerKept.noReset {op : OpName} {s t : State} {es : List Event} (h : FramerKept op s t es) (hn : s.noReset) :
    t.noReset :=
  ⟨(congrArg State.resetIn h.part).trans hn.1, (congrArg State.envResets h.part).trans hn.2⟩

theorem State.FramerKept.cfg {op : OpName} {s t : State} {es : List Event} (h : FramerKept op s t es) : t.cfg = s.cfg :=
  (congrArg State.cfg h.part :)

theorem engineTurn_framerKept (op : OpName) (s : State) : s.FramerKept op (engineTurn s) [] where
  part := by simp only [State.framerPart, engineTurn_sequencerPart]
  maddr := engineTurn_maddr s
  rif := (engineTurn_rif s).trans
  mode _ := engineTurn_dispMode s
  trace := by simp

theorem grantTaken_framerKept (op : OpName) (s : State) : s.FramerKept op (grantTaken s) [] where
  part := by simp only [State.framerPart, grantTaken_sequencerPart]
  maddr := grantTaken_maddr s
  rif := (grantTaken_rif s).trans
  mode _ := grantTaken_dispMode s
  trace := by simp

/-- A byte is issued after the engine's turn, and the next wait begins. -/
theorem dataIssued_framerKept (op : OpName) (b : Byte) (s : State) :
    s.FramerKept op (clearPolls (busIssue (.data b) (engineTurn s))) [.issueData b] :=
  (engineTurn_framerKept op s).trans (es := []) ⟨rfl, rfl, fun _ => rfl, fun _ => rfl, by simp [issueEvent, controlEvents, Event.isWire]⟩

/-- The stop is issued after the engine's turn. -/
theorem stopIssued_framerKept (op : OpName) (s : State) : s.FramerKept op (closeTransaction (engineTurn s)) [.issueStop] :=
  (engineTurn_framerKept op s).trans (es := []) ⟨rfl, rfl, fun _ => rfl, fun _ => rfl, by simp [controlEvents, Event.isWire]⟩

/-- What a transaction resumed in wait `k` has done: through, it has made every issue left; in a wait, those before that wait. -/
def Flow.Issues (op : OpName) (sel x : Byte) (k : Stage) (s : State) : Flow → Prop
  | .go t => s.FramerKept op t (framerLeft sel x k)
  | .blocked j t => j ≠ .start ∧ ∃ evs, evs ++ framerLeft sel x j = framerLeft sel x k ∧ s.FramerKept op t evs

/-- A part that leads from wait `k` to wait `k'`, put before what was done from there. -/
theorem Flow.Issues.after {op : OpName} {sel x : Byte} {k k' : Stage} {s u : State} {es : List Event} {f : Flow}
    (h : f.Issues op sel x k' u) (hs : s.FramerKept op u es) (he : es ++ framerLeft sel x k' = framerLeft sel x k) :
    f.Issues op sel x k s := by
  cases f with
  | go t =>
    rw [Flow.Issues, ← he]
    exact hs.trans h
  | blocked j t =>
    obtain ⟨hj, evs, hevs, ht⟩ := h
    exact ⟨hj, es ++ evs, by rw [List.append_assoc, hevs, he], hs.trans ht⟩

/-- One wait: held in it nothing is issued, and lifted the transaction goes on. -/
theorem wait_issues {op : OpName} {sel x : Byte} {k : Stage} {s : State} {next : State → Flow} (hk : k ≠ .start) (hn : s.noReset)
    (hnext : (next (engineTurn s)).Issues op sel x k (engineTurn s)) :
    ((waitIdle k false s).andThen next).Issues op sel x k s := by
  rw [waitIdle_andThen k next hn]
  split
  · exact hnext.after (engineTurn_framerKept op s) rfl
  · exact ⟨hk, [], rfl, engineTurn_framerKept op s⟩

/-- Whatever the engine and the environment do, a transaction resumed in a wait makes the issues it has left, in order (R219). -/
theorem frame_issues (op : OpName) (sel x : Byte) {k : Stage} {s : State} (hk : k ≠ .start) (hn : s.noReset) :
    (frame sel x k s).Issues op sel x k s := by
  have h3 : ∀ u : State, u.noReset → (frame sel x .wait3 u).Issues op sel x .wait3 u := fun u hu =>
    wait_issues (by simp) hu (by rw [frameAfterWait3_eq (engineTurn_noReset hu)]; exact stopIssued_framerKept op _)
  have h2 : ∀ u : State, u.noReset → (frame sel x .wait2 u).Issues op sel x .wait2 u := fun u hu =>
    wait_issues (by simp) hu (by
      have hd := dataIssued_framerKept op x (engineTurn u)
      rw [frameAfterWait2_eq sel x (engineTurn_noReset hu)]
      exact (h3 _ (hd.noReset (engineTurn_noReset hu))).after hd rfl)
  have h1 : ∀ u : State, u.noReset → (frame sel x .wait1 u).Issues op sel x .wait1 u := fun u hu =>
    wait_issues (by simp) hu (by
      have hd := dataIssued_framerKept op sel (engineTurn u)
      rw [frameAfterWait1_eq sel x (engineTurn_noReset hu)]
      exact (h2 _ (hd.noReset (engineTurn_noReset hu))).after hd rfl)
  cases k with
  | start => exact absurd rfl hk
  | wait1 => exact h1 s hn
  | wait2 => exact h2 s hn
  | wait3 => exact h3 s hn

/-! ### A framer operation -/

/-- What happens to the display's mode as operation `i` starts (R211 to R214). -/
def modeBefore : Instr → State → State
  | .wcmd c => modeAfterCommand c
  | .scur _ => drawMode
  | .sgly _ => drawMode
  | _ => id

/-- What happens to the display's mode once the transaction of operation `i` is through (R211 to R214). -/
def modeThrough : Instr → State → State
  | .scur _ => setMode .cursor
  | .sgly _ => setMode .glyph
  | _ => id

theorem drawMode_framerKept {op : OpName} (h : op ≠ .wchr) (s : State) : s.FramerKept op (drawMode s) [] :=
  ⟨rfl, rfl, id, fun e => absurd e h, by simp⟩

theorem setMode_framerKept {op : OpName} (h : op ≠ .wchr) (m : DispMode) (s : State) : s.FramerKept op (setMode m s) [] :=
  ⟨rfl, rfl, id, fun e => absurd e h, by simp⟩

/-- The four framer operations. -/
theorem framed_cases {c : Config} {i : Instr} {op : OpName} {sel x : Byte} (h : framed c i = some (op, sel, x)) :
    (∃ b, i = .wcmd b ∧ op = .wcmd ∧ sel = 0x00 ∧ x = b) ∨
    (∃ o, i = .scur o ∧ op = .scur ∧ sel = 0x00 ∧ x = c.cursorBase ||| o) ∨
    (∃ o, i = .sgly o ∧ op = .sgly ∧ sel = 0x00 ∧ x = c.glyphBase ||| o) ∨
    (∃ b, i = .wchr b ∧ op = .wchr ∧ sel = 0x40 ∧ x = b) := by
  cases i <;> cases h
  · exact .inl ⟨_, rfl, rfl, rfl, rfl⟩
  · exact .inr (.inl ⟨_, rfl, rfl, rfl, rfl⟩)
  · exact .inr (.inr (.inl ⟨_, rfl, rfl, rfl, rfl⟩))
  · exact .inr (.inr (.inr ⟨_, rfl, rfl, rfl, rfl⟩))

theorem modeBefore_framerKept {c : Config} {i : Instr} {op : OpName} {sel x : Byte} (h : framed c i = some (op, sel, x)) (s : State) :
    s.FramerKept op (modeBefore i s) [] := by
  obtain ⟨b, rfl, rfl, -⟩ | ⟨o, rfl, rfl, -⟩ | ⟨o, rfl, rfl, -⟩ | ⟨b, rfl, rfl, -⟩ := framed_cases h
  · rw [modeBefore, modeAfterCommand]
    split
    · exact drawMode_framerKept (by decide) s
    · exact .refl _ s
  · exact drawMode_framerKept (by decide) s
  · exact drawMode_framerKept (by decide) s
  · exact .refl _ s

theorem modeThrough_framerKept {c : Config} {i : Instr} {op : OpName} {sel x : Byte} (h : framed c i = some (op, sel, x)) (s : State) :
    s.FramerKept op (modeThrough i s) [] := by
  obtain ⟨b, rfl, rfl, -⟩ | ⟨o, rfl, rfl, -⟩ | ⟨o, rfl, rfl, -⟩ | ⟨b, rfl, rfl, -⟩ := framed_cases h
  · exact .refl _ s
  · exact setMode_framerKept (by decide) _ s
  · exact setMode_framerKept (by decide) _ s
  · exact .refl _ s

/-- A framer operation is taken up, and runs its transaction with the selector and payload of `framed`. -/
theorem exec_eq_framerOp {c : Config} {i : Instr} {op : OpName} {sel x : Byte} (h : framed c i = some (op, sel, x)) :
    ∃ body, (∀ s, exec i s = enter i s body) ∧
      ∀ k u, u.cfg = c → body k u = .next (framerOp op i sel x (modeBefore i) (modeThrough i) k u) := by
  obtain ⟨b, rfl, rfl, rfl, rfl⟩ | ⟨o, rfl, rfl, rfl, rfl⟩ | ⟨o, rfl, rfl, rfl, rfl⟩ | ⟨b, rfl, rfl, rfl, rfl⟩ := framed_cases h
  · exact ⟨_, fun _ => rfl, fun _ _ _ => rfl⟩
  · exact ⟨_, fun _ => rfl, fun _ _ hu => by rw [← hu]⟩
  · exact ⟨_, fun _ => rfl, fun _ _ hu => by rw [← hu]⟩
  · exact ⟨_, fun _ => rfl, fun _ _ _ => rfl⟩

/-- The first wait after stage `k`. -/
def Stage.firstWait : Stage → Stage
  | .start => .wait1
  | k => k

/-- The state from which the first wait after stage `k` goes on, but for the engine: a start has issued the address. -/
def State.addressed : Stage → State → State
  | .start, s => openTransaction 0x7C s
  | _, s => s

theorem firstWait_ne_start (k : Stage) : k.firstWait ≠ .start := by cases k <;> decide

theorem addressed_framerPart (k : Stage) (s : State) : (s.addressed k).framerPart = s.framerPart := by cases k <;> rfl

theorem addressed_dispMode (k : Stage) (s : State) : (s.addressed k).dispMode = s.dispMode := by cases k <;> rfl

theorem firstWait_resumed {k : Stage} (hk : k ≠ .start) : k.firstWait = k := by
  cases k
  case start => exact absurd rfl hk
  all_goals rfl

theorem addressed_resumed {k : Stage} (hk : k ≠ .start) (s : State) : s.addressed k = s := by
  cases k
  case start => exact absurd rfl hk
  all_goals rfl

/-- The issue made before the first wait is the one that stage `k` has left more than that wait. -/
theorem addressed_issues (sel x : Byte) (k : Stage) (s : State) :
    ∃ evs, evs ++ framerLeft sel x k.firstWait = framerLeft sel x k ∧
      controlEvents (s.addressed k).trace = controlEvents s.trace ++ evs := by
  cases k
  case start => exact ⟨[.issueAddr 0x7C], rfl, by simp [State.addressed, controlEvents, Event.isWire]⟩
  all_goals exact ⟨[], rfl, by simp [State.addressed]⟩

theorem openTransaction_framerKept {op : OpName} {s u : State} (a : Byte) (h : s.FramerKept op u []) :
    (openTransaction a s).FramerKept op (clearPolls (openTransaction a u)) [] where
  part := h.part
  maddr := rfl
  rif := id
  mode := h.mode
  trace := by simp [h.trace]

/-- Once its address is issued, a framer operation that starts goes on like one resumed in its first wait. -/
theorem framerOp_start {op : OpName} {i : Instr} {sel x : Byte} {f g : State → State} {s : State} (hn : (f s).noReset) :
    framerOp op i sel x f g .start s =
      framerOp op i sel x f g .wait1 (clearPolls (openTransaction 0x7C (engineTurn (f s)))) := by
  simp only [framerOp, if_true, frame_start sel x hn, reduceCtorEq, if_false]

/-- How a framer operation that stands in wait `k` in `s` can come out: ended, timed out in a wait, or held in one. -/
inductive FramerOutcome (op : OpName) (i : Instr) (sel x : Byte) (k : Stage) (s t : State) : Prop
  | ended (hseq : t.seq = .idle) (hresult : t.result = .ok) (hmode : ∃ v, t.dispMode = (modeThrough i v).dispMode)
      (hkept : s.FramerKept op t (framerLeft sel x k ++ [.done op .ok]))
  | timedOut (j : Stage) (evs : List Event) (hj : j ≠ .start) (hevs : evs ++ framerLeft sel x j = framerLeft sel x k)
      (hseq : t.seq = .idle) (hresult : t.result = .timedOut) (hkept : s.FramerKept op t (evs ++ [.done op .timedOut]))
  | held (j : Stage) (evs : List Event) (hj : j ≠ .start) (hevs : evs ++ framerLeft sel x j = framerLeft sel x k)
      (hseq : t.seq = .waiting i j) (hkept : s.FramerKept op t evs)

theorem doneWith_framerKept (op : OpName) (s : State) : s.FramerKept op (doneWith op s) [.done op .ok] :=
  ⟨rfl, rfl, id, fun _ => rfl, by simp [controlEvents, Event.isWire]⟩

theorem failWith_framerKept (op : OpName) (c : ResultCode) (s : State) : s.FramerKept op (failWith op c (countPoll s)) [.done op c] :=
  ⟨rfl, rfl, id, fun _ => rfl, by simp [controlEvents, Event.isWire]⟩

theorem holdIn_framerKept (op : OpName) (i : Instr) (j : Stage) (s : State) : s.FramerKept op (holdIn i j (countPoll s)) [] :=
  ⟨rfl, rfl, id, fun _ => rfl, by simp⟩

/-- Resumed in a wait, a framer operation comes out in one of the three ways. -/
theorem framerOp_outcome {c : Config} {op : OpName} {i : Instr} {sel x : Byte} {k : Stage} {s : State}
    (hf : framed c i = some (op, sel, x)) (hk : k ≠ .start) (hn : s.noReset) :
    FramerOutcome op i sel x k s (framerOp op i sel x (modeBefore i) (modeThrough i) k s) := by
  have hissues := frame_issues op sel x hk hn
  cases hframe : frame sel x k s with
  | go u =>
    rw [hframe] at hissues
    have hturn := engineTurn_framerKept op u
    have hmode := modeThrough_framerKept hf (engineTurn u)
    have hun : u.noReset := hissues.noReset hn
    have hgn := hmode.noReset (hturn.noReset hun)
    rw [framerOp_through (by rwa [if_neg hk]) hun hgn]
    refine .ended rfl rfl ⟨engineTurn u, by simp⟩ ?_
    exact ((hissues.trans_nil hturn).trans_nil hmode).trans_nil (engineTurn_framerKept op _) |>.trans (doneWith_framerKept op _)
  | blocked j u =>
    rw [hframe] at hissues
    obtain ⟨hj, evs, hevs, hu⟩ := hissues
    rw [framerOp_blocked (by rwa [if_neg hk])]
    obtain e | e := pollFailed_cases op i j u <;> rw [e]
    · exact .timedOut j evs hj hevs rfl rfl (hu.trans (failWith_framerKept op _ u))
    · exact .held j evs hj hevs rfl (hu.trans_nil (holdIn_framerKept op i j u))

/-- What was done before the first poll, put before an outcome. -/
theorem FramerOutcome.after {op : OpName} {i : Instr} {sel x : Byte} {k : Stage} {s u t : State} (h : FramerOutcome op i sel x k u t)
    (hs : s.FramerKept op u []) : FramerOutcome op i sel x k s t := by
  cases h with
  | ended hseq hresult hmode hkept => exact .ended hseq hresult hmode (hs.trans hkept)
  | timedOut j evs hj hevs hseq hresult hkept => exact .timedOut j evs hj hevs hseq hresult (hs.trans hkept)
  | held j evs hj hevs hseq hkept => exact .held j evs hj hevs hseq (hs.trans hkept)

/-- What an operation runs on, taken up from its start or resumed, differs from the state by what no framer operation touches. -/
theorem enter_framerKept {op : OpName} {i : Instr} {k : Stage} {s t : State} {body : Stage → State → Out}
    (hk : s.seq = .idle ∧ k = .start ∨ s.seq = .waiting i k ∧ k ≠ .start) (h : enter i s body = .next t) :
    ∃ u, body k u = .next t ∧ s.FramerKept op u [] := by
  have hrecord : s.FramerKept op (recordContract i s) [] := ⟨rfl, rfl, id, fun _ => rfl, by simp⟩
  obtain ⟨k', u₀, u, hbody, hu, htaken⟩ := enter_next h
  have hstart : k' = k ∧ s.FramerKept op u₀ [] := by
    obtain ⟨hs, rfl⟩ | ⟨hs, -⟩ := hk <;> obtain ⟨hs', rfl, rfl⟩ | ⟨hs', rfl⟩ := htaken <;> rw [hs] at hs' <;> cases hs'
    · exact ⟨rfl, hrecord⟩
    · exact ⟨rfl, .refl op _⟩
  obtain ⟨rfl, hkept⟩ := hstart
  refine ⟨u, hbody, ?_⟩
  obtain rfl | rfl := hu
  · exact hkept
  · exact hkept.trans_nil (grantTaken_framerKept op u₀)

/-- A framer operation, started or resumed, comes out in one of the three ways from the first wait it meets. -/
theorem exec_framed {s t : State} {i : Instr} {op : OpName} {sel x : Byte} {k : Stage} (hn : s.noReset)
    (hk : s.seq = .idle ∧ k = .start ∨ s.seq = .waiting i k ∧ k ≠ .start) (hf : framed s.cfg i = some (op, sel, x))
    (he : exec i s = .next t) : FramerOutcome op i sel x k.firstWait (s.addressed k) t := by
  obtain ⟨body, hexec, hbody⟩ := exec_eq_framerOp hf
  rw [hexec] at he
  obtain ⟨u, hu, hkept⟩ := enter_framerKept (op := op) hk he
  rw [hbody k u hkept.cfg] at hu
  cases hu
  by_cases hstart : k = .start
  · subst hstart
    have hmode := hkept.trans_nil (modeBefore_framerKept hf u)
    have hturn := hmode.trans_nil (engineTurn_framerKept op _)
    rw [framerOp_start (hmode.noReset hn)]
    have hopen := openTransaction_framerKept 0x7C hturn
    exact (framerOp_outcome hf (by decide) (hopen.noReset hn)).after hopen
  · rw [addressed_resumed hstart, firstWait_resumed hstart]
    exact (framerOp_outcome hf hstart (hkept.noReset hn)).after hkept

/-- Settles O39: the issues of each outcome, behind the address of a start. -/
theorem framerTrafficIsExact : Obligations.FramerTrafficIsExact := by
  intro s t i op sel x k hn hk hf he
  obtain ⟨es, hes, htrace⟩ := addressed_issues sel x k s
  cases exec_framed hn hk hf he with
  | ended hseq hresult _ hkept =>
    refine ⟨fun _ _ => ?_, fun j h => ?_, fun _ h => absurd hresult h⟩
    · rw [hkept.trace, htrace, ← hes]
      simp
    · rw [hseq] at h
      cases h
  | timedOut j evs hj hevs hseq hresult hkept =>
    refine ⟨fun _ h => ?_, fun j h => ?_, fun _ _ => ⟨hresult, j, es ++ evs, hj, ?_, ?_⟩⟩
    · rw [hresult] at h
      cases h
    · rw [hseq] at h
      cases h
    · rw [List.append_assoc, hevs, hes]
    · rw [hkept.trace, htrace]
      simp
  | held j evs hj hevs hseq hkept =>
    refine ⟨fun h => ?_, fun l h => ?_, fun h => ?_⟩
    · rw [hseq] at h
      cases h
    · rw [hseq] at h
      cases h
      refine ⟨hj, ?_⟩
      rw [hkept.trace, htrace, List.append_assoc, List.append_assoc, hevs, hes]
    · rw [hseq] at h
      cases h

/-- However it comes out, a framer operation keeps what it does not touch. -/
theorem FramerOutcome.kept {op : OpName} {i : Instr} {sel x : Byte} {k : Stage} {s t : State} (h : FramerOutcome op i sel x k s t) :
    ∃ evs, s.FramerKept op t evs := by
  cases h with
  | ended _ _ _ hkept => exact ⟨_, hkept⟩
  | timedOut _ _ _ _ _ _ hkept => exact ⟨_, hkept⟩
  | held _ _ _ _ _ hkept => exact ⟨_, hkept⟩

/-- Ended `OK`, it has settled the display's mode (R218). -/
theorem FramerOutcome.mode {op : OpName} {i : Instr} {sel x : Byte} {k : Stage} {s t : State} (h : FramerOutcome op i sel x k s t)
    (hseq : t.seq = .idle) (hresult : t.result = .ok) : ∃ v, t.dispMode = (modeThrough i v).dispMode := by
  cases h with
  | ended _ _ hmode _ => exact hmode
  | timedOut _ _ _ _ _ hr _ => rw [hresult] at hr; cases hr
  | held _ _ _ _ hs _ => rw [hseq] at hs; cases hs

/-- Settles O40: what every outcome keeps, behind the address of a start; ended `OK`, the mode is the one that was set. -/
theorem framerFrame : Obligations.FramerFrame := by
  intro s t i op sel x k hn hk hf he
  have hout := exec_framed hn hk hf he
  obtain ⟨evs, hkept⟩ := hout.kept
  obtain ⟨hdiv, hen, hphase, hip, hro, hri, hsda, hscl, hbm, hbr, hdisp, hhost, hans, hlines, hresets, hreset, hcfg⟩ :=
    framerPart_eq_iff.mp (hkept.part.trans (addressed_framerPart k s))
  refine ⟨hdiv, hen, hphase, hip, hro, hri, hsda, hscl, hbm, hbr, hdisp, hhost, hans, hcfg, hlines,
    ⟨hreset.trans hn.1, hresets.trans hn.2⟩,
    ?started, ?resumed, fun e => (hkept.mode e).trans (addressed_dispMode k s), ?cursor, ?glyph⟩
  case started =>
    rintro rfl
    exact ⟨hkept.maddr, hkept.rif rfl⟩
  case resumed =>
    intro hk
    rw [addressed_resumed hk] at hkept
    exact ⟨hkept.maddr, hkept.rif⟩
  case cursor =>
    rintro rfl hseq hresult
    obtain ⟨v, hv⟩ := hout.mode hseq hresult
    obtain ⟨b, -, h, -⟩ | ⟨o, rfl, -⟩ | ⟨o, -, h, -⟩ | ⟨b, -, h, -⟩ := framed_cases hf
    · cases h
    · exact hv
    · cases h
    · cases h
  case glyph =>
    rintro rfl hseq hresult
    obtain ⟨v, hv⟩ := hout.mode hseq hresult
    obtain ⟨b, -, h, -⟩ | ⟨o, -, h, -⟩ | ⟨o, rfl, -⟩ | ⟨b, -, h, -⟩ := framed_cases hf
    · cases h
    · cases h
    · exact hv
    · cases h

/-! ### A wait that times out -/

/-- A withheld engine leaves a transaction in its wait (R79, R219). -/
theorem frame_withheld {sel x : Byte} {k : Stage} {s : State} {gs : List Nat} (hk : k ≠ .start) (hn : s.noReset)
    (hp : performable s = true) (he : s.envGrants = 0 :: gs) (hr : engineReady s = false) :
    frame sel x k s = .blocked k { s with envGrants := gs } := by
  have hw : ∀ j, waitIdle j false s = .blocked j { s with envGrants := gs } := fun j => waitIdle_withheld hn hp he hr
  cases k with
  | start => exact absurd rfl hk
  | wait1 => rw [frame, hw, Flow.andThen]
  | wait2 => rw [frame, hw, Flow.andThen]
  | wait3 => rw [frame, hw, Flow.andThen]

/-- On an engine at rest the address is the one action queued in the first wait. -/
theorem frame_at_wait1 (sel x : Byte) {s : State} (hn : s.noReset) (h : s.engineAtRest) :
    frame sel x .start s =
      frame sel x .wait1 { s with
        maddr := 0x7C, wif := false, rif := false, wc := 0, q := [.addr 0x7C], txnOpen := true
        trace := s.trace ++ [.issueAddr 0x7C] } := by
  obtain ⟨-, hq, -⟩ := h
  rw [frame_start sel x hn, engineTurn_empty hq]
  simp [clearPolls, openTransaction, busIssue, issueEvent, hq]

/-- Granted the address, the selector is the one action queued in the second wait. -/
theorem frame_at_wait2 (sel x : Byte) {s : State} {g : Nat} {gs : List Nat} (hn : s.noReset) (h : s.engineAtRest)
    (he : s.envGrants = (g + 1) :: gs) :
    frame sel x .start s =
      frame sel x .wait2 { s with
        maddr := 0x7C, mdata := sel, wif := false, rif := false, wc := 0, q := [.data sel], busState := .busy, txnOpen := true
        envGrants := gs, trace := s.trace ++ [.issueAddr 0x7C, .wStart 0x7C, .issueData sel] } := by
  have hc := h.1
  have hb := h.2.2
  rw [frame_at_wait1 sel x hn h, frame, waitIdle_andThen _ _ (by exact hn),
    engineTurn_addr (by exact hc) (by exact hn.1) rfl (by exact he), if_pos (by rfl), frameAfterWait1_eq sel x (by exact hn),
    engineTurn_empty (by rfl)]
  simp [clearPolls, busIssue, issueEvent, startEvent, hb]

/-- Granted the selector too, the payload is the one action queued in the third wait. -/
theorem frame_at_wait3 (sel x : Byte) {s : State} {g1 g2 : Nat} {gs : List Nat} (hn : s.noReset) (h : s.engineAtRest)
    (he : s.envGrants = (g1 + 1) :: (g2 + 1) :: gs) :
    frame sel x .start s =
      frame sel x .wait3 { s with
        maddr := 0x7C, mdata := x, wif := false, rif := false, wc := 0, q := [.data x], busState := .busy, txnOpen := true
        envGrants := gs
        trace := s.trace ++ [.issueAddr 0x7C, .wStart 0x7C, .issueData sel, .wByte sel, .issueData x] } := by
  have hc := h.1
  rw [frame_at_wait2 sel x hn h he, frame, waitIdle_andThen _ _ (by exact hn),
    engineTurn_data (by exact hc) (by exact hn.1) rfl rfl rfl, if_pos (by rfl), frameAfterWait2_eq sel x (by exact hn),
    engineTurn_empty (by rfl)]
  simp [clearPolls, busIssue, issueEvent]

/-- `WCHR` that comes to wait `k` with one action queued times out there if the engine is withheld and the limit is 1 (R262). -/
theorem exec_wchr_timedOut {b : Byte} {k : Stage} {x : WireAction} {s u : State} {gs : List Nat} (h : s.accepts) (hk : k ≠ .start)
    (hframe : frame 0x40 b .start (recordContract (.wchr b) s) = frame 0x40 b k u) (hn : u.noReset) (hc : u.ctrlEnable = true)
    (hq : u.q = [x]) (hb : ∀ d, x = .data d → u.busState = .busy) (hr : engineReady u = false) (hlim : waitPollLimit u.cfg = some 1)
    (he : u.envGrants = 0 :: gs) :
    exec (.wchr b) s =
      .next { u with
        wc := u.wc + 1, seq := .idle, result := .timedOut, faults := u.faults ||| 0b001, envGrants := gs
        trace := u.trace ++ [.done .wchr .timedOut] } := by
  rw [frame_withheld hk hn (performable_cons hc hn.1 hq hb) he hr] at hframe
  rw [exec_wchr h, framerOp_blocked (by exact hframe), pollFailed_timedOut (l := 1) (by exact hlim) (Nat.le_add_left 1 _)]
  rfl

/-- Settles O41: the actions before the wait that fails, and the one poll that the limit allows. -/
theorem wchrTimesOutAtEachWait : Obligations.WchrTimesOutAtEachWait := by
  intro b s g h gs hq hrest hlim
  have hacc := accepts_of_atRest hq hrest
  have hc : s.ctrlEnable = true := hrest.1
  refine ⟨fun he => ?wait1, fun he => ?wait2, fun he => ?wait3⟩
  case wait1 =>
    rw [exec_wchr_timedOut hacc (by decide) (frame_at_wait1 0x40 b (by exact hq.2) (by exact hrest)) (by exact hq.2) (by exact hc)
      rfl (by simp) rfl (by exact hlim) (by exact he)]
    simp [recordContract, hq.1]
  case wait2 =>
    rw [exec_wchr_timedOut hacc (by decide) (frame_at_wait2 0x40 b (by exact hq.2) (by exact hrest) (by exact he)) (by exact hq.2)
      (by exact hc) rfl (fun _ _ => rfl) rfl (by exact hlim) rfl]
    simp [recordContract, hq.1]
  case wait3 =>
    rw [exec_wchr_timedOut hacc (by decide) (frame_at_wait3 0x40 b (by exact hq.2) (by exact hrest) (by exact he)) (by exact hq.2)
      (by exact hc) rfl (fun _ _ => rfl) rfl (by exact hlim) rfl]
    simp [recordContract, hq.1]

end Sys2Proof.Machine
end

section
/-! PROOFS. The initialization state machine (43_display_init.md): what every step keeps of its phase and its index, and that no step
faults (R231, R234, R236). -/

namespace Sys2Proof.Machine

/-! ### The index and the phase -/

/-- The part of `State.InitProgress` about the phase and `DC.IP` (R231, R234). -/
def State.IndexFits (s : State) : Prop :=
  match s.phase with
  | .uninit => s.dcIp = 0
  | .initializing => s.dcIp.toNat < initLen s.cfg ∨ (s.resetIn = true ∧ s.dcIp.toNat = initLen s.cfg)
  | .ready => s.dcIp.toNat = initLen s.cfg

/-- The part of `State.InitProgress` about the operation in progress (R231, R236). -/
def State.HeldFits (s : State) : Prop :=
  s.resetIn = false → ∀ i k, s.seq = .waiting i k →
    heldAt i k = true ∧ (i = .dinit → s.phase = .initializing ∧ ∃ v, (initTable s.cfg)[s.dcIp.toNat]? = some (.command v))

theorem initProgress_iff {s : State} : s.InitProgress ↔ s.IndexFits ∧ s.HeldFits := by
  refine and_congr_right fun _ => forall_congr' fun _ => ?_
  cases hs : s.seq with
  | idle => simp
  | waiting i k => simp

theorem State.IndexFits.of_same {s t : State} (h : s.IndexFits) (hp : t.phase = s.phase := by simp) (hi : t.dcIp = s.dcIp := by simp)
    (hc : t.cfg = s.cfg := by simp) (hr : t.resetIn = false → s.resetIn = false := by simp) : t.IndexFits := by
  unfold State.IndexFits at h ⊢
  rw [hp, hi, hc]
  cases hph : s.phase <;> rw [hph] at h
  case initializing => exact h.imp_right fun h' => ⟨by_contra fun hn => by simp [hr (by simpa using hn)] at h', h'.2⟩
  all_goals exact h

/-- Under an asserted reset, or with no operation in progress, nothing is asked of the operation in progress. -/
theorem State.IndexFits.initProgress {s : State} (h : s.IndexFits) (hs : s.resetIn = false → s.seq = .idle) : s.InitProgress :=
  initProgress_iff.mpr ⟨h, fun hr i k hw => by rw [hs hr] at hw; cases hw⟩

theorem State.InitProgress.of_same {s t : State} (h : s.InitProgress) (hp : t.phase = s.phase := by simp)
    (hi : t.dcIp = s.dcIp := by simp) (hc : t.cfg = s.cfg := by simp) (hr : t.resetIn = false → s.resetIn = false := by simp)
    (hs : t.seq = s.seq := by simp) : t.InitProgress := by
  obtain ⟨hindex, hheld⟩ := initProgress_iff.mp h
  refine initProgress_iff.mpr ⟨hindex.of_same hp hi hc hr, fun hn i k hw => ?_⟩
  rw [hp, hi, hc]
  exact hheld (hr hn) i k (hs.symm.trans hw)

/-- An engine step leaves the sequencer's part of the state alone (R78). -/
theorem perform_sequencer {s : State} (h : performable s = true) :
    (perform s).phase = s.phase ∧ (perform s).dcIp = s.dcIp ∧ (perform s).cfg = s.cfg ∧ (perform s).resetIn = s.resetIn ∧
      (perform s).seq = s.seq := by
  have e := perform_sequencerPart h
  exact ⟨(congrArg State.phase e :), (congrArg State.dcIp e :), (congrArg State.cfg e :), (congrArg State.resetIn e :),
    (congrArg State.seq e :)⟩

theorem initProgress_pollKeeps : PollKeeps State.InitProgress where
  perform _ hp h := by
    obtain ⟨hphase, hip, hcfg, hreset, hseq⟩ := perform_sequencer hp
    exact h.of_same hphase hip hcfg (fun e => hreset.symm.trans e) hseq
  grant _ h := h.of_same
  point _ h := h.of_same (hr := resetIn_of_resetPoint)
  clear _ h := h.of_same
  count _ h := h.of_same

/-! ### How an operation ends, or is held -/

theorem doneWith_initProgress (op : OpName) {s : State} (h : s.IndexFits) : (doneWith op s).InitProgress :=
  h.of_same.initProgress fun _ => rfl

theorem failWith_initProgress (op : OpName) (c : ResultCode) {s : State} (h : s.IndexFits) : (failWith op c s).InitProgress :=
  h.of_same.initProgress fun _ => rfl

theorem State.InitProgress.indexFits {s : State} (h : s.InitProgress) : s.IndexFits := (initProgress_iff.mp h).1

/-- A last action that ends the operation, unless a reset has cut it short (R290). -/
theorem State.IndexFits.act_last {act : State → State} {s : State} (h : s.IndexFits)
    (ha : ∀ u : State, u.IndexFits → (act u).InitProgress) : (runAction act s).InitProgress := by
  have hu : (resetPoint (engineTurn s)).IndexFits := h.of_same (hr := fun e => by simpa using resetIn_of_resetPoint e)
  obtain ⟨hr, e⟩ | ⟨-, e⟩ := runAction_cases act s <;> rw [e]
  · exact hu.initProgress fun hn => by rw [hr] at hn; cases hn
  · exact ha _ hu

theorem State.IndexFits.done {s : State} (h : s.IndexFits) (op : OpName) : (runAction (doneWith op) s).InitProgress :=
  h.act_last fun _ => doneWith_initProgress op

theorem State.IndexFits.fail {s : State} (h : s.IndexFits) (op : OpName) (c : ResultCode) :
    (runAction (failWith op c) s).InitProgress :=
  h.act_last fun _ => failWith_initProgress op c

theorem State.InitProgress.done {s : State} (h : s.InitProgress) (op : OpName) : (runAction (doneWith op) s).InitProgress :=
  h.indexFits.done op

/-- A failed poll ends the operation, or holds it in a wait of its own; `DINIT` at a command entry (R158, R236). -/
theorem State.IndexFits.pollFailed {s : State} (h : s.IndexFits) (op : OpName) {i : Instr} {k : Stage} (hk : heldAt i k = true)
    (hd : s.resetIn = false → i = .dinit →
      s.phase = .initializing ∧ ∃ v, (initTable s.cfg)[s.dcIp.toNat]? = some (.command v)) :
    (pollFailed op i k s).InitProgress := by
  obtain e | e := pollFailed_cases op i k s <;> rw [e]
  · exact failWith_initProgress op _ h.of_same
  · refine initProgress_iff.mpr ⟨h.of_same, fun hr j l hw => ?_⟩
    cases hw
    exact ⟨hk, hd hr⟩

theorem State.InitProgress.pollFailed {s : State} (h : s.InitProgress) (op : OpName) {i : Instr} {k : Stage} (hk : heldAt i k = true)
    (hi : i ≠ .dinit) : (pollFailed op i k s).InitProgress :=
  h.indexFits.pollFailed op hk fun _ e => absurd e hi

/-- A transaction is held in a wait only. -/
def Flow.HeldInWait : Flow → Prop
  | .go _ => True
  | .blocked k _ => k ≠ .start

theorem Flow.heldInWait_wait {k : Stage} {fresh : Bool} {s : State} {next : State → Flow} (hk : k ≠ .start)
    (hn : ∀ u, (next u).HeldInWait) : ((waitIdle k fresh s).andThen next).HeldInWait := by
  unfold waitIdle
  dsimp only
  generalize resetPoint (engineTurn (if fresh && !s.resetIn then clearPolls s else s)) = u
  split
  · exact hn u
  · exact hk

theorem frame_heldInWait (sel x : Byte) (k : Stage) (s : State) : (frame sel x k s).HeldInWait := by
  have after2 : ∀ u, (frameAfterWait2 x u).HeldInWait := fun u => Flow.heldInWait_wait (by decide) fun _ => trivial
  have after1 : ∀ u, (frameAfterWait1 sel x u).HeldInWait := fun u => Flow.heldInWait_wait (by decide) after2
  cases k with
  | start => exact Flow.heldInWait_wait (by decide) after1
  | wait1 => exact Flow.heldInWait_wait (by decide) after1
  | wait2 => exact Flow.heldInWait_wait (by decide) after2
  | wait3 => exact Flow.heldInWait_wait (by decide) fun _ => trivial

/-- A transaction keeps whatever the engine, the polls and its issues keep, and is held in a wait only. -/
theorem frame_keeps {P : State → Prop} (hp : PollKeeps P)
    (hs : ∀ s t : State, P s → t.phase = s.phase → t.dcIp = s.dcIp → t.cfg = s.cfg → t.resetIn = s.resetIn → t.seq = s.seq → P t)
    (sel x : Byte) (k : Stage) {s : State} (h : P s) :
    (∃ u, frame sel x k s = .go u ∧ P u) ∨ (∃ j u, frame sel x k s = .blocked j u ∧ j ≠ .start ∧ P u) := by
  have hall := hp.frame (fun s h => hs s (openTransaction addrByte s) h rfl rfl rfl rfl rfl)
    (fun b s h => hs s (busIssue (.data b) s) h rfl rfl rfl rfl rfl) (fun s h => hs s (closeTransaction s) h rfl rfl rfl rfl rfl)
    sel x k s h
  have hheld := frame_heldInWait sel x k s
  cases e : frame sel x k s with
  | go u => rw [e] at hall; exact .inl ⟨u, rfl, hall⟩
  | blocked j u => rw [e] at hall hheld; exact .inr ⟨j, u, rfl, hheld, hall⟩

theorem frame_initProgress (sel x : Byte) (k : Stage) {s : State} (h : s.InitProgress) :
    (∃ u, frame sel x k s = .go u ∧ u.InitProgress) ∨ (∃ j u, frame sel x k s = .blocked j u ∧ j ≠ .start ∧ u.InitProgress) :=
  frame_keeps initProgress_pollKeeps (fun _ _ h hp hi hc hr hs => h.of_same hp hi hc (fun e => hr.symm.trans e) hs) sel x k h

/-! ### What an operation answers -/

/-- An answer that is no fault, and whose next state, if there is one, fits. -/
def Progresses : Out → Prop
  | .next t => t.InitProgress
  | .fault _ => False
  | .refused _ => True

theorem progresses_next {t : State} : Progresses (.next t) ↔ t.InitProgress := Iff.rfl

theorem engineGate_progresses {s : State} {body : State → Out} (hb : Progresses (body s)) (hg : Progresses (body (grantTaken s))) :
    Progresses (engineGate s body) := by
  unfold engineGate
  split
  · split
    · exact hg
    · trivial
  · exact hb

/-- Taking up an operation hands its body a state that fits, held in the wait the operation goes on in. -/
theorem enter_progresses {i : Instr} {s : State} {body : Stage → State → Out} (h : s.InitProgress) (hr : s.resetIn = false)
    (hb : ∀ k u, u.InitProgress → u.resetIn = false → (k = .start ∨ u.seq = .waiting i k) → Progresses (body k u)) :
    Progresses (enter i s body) := by
  have gate : ∀ k u, u.InitProgress → u.resetIn = false → (k = .start ∨ u.seq = .waiting i k) →
      Progresses (engineGate u fun u => body k u) := fun k u hu hn hk =>
    engineGate_progresses (hb k u hu hn hk)
      (hb k _ (initProgress_pollKeeps.grant u hu) (by simpa using hn) (by simpa using hk))
  unfold enter accept
  split
  · exact gate .start _ h.of_same hr (.inl rfl)
  · rename_i j k hs
    split
    · rename_i e
      subst e
      exact gate k s h hr (.inr hs)
    · trivial

/-! ### Parts of operations -/

theorem writeByte_progresses {b : Byte} {i : Instr} {k : Stage} {s : State} {next : State → Out} (h : s.InitProgress)
    (hk : heldAt i .wait1 = true) (hi : i ≠ .dinit) (hn : ∀ u, u.InitProgress → Progresses (next u)) :
    Progresses (writeByte b i k s next) := by
  unfold writeByte
  obtain ⟨u, e, -, hu⟩ | ⟨u, e, -, -, hu⟩ := initProgress_pollKeeps.poll .wait1 (decide (k = .start)) s h <;> simp only [e]
  · split
    · exact hn _ ((initProgress_pollKeeps.action (act := busIssue (.data b)) (fun _ h => h.of_same) _ hu).done .wrb)
    · trivial
  · exact hu.pollFailed .wrb hk hi

theorem warrSteps_progresses : ∀ bs k s, s.InitProgress → Progresses (warrSteps bs k s) := by
  intro bs
  induction bs with
  | nil => intro k s h; exact h
  | cons b bs ih => intro k s h; exact writeByte_progresses h rfl (by simp) fun u hu => ih _ u hu

theorem framerOp_initProgress {op : OpName} {i : Instr} {sel x : Byte} {f g : State → State} {k : Stage} {s : State}
    (h : s.InitProgress) (hi : i ≠ .dinit) (hheld : ∀ j, j ≠ .start → heldAt i j = true)
    (hf : ∀ u, u.InitProgress → (f u).InitProgress) (hg : ∀ u, u.InitProgress → (g u).InitProgress) :
    (framerOp op i sel x f g k s).InitProgress := by
  have hs : (if k = .start then f s else s).InitProgress := by
    split
    · exact hf _ h
    · exact h
  unfold framerOp
  obtain ⟨u, e, hu⟩ | ⟨j, u, e, hj, hu⟩ := frame_initProgress sel x k hs <;> simp only [e]
  · exact (initProgress_pollKeeps.action hg _ hu).done op
  · exact hu.pollFailed op (hheld j hj) hi

/-- `rest` names an operation that can be held, over every list of bytes with `Q`. -/
theorem wchrSteps_initProgress {rest : List Byte → Instr} {Q : Byte → Prop} (hi : ∀ bs, rest bs ≠ .dinit)
    (hrest : ∀ b bs j, Q b → j ≠ .start → heldAt (rest (b :: bs)) j = true) :
    ∀ bs k s, (∀ b ∈ bs, Q b) → s.InitProgress → (wchrSteps rest bs k s).InitProgress := by
  intro bs
  induction bs with
  | nil => intro k s _ h; exact h
  | cons b bs ih =>
    intro k s hQ h
    obtain ⟨hb, hbs⟩ := List.forall_mem_cons.mp hQ
    rw [wchrSteps]
    obtain ⟨u, e, hu⟩ | ⟨j, u, e, hj, hu⟩ := frame_initProgress selData b k h <;> simp only [e]
    · exact ih _ _ hbs (hu.done .wchr)
    · exact hu.pollFailed .wchr (hrest b bs j hb hj) (hi _)

theorem RecoveryAction.initProgress {act : State → State} (ha : RecoveryAction act) {s : State} (h : s.InitProgress) :
    (act s).InitProgress := by
  cases ha
  case read =>
    show (pinRead .sda s).2.InitProgress
    rw [pinRead_snd]
    exact h.of_same
  all_goals exact h.of_same

theorem recover_initProgress {s : State} (h : s.InitProgress) : (recover s).InitProgress := by
  obtain ⟨u, ⟨acts, ha, rfl⟩, e⟩ := recover_cases s
  have hu := initProgress_pollKeeps.actions acts (fun act hm _ h => (ha act hm).initProgress h) s h
  obtain e | e := e <;> rw [e]
  · exact hu.done _
  · exact hu.indexFits.fail _ _

/-! ### The Init Sequence -/

/-- `DINIT` stands before the entries `es` of the table, unless a reset has cut it short (R231, R290). -/
structure State.AtEntries (es : List InitEntry) (s : State) : Prop where
  cut : s.resetIn = true → s.IndexFits
  stands : s.resetIn = false →
    s.phase = .initializing ∧ s.dcIp.toNat ≤ initLen s.cfg ∧ (initTable s.cfg).drop s.dcIp.toNat = es

theorem State.AtEntries.of_asserted {es : List InitEntry} {s : State} (h : s.IndexFits) (hr : s.resetIn = true) : s.AtEntries es :=
  ⟨fun _ => h, fun e => by rw [hr] at e; cases e⟩

/-- A change that leaves the phase, the index and the configuration alone, and at most asserts a reset (R290). -/
theorem State.AtEntries.of_same {es : List InitEntry} {s t : State} (h : s.AtEntries es) (hp : t.phase = s.phase := by simp)
    (hi : t.dcIp = s.dcIp := by simp) (hc : t.cfg = s.cfg := by simp) (hr : t.resetIn = false → s.resetIn = false := by simp) :
    t.AtEntries es := by
  refine ⟨fun ht => ?_, fun ht => by rw [hp, hi, hc]; exact h.stands (hr ht)⟩
  cases hs : s.resetIn with
  | true => exact (h.cut hs).of_same hp hi hc hr
  | false =>
    obtain ⟨hphase, hle, -⟩ := h.stands hs
    rw [State.IndexFits, hp, hi, hc, hphase]
    exact (Nat.lt_or_eq_of_le hle).imp_right fun e => ⟨ht, e⟩

theorem atEntries_pollKeeps (es : List InitEntry) : PollKeeps (State.AtEntries es) where
  perform _ hp h := by
    obtain ⟨hphase, hip, hcfg, hreset, -⟩ := perform_sequencer hp
    exact h.of_same hphase hip hcfg fun e => hreset.symm.trans e
  grant _ h := h.of_same
  point _ h := h.of_same (hr := resetIn_of_resetPoint)
  clear _ h := h.of_same
  count _ h := h.of_same

/-- The entry that `DINIT` stands before is in the table (R72). -/
theorem State.AtEntries.entry {e : InitEntry} {es : List InitEntry} {s : State} (h : s.AtEntries (e :: es)) (hr : s.resetIn = false) :
    s.phase = .initializing ∧ s.dcIp.toNat < initLen s.cfg ∧ (initTable s.cfg)[s.dcIp.toNat]? = some e ∧
      (initTable s.cfg).drop (s.dcIp.toNat + 1) = es := by
  obtain ⟨hphase, -, hdrop⟩ := h.stands hr
  have hget : (initTable s.cfg)[s.dcIp.toNat]? = some e := by rw [← List.head?_drop, hdrop]; rfl
  obtain ⟨hlt, -⟩ := List.getElem?_eq_some_iff.mp hget
  exact ⟨hphase, hlt, hget, by rw [← List.drop_drop, hdrop]; rfl⟩

theorem State.AtEntries.indexFits {e : InitEntry} {es : List InitEntry} {s : State} (h : s.AtEntries (e :: es)) : s.IndexFits := by
  cases hr : s.resetIn with
  | true => exact h.cut hr
  | false =>
    obtain ⟨hphase, hlt, -⟩ := h.entry hr
    rw [State.IndexFits, hphase]
    exact .inl hlt

theorem initLen_le (c : Config) : initLen c ≤ 255 := by
  have := List.length_take_le 253 c.initMiddle
  rw [initLen_eq]
  omega

/-- Behind an entry `DC.IP` goes on to the next (R231). -/
theorem nextEntry_atEntries {e : InitEntry} {es : List InitEntry} {s : State} (h : s.AtEntries (e :: es)) :
    (runAction nextEntry s).AtEntries es := by
  have hu := (atEntries_pollKeeps (e :: es)).point _ ((atEntries_pollKeeps _).turn _ h)
  obtain ⟨hr, eq⟩ | ⟨hr, eq⟩ := runAction_cases nextEntry s <;> rw [eq]
  · exact .of_asserted (hu.cut hr) hr
  · generalize resetPoint (engineTurn s) = u at hu hr
    obtain ⟨hphase, hlt, -, hdrop⟩ := hu.entry hr
    have hle := initLen_le u.cfg
    have hip : (nextEntry u).dcIp.toNat = u.dcIp.toNat + 1 := by
      rw [nextEntry_dcIp, BitVec.toNat_add_of_lt (by simp; omega)]
      rfl
    refine ⟨fun e => (by rw [nextEntry_resetIn, hr] at e; cases e), fun _ => ⟨hphase, ?_, ?_⟩⟩
    · rw [hip]; exact hlt
    · rw [hip]; exact hdrop

/-- An entry's delay, and `DC.IP` goes on (R231). -/
theorem delay_atEntries {e : InitEntry} {es : List InitEntry} {act : State → State} {s : State} (h : s.AtEntries (e :: es))
    (ha : ∀ u, State.AtEntries (e :: es) u → (act u).AtEntries (e :: es)) : (runActions [act, nextEntry] s).AtEntries es :=
  nextEntry_atEntries ((atEntries_pollKeeps _).action ha s h)

/-- Behind the last entry `DINIT` ends `READY` (R231). -/
theorem endInit_initProgress {s : State} (h : s.AtEntries []) : (runActions [endInit, doneWith .dinit] s).InitProgress := by
  have hu := (atEntries_pollKeeps []).point _ ((atEntries_pollKeeps _).turn _ h)
  rw [runActions_cons, runActions_cons, runActions_nil]
  refine State.IndexFits.done ?_ .dinit
  obtain ⟨hr, eq⟩ | ⟨hr, eq⟩ := runAction_cases endInit s <;> rw [eq]
  · exact hu.cut hr
  · obtain ⟨-, hle, hdrop⟩ := hu.stands hr
    exact Nat.le_antisymm hle (List.drop_eq_nil_iff.mp hdrop)

/-- Whatever the engine and the environment do, the entries left are run in order, or `DINIT` stops at one of them (R231, R236). -/
theorem initSteps_initProgress : ∀ es k s, State.AtEntries es s → (initSteps es k s).InitProgress := by
  intro es
  induction es with
  | nil => intro k s h; exact endInit_initProgress h
  | cons e es ih =>
    intro k s h
    cases e with
    | wait v => exact ih _ _ (delay_atEntries h fun _ h => h.of_same)
    | command v =>
      rw [initSteps]
      obtain ⟨u, e, hu⟩ | ⟨j, u, e, hj, hu⟩ :=
        frame_keeps (atEntries_pollKeeps _) (fun _ _ h hp hi hc hr _ => h.of_same hp hi hc fun e => hr.symm.trans e) selCommand v k h <;>
        simp only [e]
      · exact ih _ _ (delay_atEntries hu fun _ h => h.of_same)
      · refine hu.indexFits.pollFailed .dinit (decide_eq_true hj) fun hr _ => ?_
        obtain ⟨hphase, -, hget, -⟩ := hu.entry hr
        exact ⟨hphase, v, hget⟩

/-- `DINIT` starts before the whole table (R231). -/
theorem beginInit_atEntries {s : State} (h : s.InitProgress) : (runActions [beginInit] s).AtEntries (initTable s.cfg) := by
  have hu := initProgress_pollKeeps.point _ (initProgress_pollKeeps.turn _ h)
  rw [runActions_cons, runActions_nil]
  obtain ⟨hr, eq⟩ | ⟨hr, eq⟩ := runAction_cases beginInit s <;> rw [eq]
  · exact .of_asserted hu.indexFits hr
  · exact ⟨fun e => (by rw [beginInit_resetIn, hr] at e; cases e), fun _ => ⟨rfl, Nat.zero_le _, by simp⟩⟩

/-- A held `DINIT` goes on before the entry it is held at (R236). -/
theorem State.InitProgress.atEntries {s : State} {k : Stage} (h : s.InitProgress) (hr : s.resetIn = false)
    (hs : s.seq = .waiting .dinit k) :
    s.dcIp.toNat < initLen s.cfg ∧ s.AtEntries ((initTable s.cfg).drop s.dcIp.toNat) := by
  obtain ⟨-, hheld⟩ := (initProgress_iff.mp h).2 hr _ _ hs
  obtain ⟨hphase, v, hget⟩ := hheld rfl
  obtain ⟨hlt, -⟩ := List.getElem?_eq_some_iff.mp hget
  exact ⟨hlt, fun e => (by rw [hr] at e; cases e), fun _ => ⟨hphase, hlt.le, rfl⟩⟩

theorem execDinit_progresses {s : State} (h : s.InitProgress) (hr : s.resetIn = false) : Progresses (execDinit s) := by
  refine enter_progresses h hr fun k u hu hn hk => ?_
  have resumed : k ≠ .start → Progresses (if u.dcIp.toNat < initLen u.cfg then
      .next (initSteps ((initTable u.cfg).drop u.dcIp.toNat) k u) else .fault .initRomIndexOutside) := by
    intro hstart
    obtain ⟨hlt, hat⟩ := hu.atEntries hn (hk.resolve_left hstart)
    rw [if_pos hlt]
    exact initSteps_initProgress _ _ _ hat
  cases k with
  | start => exact initSteps_initProgress _ _ _ (beginInit_atEntries hu)
  | wait1 => exact resumed (by decide)
  | wait2 => exact resumed (by decide)
  | wait3 => exact resumed (by decide)

/-! ### Each operation -/

theorem modeAfterCommand_initProgress {c : Byte} {s : State} (h : s.InitProgress) : (modeAfterCommand c s).InitProgress := by
  rw [modeAfterCommand_eq]
  exact h.of_same

theorem exec_progresses (i : Instr) {s : State} (h : s.InitProgress) (hr : s.resetIn = false) : Progresses (exec i s) := by
  have hp := initProgress_pollKeeps
  cases i with
  | binit d =>
    rw [exec, execBinit]
    refine enter_progresses h hr fun _ u hu _ _ => ?_
    refine (hp.actions [setDivisor d, enableEngine, clearFlags, forceIdle, binitGhost] ?_ u hu).done .binit
    simp only [List.forall_mem_cons]
    exact ⟨fun _ h => h.of_same, fun _ h => h.of_same, fun _ h => h.of_same, fun _ h => h.of_same, fun _ h => h.of_same, by simp⟩
  | start a =>
    rw [exec, execStart]
    exact enter_progresses h hr fun _ u hu _ _ => (hp.action (act := openTransaction a) (fun _ h => h.of_same) u hu).done .start
  | wrb b =>
    rw [exec, execWrb]
    exact enter_progresses h hr fun _ u hu _ _ => writeByte_progresses hu rfl (by simp) fun _ h => h
  | stop =>
    rw [exec, execStop]
    refine enter_progresses h hr fun k u hu _ _ => ?_
    obtain ⟨v, e, -, hv⟩ | ⟨v, e, -, -, hv⟩ := hp.poll .wait1 (decide (k = .start)) u hu <;> simp only [e]
    · split
      · exact (hp.action (act := closeTransaction) (fun _ h => h.of_same) v hv).done .stop
      · trivial
    · exact hv.pollFailed .stop rfl (by simp)
  | dis =>
    rw [exec, execDis]
    exact enter_progresses h hr fun _ u hu _ _ => (hp.action (act := disableEngine) (fun _ h => h.of_same) u hu).done .dis
  | en =>
    rw [exec, execEn]
    refine enter_progresses h hr fun _ u hu _ _ => (hp.actions enableActions ?_ u hu).done .en
    simp only [enableActions, List.forall_mem_cons]
    exact ⟨fun _ h => h.of_same, fun _ h => h.of_same, fun _ h => h.of_same, fun _ h => h.of_same, by simp⟩
  | wait =>
    rw [exec, execWait]
    refine enter_progresses h hr fun k u hu _ _ => ?_
    obtain ⟨v, e, -, hv⟩ | ⟨v, e, -, -, hv⟩ := hp.poll .wait1 (decide (k = .start)) u hu <;> simp only [e]
    · exact hv.done .wait
    · exact hv.pollFailed .wait rfl (by simp)
  | brst =>
    rw [exec, execBrst]
    exact enter_progresses h hr fun _ u hu _ _ => progresses_next.mpr (recover_initProgress hu)
  | dinit => exact execDinit_progresses h hr
  | wcmd c =>
    rw [exec, execWcmd]
    exact enter_progresses h hr fun _ u hu _ _ =>
      framerOp_initProgress hu (by simp) (fun _ hj => decide_eq_true hj) (fun _ => modeAfterCommand_initProgress) fun _ h => h
  | scur o =>
    rw [exec, execScur]
    exact enter_progresses h hr fun _ u hu _ _ =>
      framerOp_initProgress hu (by simp) (fun _ hj => decide_eq_true hj) (fun _ h => h.of_same) fun _ h => h.of_same
  | sgly o =>
    rw [exec, execSgly]
    exact enter_progresses h hr fun _ u hu _ _ =>
      framerOp_initProgress hu (by simp) (fun _ hj => decide_eq_true hj) (fun _ h => h.of_same) fun _ h => h.of_same
  | wchr b =>
    rw [exec, execWchr]
    exact enter_progresses h hr fun _ u hu _ _ =>
      framerOp_initProgress hu (by simp) (fun _ hj => decide_eq_true hj) (fun _ h => h) fun _ h => h
  | computeDivisor c t r =>
    rw [exec, execComputeDivisor]
    exact enter_progresses h hr fun _ u hu _ _ => hp.action (act := giveAnswer _) (fun _ h => h.of_same) u hu
  | warr bs =>
    rw [exec, execWarr]
    exact enter_progresses h hr fun k u hu _ _ => warrSteps_progresses bs k u hu
  | dwarr bs =>
    rw [exec, execDwarr]
    exact enter_progresses h hr fun k u hu _ _ =>
      wchrSteps_initProgress (Q := fun _ => True) (by simp) (fun _ _ _ _ hj => by simpa [heldAt] using hj) bs k u (by simp) hu
  | dwstr bs =>
    rw [exec, execDwstr]
    split
    · refine enter_progresses h hr fun k u hu _ _ => ?_
      refine wchrSteps_initProgress (Q := fun b => b ≠ 0x00) (by simp) (fun b bs j hb hj => ?_) _ k u (fun b hb => ?_) hu
      · simpa [heldAt, stringBody, hj] using hb
      · simpa using List.mem_takeWhile_imp hb
    · trivial
  | illegal w =>
    rw [exec, execIllegal]
    exact enter_progresses h hr fun _ u hu _ _ => hu.indexFits.fail _ _

/-! ### Every step -/

theorem resetEvent_initProgress (s : State) : (resetEvent s).InitProgress := ⟨rfl, fun _ => trivial⟩

theorem hostRead_initProgress {n : Nat} {s : State} (h : s.InitProgress) : (runActions [hostRead n] s).InitProgress :=
  initProgress_pollKeeps.action (act := hostRead n) (fun _ h => h.of_same rfl rfl rfl id rfl) s h

theorem serve_progresses (r : Request) {s : State} (h : s.InitProgress) (hr : s.resetIn = false) : Progresses (serve r s) := by
  cases r with
  | word w => exact exec_progresses _ h hr
  | call i =>
    rw [serve]
    split
    · exact exec_progresses _ h hr
    · trivial
  | read n =>
    rw [serve]
    exact engineGate_progresses (hostRead_initProgress h) (hostRead_initProgress (initProgress_pollKeeps.grant s h))

theorem waitForCommand_progresses {s : State} (h : s.InitProgress) : Progresses (waitForCommand s) := by
  have hp := initProgress_pollKeeps
  exact engineGate_progresses (hp.point _ (hp.turn _ h)) (hp.point _ (hp.turn _ (hp.grant _ h)))

theorem step_progresses {s : State} (h : s.InitProgress) : Progresses (step s) := by
  unfold step
  split
  · exact resetEvent_initProgress s
  · have hr := Bool.eq_false_iff.mpr ‹_›
    split
    · exact exec_progresses _ h hr
    · unfold fetch
      split
      · exact waitForCommand_progresses h
      · exact serve_progresses _ (h.of_same rfl rfl rfl id rfl) hr

/-- Settles O57: no step answers a fault, and what it answers fits. -/
theorem initProgressKept : Obligations.InitProgressKept := by
  intro s h
  have hstep := step_progresses h
  refine ⟨fun t e => ?_, fun r e => ?_⟩
  · rw [e] at hstep
    exact hstep
  · rw [e] at hstep
    exact hstep

end Sys2Proof.Machine
end

section
/-! PROOFS. `DINIT` on an engine at rest (43_display_init.md): the whole table when the engine is granted its steps, and a command step
whose wait times out (R231 to R236). -/

namespace Sys2Proof.Machine

/-! ### Entries that go through -/

/-- The command byte of an entry (R120). -/
def commandByte : InitEntry → Option Byte
  | .command v => some v
  | .wait _ => none

/-- The command bytes of a list of entries. -/
def commandBytes (es : List InitEntry) : List Byte := es.filterMap commandByte

@[simp] theorem commandBytes_nil : commandBytes [] = [] := rfl

@[simp] theorem commandBytes_command (v : Byte) (es : List InitEntry) : commandBytes (.command v :: es) = v :: commandBytes es := rfl

@[simp] theorem commandBytes_wait (v : Byte) (es : List InitEntry) : commandBytes (.wait v :: es) = commandBytes es := rfl

@[simp] theorem commandBytes_append (es fs : List InitEntry) : commandBytes (es ++ fs) = commandBytes es ++ commandBytes fs :=
  List.filterMap_append

/-- The command entries are those of kind 0 (R120). -/
theorem countP_kind (es : List InitEntry) : es.countP (fun e => (entryBytes e).1 == 0) = (commandBytes es).length := by
  induction es with
  | nil => rfl
  | cons e es ih => cases e <;> simpa [List.countP_cons, entryBytes] using ih

/-- What the entries `es` leave on an engine at rest that is granted four steps for each command entry (R232, R233). -/
def entriesDone (es : List InitEntry) (s : State) : State :=
  { s with
    maddr := if commandBytes es = [] then s.maddr else 0x7C
    mdata := (commandBytes es).getLast?.getD s.mdata
    wif := if commandBytes es = [] then s.wif else false
    rif := if commandBytes es = [] then s.rif else false
    wc := if commandBytes es = [] then s.wc else 0
    txnOpen := if commandBytes es = [] then s.txnOpen else false
    dcIp := s.dcIp + BitVec.ofNat 8 es.length
    envGrants := s.envGrants.drop (4 * (commandBytes es).length)
    trace := s.trace ++ es.flatMap entryEvents }

theorem entriesDone_nil (s : State) : entriesDone [] s = s := by simp [entriesDone]

/-- A wait entry is its delay, and `DC.IP` goes on (R233). -/
theorem entriesDone_wait (v : Byte) (es : List InitEntry) (s : State) :
    entriesDone (.wait v :: es) s = entriesDone es (nextEntry (delayMs (delayArg v) s)) := by
  by_cases h : commandBytes es = [] <;> simp [entriesDone, nextEntry, delayMs, emit, entryEvents, delayArg, BitVec.ofNat_add,
    BitVec.add_comm, add_left_comm, h]

/-- A command entry is its transaction and the settle delay, and `DC.IP` goes on (R232). -/
theorem entriesDone_command (v : Byte) (es : List InitEntry) (s : State) :
    entriesDone (.command v :: es) s =
      entriesDone es (nextEntry (delayUs cmdSettleUs (frameSent selCommand v (s.envGrants.drop 4) s))) := by
  simp [entriesDone, nextEntry, delayUs, emit, frameSent, entryEvents, selCommand, cmdSettleUs, List.getLast?_cons,
    Nat.mul_add, Nat.add_comm, BitVec.ofNat_add, BitVec.add_comm, add_left_comm]

/-- Granted at more turns, granted at fewer (R79). -/
theorem State.granted.mono {m n : Nat} {s : State} (h : s.granted n) (hmn : m ≤ n) : s.granted m := by
  obtain ⟨hlen, hall⟩ := h
  exact ⟨hmn.trans hlen, fun g hg => hall g ((List.take_subset_take_left _ hmn) hg)⟩

/-- Entries that go through leave the ones behind them to run (R231). -/
theorem initSteps_append : ∀ (es rest : List InitEntry) (s : State), s.noReset → s.engineAtRest →
    s.granted (4 * (commandBytes es).length) →
    initSteps (es ++ rest) .start s = initSteps rest .start (entriesDone es s) := by
  intro es
  induction es with
  | nil => intro rest s _ _ _; rw [List.nil_append, entriesDone_nil]
  | cons e es ih =>
    intro rest s hn hrest hg
    have hq : s.q = [] := hrest.2.1
    cases e with
    | wait v =>
      have hacts : runActions [delayMs (delayArg v), nextEntry] s = nextEntry (delayMs (delayArg v) s) :=
        runActions_rest _ s hq hn (by simp [State.Rests])
      rw [entriesDone_wait, List.cons_append, initSteps, hacts]
      exact ih rest _ hn hrest hg
    | command v =>
      obtain ⟨g1, g2, g3, g4, gs, he, hgs⟩ := State.granted.transaction hg
      obtain ⟨u, hu, hun, hturn⟩ := frame_sent selCommand v hn hrest he
      have hgs' : s.envGrants.drop 4 = gs := by rw [he]; rfl
      have hacts : runActions [delayUs cmdSettleUs, nextEntry] u = nextEntry (delayUs cmdSettleUs (frameSent selCommand v gs s)) := by
        rw [runActions_cons, runAction_none hun, hturn, runActions_cons, runActions_nil, runAction_rest (by exact hn) (by exact hq)]
      rw [entriesDone_command, hgs', List.cons_append, initSteps, hu]
      simp only [hacts]
      exact ih rest _ hn hrest (hgs _ rfl)

/-! ### The whole table -/

/-- The last entry of the table is a command (R235). -/
theorem commandBytes_initTable (c : Config) : commandBytes (initTable c) = commandBytes (c.initMiddle.take 253) ++ [0x01] := by
  simp [initTable]

theorem commandBytes_length_le (es : List InitEntry) : (commandBytes es).length ≤ es.length := List.length_filterMap_le ..

/-- `DINIT` runs the table from its first entry, with the contract recorded (R231). -/
theorem exec_dinit {s : State} (h : s.quiet) (hrest : s.engineAtRest) :
    exec .dinit s = .next (initSteps (initTable s.cfg) .start (beginInit (recordContract .dinit s))) := by
  have hq : s.q = [] := hrest.2.1
  rw [exec, execDinit, enter_accepts (accepts_of_atRest h hrest)]
  simp only [runActions_cons, runActions_nil, runAction_rest (s := recordContract .dinit s) h.2 hq]
  rfl

/-- Settles O42: every entry goes through, and behind the last one `DINIT` ends. -/
theorem dinitRunsTheTable : Obligations.DinitRunsTheTable := by
  intro s h hrest hg
  have hq : s.q = [] := hrest.2.1
  have hgranted : (beginInit (recordContract .dinit s)).granted (4 * (commandBytes (initTable s.cfg)).length) :=
    State.granted.mono (s := s) hg (Nat.mul_le_mul_left 4 (commandBytes_length_le _))
  have hrun := initSteps_append (initTable s.cfg) [] (beginInit (recordContract .dinit s)) h.2 hrest hgranted
  rw [List.append_nil] at hrun
  rw [exec_dinit h hrest, hrun, initSteps, runActions_rest _ _ (by exact hq) (by exact h.2) (by simp [State.Rests]), countP_kind]
  simp [entriesDone, commandBytes_initTable, initLen, beginInit, endInit, displayPhase, drawMode, doneWith, emit, recordContract, h.1]

/-! ### A command step that times out -/

/-- A command step that stands in a wait has made a failed poll there (R236). -/
theorem initSteps_blocked {v : Byte} {es : List InitEntry} {k j : Stage} {s u : State} (h : frame selCommand v k s = .blocked j u) :
    initSteps (.command v :: es) k s = pollFailed .dinit .dinit j u := by
  simp only [initSteps, h]

/-- A command step that comes to wait `k` with one action queued times out there if the engine is withheld and the limit is 1 (R262). -/
theorem initSteps_withheld {v : Byte} {es : List InitEntry} {k : Stage} {x : WireAction} {s u : State} {gs : List Nat}
    (hk : k ≠ .start) (hframe : frame selCommand v .start s = frame selCommand v k u) (hn : u.noReset) (hc : u.ctrlEnable = true)
    (hq : u.q = [x]) (hb : ∀ d, x = .data d → u.busState = .busy) (hr : engineReady u = false) (hlim : waitPollLimit u.cfg = some 1)
    (he : u.envGrants = 0 :: gs) :
    initSteps (.command v :: es) .start s = failWith .dinit .timedOut (countPoll { u with envGrants := gs }) := by
  rw [frame_withheld hk hn (performable_cons hc hn.1 hq hb) he hr] at hframe
  rw [initSteps_blocked hframe, pollFailed_timedOut (l := 1) (by exact hlim) (Nat.le_add_left 1 _)]

/-- What is queued while a command step stands in its wait `j + 1` (R219). -/
def awaited (v : Byte) : Nat → List WireAction
  | 0 => [.addr 0x7C]
  | 1 => [.data 0x00]
  | _ => [.data v]

/-- What a command step leaves that times out in its wait `j + 1`, the grants behind it being `gs` (R236, R262). -/
def commandTimedOut (v : Byte) (j : Nat) (gs : List Nat) (s : State) : State :=
  { s with
    maddr := 0x7C
    mdata := if j = 0 then s.mdata else if j = 1 then 0x00 else v
    wif := false
    rif := false
    busState := if j = 0 then .idle else .busy
    wc := 1
    q := awaited v j
    txnOpen := true
    result := .timedOut
    faults := s.faults ||| 0b001
    seq := .idle
    envGrants := gs
    trace := s.trace ++ (frameEvents 0x00 v).take (2 * j + 1) ++ [.done .dinit .timedOut] }

/-- On an engine at rest that is granted a step at the waits before it, a command step times out in its wait `j + 1` (R236). -/
theorem initSteps_timedOut {v : Byte} {es : List InitEntry} {j : Nat} {s : State} {gs hs : List Nat} (hn : s.noReset)
    (hrest : s.engineAtRest) (hlim : waitPollLimit s.cfg = some 1) (hj : j < 3) (hlen : gs.length = j) (hgs : ∀ g ∈ gs, 1 ≤ g)
    (he : s.envGrants = gs ++ 0 :: hs) :
    initSteps (.command v :: es) .start s = commandTimedOut v j hs s := by
  have hc : s.ctrlEnable = true := hrest.1
  have hb : s.busState = .idle := hrest.2.2
  match gs, hlen with
  | 0 :: _, _ | _ :: 0 :: _, _ => simp at hgs
  | [], rfl =>
    rw [initSteps_withheld (by decide) (frame_at_wait1 selCommand v hn hrest) (by exact hn) (by exact hc) rfl (by simp) rfl
      (by exact hlim) (by exact he)]
    simp [commandTimedOut, awaited, failWith, countPoll, emit, frameEvents, ResultCode.faultBit, hb]
  | [g1 + 1], rfl =>
    rw [initSteps_withheld (by decide) (frame_at_wait2 selCommand v hn hrest (by exact he)) (by exact hn) (by exact hc) rfl
      (fun _ _ => rfl) rfl (by exact hlim) rfl]
    simp [commandTimedOut, awaited, failWith, countPoll, emit, frameEvents, ResultCode.faultBit, selCommand]
  | [g1 + 1, g2 + 1], rfl =>
    rw [initSteps_withheld (by decide) (frame_at_wait3 selCommand v hn hrest (by exact he)) (by exact hn) (by exact hc) rfl
      (fun _ _ => rfl) rfl (by exact hlim) rfl]
    simp [commandTimedOut, awaited, failWith, countPoll, emit, frameEvents, ResultCode.faultBit, selCommand]

/-- A poll fails in whatever wait it is made. -/
theorem waitIdle_blocked_any {j : Stage} {fresh : Bool} {s t : State} (h : waitIdle j fresh s = .blocked j t) (k : Stage) :
    waitIdle k fresh s = .blocked k t := by
  unfold waitIdle at h ⊢
  dsimp only at h ⊢
  generalize resetPoint (engineTurn (if fresh && !s.resetIn then clearPolls s else s)) = u at h ⊢
  split at h
  · cases h
  · cases h
    exact if_neg ‹_›

/-- A transaction resumed in a wait whose poll fails stays there. -/
theorem frame_blocked {sel x : Byte} {k : Stage} {s t : State} (hk : k ≠ .start) (h : waitIdle k false s = .blocked k t) :
    frame sel x k s = .blocked k t := by
  cases k with
  | start => exact absurd rfl hk
  | wait1 => rw [frame, h, Flow.andThen]
  | wait2 => rw [frame, h, Flow.andThen]
  | wait3 => rw [frame, h, Flow.andThen]

/-- `DINIT` held at an entry goes on with the entries from there on (R236). -/
theorem exec_dinit_held {s u : State} {k : Stage} (hs : s.seq = .waiting .dinit k) (hk : k ≠ .start)
    (hgate : ∀ body, engineGate s body = body u) (hlt : s.dcIp.toNat < initLen s.cfg) :
    exec .dinit s = .next (initSteps ((initTable s.cfg).drop s.dcIp.toNat) k u) := by
  have hu : u.dcIp = s.dcIp ∧ u.cfg = s.cfg := by
    obtain ⟨-, e⟩ | ⟨-, e⟩ := engineGate_next (hgate .next) <;> cases e
    · exact ⟨rfl, rfl⟩
    · exact ⟨grantTaken_dcIp s, grantTaken_cfg s⟩
  obtain ⟨hip, hcfg⟩ := hu
  rw [exec, execDinit, enter, accept_waiting hs, hgate, hip, hcfg]
  cases k
  case start => exact absurd rfl hk
  all_goals exact if_pos hlt

/-- The entries from entry `n` of the table on. -/
theorem initTable_drop {c : Config} {n : Nat} {e : InitEntry} (h : (initTable c)[n]? = some e) :
    n < initLen c ∧ (initTable c).drop n = e :: (initTable c).drop (n + 1) := by
  obtain ⟨hlt, rfl⟩ := List.getElem?_eq_some_iff.mp h
  exact ⟨hlt, List.drop_eq_getElem_cons hlt⟩

/-- Grants of at least one step each, before whatever the environment grants then (R79). -/
theorem State.granted.of_append {n : Nat} {gs rest : List Nat} {s : State} (he : s.envGrants = gs ++ rest) (hgs : ∀ g ∈ gs, 1 ≤ g)
    (hn : n ≤ gs.length) : s.granted n := by
  rw [State.granted, he, List.take_append_of_le_length hn]
  exact ⟨by simp; omega, fun g hg => hgs g (List.mem_of_mem_take hg)⟩

/-- `DINIT` comes to entry `n` when the entries before it go through (R231). -/
theorem exec_dinit_upTo {s : State} {n : Nat} {v : Byte} (h : s.quiet) (hrest : s.engineAtRest)
    (hv : (initTable s.cfg)[n]? = some (.command v)) (hg : s.granted (4 * (commandBytes ((initTable s.cfg).take n)).length)) :
    exec .dinit s =
      .next (initSteps (.command v :: (initTable s.cfg).drop (n + 1)) .start
        (entriesDone ((initTable s.cfg).take n) (beginInit (recordContract .dinit s)))) := by
  obtain ⟨-, hdrop⟩ := initTable_drop hv
  rw [exec_dinit h hrest, ← hdrop, ← initSteps_append _ _ _ (by exact h.2) (by exact hrest) (by exact hg), List.take_append_drop]

/-- Settles O43: the entries before `n` go through, and the poll that fails is the last one the limit allows. -/
theorem dinitTimesOutAtEntry : Obligations.DinitTimesOutAtEntry := by
  refine ⟨?start, ?held⟩
  case start =>
    intro s n j v gs hs h hrest hlim hv hj hlen hgs he
    obtain ⟨hn, -⟩ := initTable_drop hv
    rw [countP_kind] at hlen
    generalize hc : 4 * (commandBytes ((initTable s.cfg).take n)).length = c at hlen
    have hrun := exec_dinit_upTo h hrest hv (.of_append he hgs (by omega))
    have hdrop : s.envGrants.drop c = gs.drop c ++ 0 :: hs := by rw [he, List.drop_append_of_le_length (by omega)]
    have hleft : (gs.drop c).length = j := by rw [List.length_drop]; omega
    have hip : 0#8 + BitVec.ofNat 8 ((initTable s.cfg).take n).length = BitVec.ofNat 8 n := by
      rw [List.length_take_of_le hn.le, BitVec.zero_add]
    rw [initSteps_timedOut (by exact h.2) (by exact hrest) (by exact hlim) hj hleft (fun g hg => hgs g (List.mem_of_mem_drop hg))
      (by rw [← hdrop, ← hc]; rfl)] at hrun
    exact ⟨_, hrun, rfl, rfl, hip, rfl, rfl, rfl, rfl, rfl, rfl, rfl, rfl⟩
  case held =>
    intro s k v l gs hn hs hk hv hf hstill hlim hl
    obtain ⟨hlt, hdrop⟩ := initTable_drop hv
    obtain ⟨u, hgate, hw⟩ := engineGate_blocked false hn hf hstill
    rw [exec_dinit_held hs hk hgate hlt, hdrop, initSteps_blocked (frame_blocked hk (waitIdle_blocked_any hw k)),
      pollFailed_timedOut (l := l) (by exact hlim) (by exact hl)]
    rfl

end Sys2Proof.Machine
end

section
/-! PROOFS. Exceptions (60_exceptions.md): a held operation whose engine stands still under no poll limit (R257). -/

namespace Sys2Proof.Machine

/-! ### A held operation makes one failed poll -/

/-- What a held operation is after a failed poll: a string has lost the bytes after its terminator, which were never to be sent (R216). -/
def heldAs : Instr → Instr
  | .dwstr bs => .dwstr (stringBody bs ++ [0x00])
  | i => i

theorem heldAs_of_ne_dwstr {i : Instr} (h : ∀ bs, i ≠ .dwstr bs) : heldAs i = i := by
  cases i
  case dwstr bs => exact absurd rfl (h bs)
  all_goals rfl

theorem heldAs_eq_dinit {i : Instr} : heldAs i = .dinit ↔ i = .dinit := by
  cases i <;> simp [heldAs]

theorem heldAs_ne_dwstr {i : Instr} (h : ∀ bs, i ≠ .dwstr bs) : ∀ bs, heldAs i ≠ .dwstr bs := by
  rwa [heldAs_of_ne_dwstr h]

theorem zero_notMem_stringBody (bs : List Byte) : 0x00 ∉ stringBody bs := fun h => by
  simpa using List.mem_takeWhile_imp h

/-- A string is still held in a wait of its own when it has lost what follows its terminator. -/
theorem heldAt_heldAs {i : Instr} {k : Stage} (h : heldAt i k = true) : heldAt (heldAs i) k = true := by
  cases i
  case dwstr bs =>
    have hbody : stringBody (stringBody bs ++ [0x00]) = stringBody bs := stringBody_append_zero (zero_notMem_stringBody bs) []
    simp only [heldAt, heldAs, Bool.and_eq_true, hbody] at h ⊢
    obtain ⟨⟨-, hne⟩, hk⟩ := h
    exact ⟨⟨by simp, hne⟩, hk⟩
  all_goals exact h

/-- The bytes left to send stay as they are when the first of them is held in its transaction (R215, R216). -/
theorem wchrSteps_blocked {rest : List Byte → Instr} {b : Byte} {bs : List Byte} {k j : Stage} {u t : State}
    (h : frame selData b k u = .blocked j t) : wchrSteps rest (b :: bs) k u = pollFailed .wchr (rest (b :: bs)) j t := by
  simp only [wchrSteps, h]

/-- The bytes left to write stay as they are when the first of them is held in its wait (R156). -/
theorem writeByte_blocked {b : Byte} {i : Instr} {k : Stage} {u t : State} {next : State → Out} (hk : k ≠ .start)
    (h : waitIdle .wait1 false u = .blocked .wait1 t) : writeByte b i k u next = .next (pollFailed .wrb i .wait1 t) := by
  simp only [writeByte, decide_eq_false hk, h]

/-- The operations that can be held, and where: one wait, a display transaction, `DINIT`, or a list of bytes that is not through. -/
theorem heldAt_cases {i : Instr} {k : Stage} (c : Config) (h : heldAt i k = true) :
    (k = .wait1 ∧ ∃ op, OneWait op i) ∨ (∃ op sel x, framed c i = some (op, sel, x)) ∨ i = .dinit ∨
    (k = .wait1 ∧ ∃ b bs, i = .warr (b :: bs)) ∨ (∃ b bs, i = .dwarr (b :: bs)) ∨
    ∃ bs b body, i = .dwstr bs ∧ bs.contains 0x00 = true ∧ stringBody bs = b :: body := by
  cases i
  case wrb b => cases k <;> cases h; exact .inl ⟨rfl, _, .inr (.inr ⟨b, rfl, rfl⟩)⟩
  case stop => cases k <;> cases h; exact .inl ⟨rfl, _, .inr (.inl ⟨rfl, rfl⟩)⟩
  case wait => cases k <;> cases h; exact .inl ⟨rfl, _, .inl ⟨rfl, rfl⟩⟩
  case wcmd | scur | sgly | wchr => exact .inr (.inl ⟨_, _, _, rfl⟩)
  case dinit => exact .inr (.inr (.inl rfl))
  case warr bs =>
    cases bs with
    | nil => cases k <;> cases h
    | cons b bs => cases k <;> cases h; exact .inr (.inr (.inr (.inl ⟨rfl, b, bs, rfl⟩)))
  case dwarr bs =>
    cases bs with
    | nil => cases h
    | cons b bs => exact .inr (.inr (.inr (.inr (.inl ⟨b, bs, rfl⟩))))
  case dwstr bs =>
    simp only [heldAt, Bool.and_eq_true] at h
    obtain ⟨⟨hz, hbody⟩, -⟩ := h
    cases hs : stringBody bs with
    | nil => simp [hs] at hbody
    | cons b body => exact .inr (.inr (.inr (.inr (.inr ⟨bs, b, body, rfl, hz, hs⟩))))
  all_goals cases h

/-- An operation held in a wait of its own goes on with the poll of that wait; if it finds no flag, the operation is held there or timed
out (R158). -/
theorem exec_held {i : Instr} {k : Stage} {s u t : State} (hs : s.seq = .waiting i k) (hk : heldAt i k = true)
    (hr : s.resetIn = false) (hinit : i = .dinit → s.InitProgress) (hgate : ∀ body, engineGate s body = body u)
    (hw : waitIdle k false u = .blocked k t) : ∃ op, exec i s = .next (pollFailed op (heldAs i) k t) := by
  have hstart : k ≠ .start := by rintro rfl; simp [not_heldAt_start] at hk
  have hresume : ∀ body, enter i s body = body k u := fun body => by rw [enter, accept_waiting hs, hgate]
  have hframe : ∀ {sel x}, frame sel x k u = .blocked k t := frame_blocked hstart hw
  obtain ⟨rfl, op, hone⟩ | ⟨op, sel, x, hf⟩ | rfl | ⟨rfl, b, bs, rfl⟩ | ⟨b, bs, rfl⟩ | ⟨bs, b, body, rfl, hz, hbody⟩ :=
    heldAt_cases u.cfg hk
  · obtain ⟨body, hexec, hpoll⟩ := hone.body
    refine ⟨op, ?_⟩
    rw [hexec, hresume, hpoll .wait1 u t hw]
    obtain ⟨-, rfl⟩ | ⟨-, rfl⟩ | ⟨b, -, rfl⟩ := hone <;> rfl
  · obtain ⟨body, hexec, hbody⟩ := exec_eq_framerOp hf
    refine ⟨op, ?_⟩
    rw [hexec, hresume, hbody k u rfl, framerOp_blocked (by rw [if_neg hstart, hframe])]
    obtain ⟨b, rfl, -⟩ | ⟨o, rfl, -⟩ | ⟨o, rfl, -⟩ | ⟨b, rfl, -⟩ := framed_cases hf <;> rfl
  · obtain ⟨v, es, hdrop⟩ := (hinit rfl).dinit_entry hr hs
    have hlt : s.dcIp.toNat < initLen s.cfg := by
      by_contra hge
      simp [List.drop_eq_nil_of_le (not_lt.mp hge)] at hdrop
    exact ⟨.dinit, by rw [exec_dinit_held hs hstart hgate hlt, hdrop, initSteps_blocked hframe]; rfl⟩
  · exact ⟨.wrb, by rw [exec, execWarr, hresume, warrSteps, writeByte_blocked hstart hw]; rfl⟩
  · exact ⟨.wchr, by rw [exec, execDwarr, hresume, wchrSteps_blocked hframe]; rfl⟩
  · exact ⟨.wchr, by rw [exec, execDwstr, if_pos hz, hresume, hbody, wchrSteps_blocked hframe, heldAs, hbody]⟩

/-! ### The hang -/

/-- Operation `i` is held in wait `k` with no poll limit, no flag up and no reset, and the engine stands still for `n` steps (R257). -/
structure State.Hangs (n : Nat) (i : Instr) (k : Stage) (s : State) : Prop where
  noReset : s.noReset
  seq : s.seq = .waiting i k
  held : heldAt i k = true
  init : i = .dinit → s.InitProgress
  noFlag : engineReady s = false
  noLimit : waitPollLimit s.cfg = none
  still : s.q = [] ∨ s.ctrlEnable = false ∨ ∃ gs, s.envGrants = List.replicate n 0 ++ gs

/-- The engine stands still at its next turn, and then for the steps that are left. -/
theorem State.Hangs.standsStill {n : Nat} {i : Instr} {k : Stage} {s : State} (h : s.Hangs (n + 1) i k) :
    ∃ gs, s.standsStill gs ∧ (s.q = [] ∨ s.ctrlEnable = false ∨ ∃ hs, gs = List.replicate n 0 ++ hs) := by
  by_cases hoff : s.q = [] ∨ s.ctrlEnable = false
  · exact ⟨s.envGrants, .inl ⟨hoff, rfl⟩, hoff.imp_right .inl⟩
  · obtain ⟨hq, hc⟩ := not_or.mp hoff
    obtain hq' | hc' | ⟨hs, he⟩ := h.still
    · exact absurd hq' hq
    · exact absurd hc' hc
    · exact ⟨_, .inr ⟨by simpa using hc, hq, he⟩, .inr (.inr ⟨hs, rfl⟩)⟩

/-- What one step of a hang leaves: the failed poll is counted, and the operation is held as before. -/
def polled (i : Instr) (k : Stage) (gs : List Nat) (s : State) : State := holdIn (heldAs i) k (countPoll { s with envGrants := gs })

/-- A hang goes on, one failed poll with each step (R257). -/
theorem State.Hangs.step {n : Nat} {i : Instr} {k : Stage} {s : State} (h : s.Hangs (n + 1) i k) :
    ∃ gs, step s = .next (polled i k gs s) ∧ (polled i k gs s).Hangs n (heldAs i) k := by
  obtain ⟨gs, hstill, hleft⟩ := h.standsStill
  obtain ⟨u, hgate, hw⟩ := engineGate_blocked false h.noReset h.noFlag hstill
  obtain ⟨op, hexec⟩ := exec_held h.seq h.held h.noReset.1 h.init hgate (waitIdle_blocked_any hw k)
  have hstep : Machine.step s = .next (polled i k gs s) := by
    rw [step_waiting h.noReset.1 h.seq, hexec, pollFailed_unbounded (by exact h.noLimit)]
    rfl
  exact ⟨gs, hstep,
    { noReset := h.noReset
      seq := rfl
      held := heldAt_heldAs h.held
      init := fun hi => (initProgressKept s (h.init (heldAs_eq_dinit.mp hi))).1 _ hstep
      noFlag := h.noFlag
      noLimit := h.noLimit
      still := hleft }⟩

theorem run_succ {s t : State} (h : step s = .next t) (n : Nat) :
    Host.Core.run Sys2Proof.core (n + 1) s = Host.Core.run Sys2Proof.core n t := by
  have h' : Sys2Proof.core.step s = .next t := h
  simp only [Host.Core.run, h']

/-- Through all the steps of a hang the operation stays in its wait, and each step is one more failed poll (R257). -/
theorem State.Hangs.run {n : Nat} {i : Instr} {k : Stage} {s : State} (h : s.Hangs n i k) :
    ∃ t j, Host.Core.run Sys2Proof.core n s = .next t ∧ t.seq = .waiting j k ∧ ((∀ bs, i ≠ .dwstr bs) → j = i) ∧
      t.q = s.q ∧ t.txnOpen = s.txnOpen ∧ t.result = s.result ∧ t.trace = s.trace ∧ t.wc = s.wc + n := by
  induction n generalizing i s with
  | zero => exact ⟨s, i, rfl, h.seq, fun _ => rfl, rfl, rfl, rfl, rfl, rfl⟩
  | succ n ih =>
    obtain ⟨gs, hstep, hnext⟩ := h.step
    obtain ⟨t, j, hrun, hseq, hj, hq, htxn, hresult, htrace, hwc⟩ := ih hnext
    refine ⟨t, j, (run_succ hstep n).trans hrun, hseq, fun hi => ?_, hq, htxn, hresult, htrace, ?_⟩
    · exact (hj (heldAs_ne_dwstr hi)).trans (heldAs_of_ne_dwstr hi)
    · rw [hwc]
      exact Nat.succ_add_eq_add_succ s.wc n

/-- Settles O26: the premises are those of a hang. -/
theorem unboundedWaitHangs : Obligations.UnboundedWaitHangs :=
  fun _ _ _ hn hs hk hinit hf hlim _ hstill => State.Hangs.run ⟨hn, hs, hk, hinit, hf, hlim, hstill⟩

end Sys2Proof.Machine
end

section
/-! PROOFS. Exceptions (60_exceptions.md): a reserved command word (R253), and the configurations that are built (R255). -/

namespace Sys2Proof.Machine

/-! ### A reserved command word -/

/-- `ILLEGAL` keeps its contract in every state; after the engine's turn it fails, and writes nothing else (R253, log 22). -/
theorem exec_illegal {w : Word} {s : State} (h : s.accepts) :
    exec (.illegal w) s =
      .next { engineTurn s with
        result := .illegalCommand
        faults := s.faults ||| 0b100
        trace := (engineTurn s).trace ++ [.done .illegal .illegalCommand] } := by
  have ⟨⟨hs, hn⟩, _⟩ := h
  rw [exec, execIllegal, enter_accepts h, recordContract_kept rfl, runActions_cons, runActions_nil, runAction_none hn]
  simp [failWith, emit, ResultCode.faultBit, hs]

/-- Settles O53: the decoder reads a reserved word as `ILLEGAL` (R112), which the step runs. -/
theorem illegalResult : Obligations.IllegalResult := by
  intro s w h
  have ⟨⟨hs, hr, _⟩, _⟩ := h
  refine ⟨fun hq => ?_, exec_illegal h, engineTurn_sequencerPart s, ?_⟩
  · rw [exec_illegal h, engineTurn_empty hq]
  · intro unit fn imm rest hunit hfn himm hreserved hhost
    have hdecode : decode w = .illegal w := (reservedWordsAreIllegal w unit fn imm hunit hfn himm).1.mpr hreserved
    rw [step_word hr hs hhost, hdecode]
    exact exec_illegal (s := { s with host := rest }) h

/-! ### The Init Sequence that is given -/

/-- The entry of two bytes is the one whose bytes they are (R120, R121). -/
theorem entryOfBytes_eq_some {kv : Byte × Byte} {e : InitEntry} : entryOfBytes kv = some e ↔ entryBytes e = kv := by
  constructor
  · intro h
    unfold entryOfBytes at h
    split_ifs at h with h0 h1 <;> cases h
    · exact Prod.ext h0.symm rfl
    · exact Prod.ext h1.symm rfl
  · rintro rfl
    cases e <;> rfl

/-- The entries of a table of bytes are those whose bytes they are. -/
theorem mapM_entryOfBytes {bs : List (Byte × Byte)} {t : List InitEntry} :
    bs.mapM entryOfBytes = some t ↔ t.map entryBytes = bs := by
  induction bs generalizing t with
  | nil => simp [eq_comm]
  | cons b bs ih =>
    cases t with
    | nil => simp [Option.bind_eq_some_iff]
    | cons e es => simp [Option.bind_eq_some_iff, entryOfBytes_eq_some, ih]

/-- A table has entries exactly where no kind is reserved (R121). -/
theorem exists_map_entryBytes {bs : List (Byte × Byte)} :
    (∃ t : List InitEntry, t.map entryBytes = bs) ↔ ∀ kv ∈ bs, kv.1 = 0 ∨ kv.1 = 1 := by
  have hentry : ∀ kv : Byte × Byte, (∃ e, entryBytes e = kv) ↔ kv.1 = 0 ∨ kv.1 = 1 := by
    intro kv
    constructor
    · rintro ⟨e, rfl⟩
      exact entryBytes_kind e
    · obtain ⟨kind, value⟩ := kv
      rintro (h | h) <;> cases h
      · exact ⟨.command value, rfl⟩
      · exact ⟨.wait value, rfl⟩
  have h := Set.ext_iff.mp (Set.range_list_map entryBytes) bs
  simpa [hentry] using h

/-- The table whose entries between the first and the last are `mid` (R235). -/
def tableAround (mid : List InitEntry) : List InitEntry := .wait 50 :: (mid ++ [.command 0x01])

theorem initTable_eq {c : Config} (h : c.initMiddle.length ≤ 253) : initTable c = tableAround c.initMiddle := by
  rw [initTable, tableAround, List.take_of_length_le h]

/-- A table is admitted exactly when it is a middle of at most 253 entries between the two that the spec fixes (R235). -/
theorem middleOf_eq_some {t mid : List InitEntry} : middleOf t = some mid ↔ t = tableAround mid ∧ mid.length ≤ 253 := by
  unfold middleOf tableAround
  split
  · rename_i rest
    constructor
    · intro h
      split_ifs at h with hadm
      cases h
      obtain ⟨hlast, hlen⟩ := hadm
      have hrest : rest.dropLast ++ [.command 0x01] = rest := List.dropLast_append_getLast? _ hlast
      refine ⟨congrArg _ hrest.symm, ?_⟩
      rw [List.length_cons] at hlen
      rw [List.length_dropLast]
      omega
    · rintro ⟨h, hlen⟩
      cases h
      rw [if_pos ⟨by simp, by simp; omega⟩, List.dropLast_concat]
  · rename_i hne
    constructor
    · intro h
      cases h
    · rintro ⟨rfl, -⟩
      exact absurd rfl (hne _)

/-- The bytes of the admitted tables (R121, R235). -/
theorem admitted_bytes_iff {bs : List (Byte × Byte)} :
    (∃ mid, (tableAround mid).map entryBytes = bs ∧ mid.length ≤ 253) ↔
      2 ≤ bs.length ∧ bs.length ≤ 255 ∧ (∀ kv ∈ bs, kv.1 = 0 ∨ kv.1 = 1) ∧ bs.head? = some (1, 50) ∧
        bs.getLast? = some (0, 0x01) := by
  constructor
  · rintro ⟨mid, rfl, hlen⟩
    refine ⟨?_, ?_, exists_map_entryBytes.mp ⟨_, rfl⟩, rfl, ?_⟩
    · simp [tableAround]
    · simp [tableAround]; omega
    · simp [tableAround, entryBytes, List.getLast?_cons]
  · rintro ⟨h2, h255, hkind, hhead, hlast⟩
    obtain ⟨rest, rfl⟩ : ∃ rest, bs = (1, 50) :: rest := List.head?_eq_some_iff.mp hhead
    have hrest : rest ≠ [] := by rintro rfl; simp at h2
    rw [List.getLast?_cons_of_ne_nil hrest] at hlast
    obtain ⟨ks, rfl⟩ : ∃ ks, rest = ks ++ [(0, 0x01)] := List.getLast?_eq_some_iff.mp hlast
    obtain ⟨mid, rfl⟩ := exists_map_entryBytes.mpr fun kv (hkv : kv ∈ ks) => hkind kv (by simp [hkv])
    refine ⟨mid, by simp [tableAround, entryBytes], ?_⟩
    simp only [List.length_cons, List.length_append, List.length_map, List.length_nil] at h255
    omega

/-! ### Building a configuration -/

/-- What is built from `r`: it is admitted, and the machine has what `r` gives (R255). -/
structure Builds (r : RawConfig) (c : Config) : Prop where
  divisor : admitDivisor r.cpuHz r.busHz r.riseNs = some c.divisorCfg
  table : (tableAround c.initMiddle).map entryBytes = r.table
  middle : c.initMiddle.length ≤ 253
  halfPeriod : 25 + c.halfPeriodOver25.val = r.halfPeriodUs
  pollLimit : waitPollLimit c = r.pollLimit
  cursorBase : c.cursorBase = r.cursorBase
  glyphBase : c.glyphBase = r.glyphBase
  cursorOffsetMax : c.cursorOffsetMax = r.cursorOffsetMax
  displayFollows : c.displayFollows = r.displayFollows

theorem builds_of_buildConfig {r : RawConfig} {c : Config} (h : buildConfig r = .ok c) : Builds r c := by
  unfold buildConfig at h
  split at h
  case h_1 => cases h
  case h_2 d hd =>
    split at h
    case h_1 => cases h
    case h_2 t ht =>
      split at h
      case h_1 => cases h
      case h_2 mid hmid =>
        split_ifs at h with hhalf hlim
        cases h
        obtain ⟨rfl, hlen⟩ := middleOf_eq_some.mp hmid
        refine ⟨hd, mapM_entryOfBytes.mp ht, hlen, Nat.add_sub_cancel' hhalf.1, ?_, rfl, rfl, rfl, rfl⟩
        cases hp : r.pollLimit with
        | none => simp [waitPollLimit]
        | some l =>
          have hl : l ≠ 0 := fun h0 => hlim (by rw [hp, h0])
          simp [waitPollLimit, Nat.sub_add_cancel (Nat.pos_of_ne_zero hl)]

/-- Nothing else is asked of what `r` gives (R255). -/
theorem buildConfig_of_admitted {r : RawConfig} {d : Byte} {mid : List InitEntry}
    (hd : admitDivisor r.cpuHz r.busHz r.riseNs = some d) (ht : (tableAround mid).map entryBytes = r.table)
    (hlen : mid.length ≤ 253) (h25 : 25 ≤ r.halfPeriodUs) (h50 : r.halfPeriodUs ≤ 50) (hlim : r.pollLimit ≠ some 0) :
    ∃ c, buildConfig r = .ok c := by
  have hm : r.table.mapM entryOfBytes = some (tableAround mid) := mapM_entryOfBytes.mpr ht
  have hmid : middleOf (tableAround mid) = some mid := middleOf_eq_some.mpr ⟨rfl, hlen⟩
  exact ⟨_, by simp only [buildConfig, hd, hm, hmid]; rw [dif_pos ⟨h25, h50⟩, if_neg hlim]⟩

/-- Settles O51: the checks of `buildConfig`, each read as what it admits. -/
theorem buildConfigAdmits : Obligations.BuildConfigAdmits := by
  intro r
  have hdivisor : ∀ d, admitDivisor r.cpuHz r.busHz r.riseNs = some d →
      computeDivisor r.cpuHz r.busHz r.riseNs = some (d.toNat : Int) := fun d hd => ((divisorAdmission _ _ _ d).mp hd).2
  refine ⟨⟨?_, ?_⟩, ?_⟩
  · rintro ⟨c, h⟩
    have hb := builds_of_buildConfig h
    obtain ⟨h2, h255, hkind, hhead, hlast⟩ := admitted_bytes_iff.mp ⟨_, hb.table, hb.middle⟩
    have hhalf := hb.halfPeriod
    have hover := c.halfPeriodOver25.isLt
    refine ⟨⟨_, hdivisor _ hb.divisor⟩, h2, h255, hkind, hhead, hlast, by omega, by omega, ?_⟩
    rw [← hb.pollLimit]
    simp [waitPollLimit]
  · rintro ⟨⟨d, hd⟩, h2, h255, hkind, hhead, hlast, h25, h50, hlim⟩
    have ht : r.busHz ≠ 0 := by
      intro h0
      simp [h0, computeDivisor_zero] at hd
    obtain ⟨mid, htable, hlen⟩ := admitted_bytes_iff.mpr ⟨h2, h255, hkind, hhead, hlast⟩
    exact buildConfig_of_admitted ((divisorAdmission _ _ _ d).mpr ⟨ht, hd⟩) htable hlen h25 h50 hlim
  · intro c h
    have hb := builds_of_buildConfig h
    have hhalf : (halfPeriodUs c).toNat = 25 + c.halfPeriodOver25.val := by
      rw [halfPeriodUs, BitVec.toNat_ofNat, Nat.mod_eq_of_lt (by omega)]
    exact ⟨by rw [initTable_eq hb.middle, hb.table], hdivisor _ hb.divisor, hhalf.trans hb.halfPeriod, hb.pollLimit,
      hb.cursorBase, hb.glyphBase, hb.cursorOffsetMax⟩

end Sys2Proof.Machine
end

section
/-! PROOFS. Reset and hazards (70_reset_and_hazards.md): what each operation requires (R295), a reset and where it falls (R290, R291),
an idle block (R293) and a busy one (R303). -/

namespace Sys2Proof.Machine

/-! ### What an operation requires -/

theorem startAllowed_iff {s : State} :
    startAllowed s = true ↔ s.bmInited = true ∧ s.ctrlEnable = true ∧ s.txnOpen = false := by
  simp [startAllowed, and_assoc]

theorem frameAllowed_iff {s : State} :
    frameAllowed s = true ↔ s.bmInited = true ∧ s.ctrlEnable = true ∧ s.txnOpen = false ∧ s.phase = .ready := by
  simp [frameAllowed, startAllowed_iff, and_assoc]

/-- The direction bit is the parity of the address byte (R113). -/
theorem writeDirection_iff {a : Byte} : writeDirection a = true ↔ a.toNat % 2 = 0 := by
  simp [writeDirection, BitVec.getLsbD, Nat.testBit_zero]

/-- The legal glyph offsets are the first bytes of the glyphs 0 to 5 (R17). -/
theorem legalGlyphOffset_iff {o : Byte} :
    legalGlyphOffset o = true ↔ o = 0 ∨ o = 8 ∨ o = 16 ∨ o = 24 ∨ o = 32 ∨ o = 40 := by
  simp only [legalGlyphOffset, Bool.and_eq_true, decide_eq_true_iff]
  bv_omega

/-- What is queued raises a flag exactly where it is no stop (R78). -/
theorem raisesFlag_iff {x : WireAction} : raisesFlag x = true ↔ x ≠ .stop := by cases x <;> simp [raisesFlag]

theorem flagWillRise_iff {s : State} :
    flagWillRise s = true ↔ s.wif = true ∨ s.rif = true ∨ (s.ctrlEnable = true ∧ ∃ x ∈ s.q, x ≠ .stop) := by
  simp [flagWillRise, engineReady, raisesFlag_iff, or_assoc]

/-- Settles O30, clause by clause. -/
theorem requiresAsListed : Obligations.RequiresAsListed := by
  intro s
  refine ⟨rfl, Iff.rfl, Iff.rfl, fun d => ?binit, fun a => ?start, fun _ => Iff.rfl, Iff.rfl, ?dinit, fun _ => frameAllowed_iff,
    fun o => ?scur, fun o => ?sgly, fun _ => Iff.rfl, flagWillRise_iff⟩
  case binit => simp [requires]
  case start => simp [requires, startAllowed_iff, writeDirection_iff, and_assoc]
  case dinit => simp [requires, and_assoc]
  case scur => simp [requires, legalCursorOffset]
  case sgly => simp [requires, legalGlyphOffset_iff]

/-! ### The reset state -/

/-- Settles O6: the two pins are released, so each line is what the environment contributes (R86). -/
theorem resetValues : Obligations.ResetValues := by
  refine ⟨rfl, rfl, rfl, rfl, rfl, rfl, rfl, rfl, rfl, rfl, rfl, rfl, rfl, rfl, rfl, rfl, rfl, rfl, rfl, rfl, fun hd => if_pos hd,
    rfl, rfl, fun p env => ?_⟩
  have hreleased : ownLevel (State.reset.pin p) = true := ownLevel_input (by cases p <;> rfl)
  rw [lineLevel_off rfl, hreleased, Bool.true_and]

/-- Settles O54: nothing is queued, issued or in progress. -/
theorem resetSatisfiesInvariants : Obligations.ResetSatisfiesInvariants :=
  ⟨List.nil_sublist _, rfl, ⟨rfl, fun _ => trivial⟩, rfl, fun _ => ⟨fun _ => rfl, .inl rfl, fun _ => trivial⟩⟩

/-- Settles O7: the step is the reset event, which keeps the display, the host's list and the configuration. -/
theorem resetEventClearsTheBlock : Obligations.ResetEventClearsTheBlock := fun s h =>
  ⟨resetEvent s, step_asserted h, by and_intros <;> rfl⟩

/-! ### An idle block and a busy one -/

/-- Settles O10: with no reset ahead, the engine's turn is all that happens. -/
theorem stepWaitsForCommand : Obligations.StepWaitsForCommand := by
  rintro s ⟨⟨hs, hn⟩, hu⟩ hh
  obtain ⟨hr, he⟩ := engineTurn_noReset hn
  have hstep : step s = .next (engineTurn s) := by
    simp only [step, hn.1, Bool.false_eq_true, if_false, hs, fetch, hh, waitForCommand, engineGate_pass hu, resetPoint_none hr he]
  exact ⟨hstep, fun hq => by rw [hstep, engineTurn_empty hq]⟩

/-- A block held inside one operation has no way to take up another (R303). -/
theorem enter_busy {i j : Instr} {k : Stage} {s : State} (hs : s.seq = .waiting j k) (hij : i ≠ j) (body : Stage → State → Out) :
    enter i s body = .refused .commandWhileBusy := by
  simp [enter, accept, hs, hij.symm]

/-- Settles O29: every well-formed operation begins by being taken up. -/
theorem busyBlockAcceptsNothing : Obligations.BusyBlockAcceptsNothing := by
  intro s i j k hs hij hw
  obtain ⟨body, hb⟩ | ⟨hill, -⟩ := exec_eq_enter i
  · rw [hb, enter_busy hs hij]
  · rw [hw] at hill
    cases hill


/-! ### A reset between two actions -/

/-- The environment's resets ahead are `ns` (R290). -/
def withResets (ns : List Nat) (s : State) : State := { s with envResets := ns }

/-- A reset has come, and `ns` are the environment's resets after it (R290). -/
def resetArrived (ns : List Nat) (s : State) : State := { s with resetIn := true, envResets := ns }

/-- An action that neither reads nor writes the environment's resets. -/
def State.ResetBlind (act : State → State) : Prop := ∀ (ns : List Nat) (u : State), act (withResets ns u) = withResets ns (act u)

theorem foldl_withResets {acts : List (State → State)} (h : ∀ act ∈ acts, State.ResetBlind act) (ns : List Nat) (s : State) :
    acts.foldl (fun u act => act u) (withResets ns s) = withResets ns (acts.foldl (fun u act => act u) s) := by
  induction acts generalizing s with
  | nil => rfl
  | cons act acts ih =>
    obtain ⟨hact, hacts⟩ := List.forall_mem_cons.mp h
    rw [List.foldl_cons, hact, ih hacts, List.foldl_cons]

/-- With nothing queued, an action before which a reset comes is not done (R290). -/
theorem runAction_now {act : State → State} {s : State} {ns : List Nat} (hq : s.q = []) (hr : s.resetIn = false)
    (he : s.envResets = 0 :: ns) : runAction act s = resetArrived ns s := by
  rw [runAction, engineTurn_empty hq, resetPoint_now hr he, if_pos rfl, resetArrived]

/-- With nothing queued and the reset further away, an action is done, and the reset is one point nearer (R290). -/
theorem runAction_later {act : State → State} {s : State} {n : Nat} {ns : List Nat} (hact : State.ResetBlind act) (hq : s.q = [])
    (hr : s.resetIn = false) (he : s.envResets = (n + 1) :: ns) : runAction act s = withResets (n :: ns) (act s) := by
  rw [← hact, runAction, engineTurn_empty hq, resetPoint_later hr he]
  exact if_neg (by simp [hr])

/-- Actions with nothing queued and the next reset as many points away as there are actions, or more: they all run, and the reset is that
much nearer (R290). -/
theorem runActions_uncut {acts : List (State → State)} {s : State} {n : Nat} {ns : List Nat} (hn : acts.length ≤ n) (hq : s.q = [])
    (hr : s.resetIn = false) (he : s.envResets = n :: ns) (ha : ∀ act ∈ acts, State.Rests act)
    (hb : ∀ act ∈ acts, State.ResetBlind act) :
    runActions acts s = withResets ((n - acts.length) :: ns) (acts.foldl (fun u act => act u) s) := by
  induction acts generalizing s n with
  | nil => rw [runActions_nil, List.foldl_nil, List.length_nil, Nat.sub_zero, withResets, ← he]
  | cons act acts ih =>
    obtain ⟨m, rfl⟩ := Nat.exists_eq_add_one_of_ne_zero (Nat.ne_zero_of_lt hn)
    obtain ⟨hact, hacts⟩ := List.forall_mem_cons.mp ha
    obtain ⟨hbact, hbacts⟩ := List.forall_mem_cons.mp hb
    obtain ⟨hempty, hkept, -⟩ := hact s
    have hrest := ih (s := withResets (m :: ns) (act s)) (Nat.le_of_succ_le_succ hn) (hempty hq) (hkept.trans hr) rfl hacts hbacts
    rw [runActions_cons, runAction_later hbact hq hr he, hrest, foldl_withResets hbacts, List.length_cons, Nat.add_sub_add_right]
    rfl

theorem foldl_rests {acts : List (State → State)} (ha : ∀ act ∈ acts, State.Rests act) :
    State.Rests fun s => acts.foldl (fun u act => act u) s := by
  induction acts with
  | nil => exact fun _ => ⟨id, rfl, rfl⟩
  | cons act acts ih =>
    intro s
    obtain ⟨hact, hacts⟩ := List.forall_mem_cons.mp ha
    obtain ⟨hq, hr, he⟩ := hact s
    obtain ⟨hq', hr', he'⟩ := ih hacts (act s)
    exact ⟨fun h => hq' (hq h), hr'.trans hr, he'.trans he⟩

/-- Actions with nothing queued and the next reset `n` points away, before the last of them: the first `n` run and no more (R290). -/
theorem runActions_cut {acts : List (State → State)} {s : State} {n : Nat} {ns : List Nat} (hn : n < acts.length) (hq : s.q = [])
    (hr : s.resetIn = false) (he : s.envResets = n :: ns) (ha : ∀ act ∈ acts, State.Rests act)
    (hb : ∀ act ∈ acts, State.ResetBlind act) :
    runActions acts s = resetArrived ns ((acts.take n).foldl (fun u act => act u) s) := by
  have hlen : (acts.take n).length = n := List.length_take_of_le hn.le
  have hfirst := fun act (m : act ∈ acts.take n) => ha act (List.mem_of_mem_take m)
  obtain ⟨hempty, hkept, -⟩ := foldl_rests hfirst s
  calc runActions acts s
    _ = runActions (acts.drop n) (runActions (acts.take n) s) := by rw [← runActions_append, List.take_append_drop]
    _ = runActions (acts.drop n) (withResets (0 :: ns) ((acts.take n).foldl (fun u act => act u) s)) := by
      rw [runActions_uncut hlen.le hq hr he hfirst fun act m => hb act (List.mem_of_mem_take m), hlen, Nat.sub_self]
    _ = resetArrived ns ((acts.take n).foldl (fun u act => act u) s) := by
      rw [List.drop_eq_getElem_cons hn, runActions_cons,
        runAction_now (s := withResets (0 :: ns) _) (hempty hq) (hkept.trans hr) rfl, runActions_asserted _ rfl]
      rfl

/-- The actions of `BINIT d`, its end included (R153). -/
def binitActions (d : Byte) : List (State → State) :=
  [setDivisor d, enableEngine, clearFlags, forceIdle, binitGhost, doneWith .binit]

theorem binitActions_rests (d : Byte) : ∀ act ∈ binitActions d, State.Rests act := by simp [binitActions, State.Rests]

theorem binitActions_resetBlind (d : Byte) : ∀ act ∈ binitActions d, State.ResetBlind act := by
  simp only [binitActions, List.forall_mem_cons]
  exact ⟨fun _ _ => rfl, fun _ _ => rfl, fun _ _ => rfl, fun _ _ => rfl, fun _ _ => rfl, fun _ _ => rfl, by simp⟩

/-- `BINIT d` with nothing queued is its six actions (R153). -/
theorem exec_binit_empty {d : Byte} {s : State} (hs : s.seq = .idle) (hq : s.q = []) :
    exec (.binit d) s = .next (runActions (binitActions d) (recordContract (.binit d) s)) := by
  rw [exec, execBinit, enter_idle hs (atUndefinedByte_empty hq), binitActions]

/-- `BINIT d` with the next reset `n` points away, before its end: its first `n` actions (R153, R290). -/
theorem exec_binit_cut {d : Byte} {s : State} {n : Nat} {ns : List Nat} (hn : n < 6) (hs : s.seq = .idle) (hq : s.q = [])
    (hr : s.resetIn = false) (he : s.envResets = n :: ns) :
    exec (.binit d) s =
      .next (resetArrived ns (((binitActions d).take n).foldl (fun u act => act u) (recordContract (.binit d) s))) := by
  rw [exec_binit_empty hs hq,
    runActions_cut (s := recordContract (.binit d) s) hn hq hr he (binitActions_rests d) (binitActions_resetBlind d)]

/-- `BINIT d` with the next reset behind its end: all six actions (R153, R290). -/
theorem exec_binit_uncut {d : Byte} {s : State} {n : Nat} {ns : List Nat} (hn : 6 ≤ n) (hs : s.seq = .idle) (hq : s.q = [])
    (hr : s.resetIn = false) (he : s.envResets = n :: ns) :
    exec (.binit d) s =
      .next (withResets ((n - 6) :: ns) ((binitActions d).foldl (fun u act => act u) (recordContract (.binit d) s))) := by
  rw [exec_binit_empty hs hq,
    runActions_uncut (s := recordContract (.binit d) s) hn hq hr he (binitActions_rests d) (binitActions_resetBlind d)]
  rfl

/-! ### A reset in a wait -/

/-- A reset that comes at the poll of a resumed wait ends the wait, after the engine's turn (R257, R290). -/
theorem waitIdle_now (k : Stage) {s : State} {ns : List Nat} (hr : s.resetIn = false) (he : s.envResets = 0 :: ns) :
    waitIdle k false s = .go (resetArrived ns (engineTurn s)) := by
  have hpoint := resetPoint_now ((engineTurn_resetIn s).trans hr) ((engineTurn_envResets s).trans he)
  simp only [waitIdle, Bool.false_and, Bool.false_eq_true, if_false, hpoint, Bool.true_or, if_true, resetArrived]

/-- Under an asserted reset a transaction does nothing (R290). -/
theorem frame_asserted (sel x : Byte) (k : Stage) {s : State} (h : s.resetIn = true) : frame sel x k s = .go s := by
  cases k <;>
    simp only [frame, frameAfterWait1, frameAfterWait2, frameAfterWait3, Flow.andThen, waitIdle_asserted _ _ h, runActions_asserted _ h]

section
variable {k : Stage} {s u : State} (hk : k ≠ .start) (hw : waitIdle k false s = .go u) (hu : u.resetIn = true)
include hk hw hu

/-- A transaction whose wait is ended by a reset does nothing more (R257, R290). -/
theorem frame_cut (sel x : Byte) : frame sel x k s = .go u := by
  rw [← frame_asserted sel x k hu]
  cases k with
  | start => exact absurd rfl hk
  | wait1 => rw [frame, frame, hw, waitIdle_asserted _ _ hu]
  | wait2 => rw [frame, frame, hw, waitIdle_asserted _ _ hu]
  | wait3 => rw [frame, frame, hw, waitIdle_asserted _ _ hu]

theorem framerOp_cut (op : OpName) (i : Instr) (sel x : Byte) (f g : State → State) : framerOp op i sel x f g k s = u := by
  simp only [framerOp, if_neg hk, frame_cut hk hw hu, runActions_asserted _ hu]

end

/-- Under an asserted reset no entry of the Init Sequence does anything (R290). -/
theorem initSteps_asserted {u : State} (hu : u.resetIn = true) : ∀ (es : List InitEntry) (k : Stage), initSteps es k u = u := by
  intro es
  induction es with
  | nil => exact fun k => runActions_asserted _ hu
  | cons e es ih =>
    intro k
    cases e with
    | wait v => rw [initSteps, runActions_asserted _ hu, ih]
    | command v => simp only [initSteps, frame_asserted _ _ _ hu, runActions_asserted _ hu, ih]

theorem wchrSteps_asserted (rest : List Byte → Instr) {u : State} (hu : u.resetIn = true) :
    ∀ (bs : List Byte) (k : Stage), wchrSteps rest bs k u = u := by
  intro bs
  induction bs with
  | nil => exact fun k => rfl
  | cons b bs ih => intro k; simp only [wchrSteps, frame_asserted _ _ _ hu, runActions_asserted _ hu, ih]

/-- A byte whose wait is ended by a reset is not issued; what follows it follows (R155, R290). -/
theorem writeByte_cut {b : Byte} {i : Instr} {k : Stage} {s u : State} {next : State → Out}
    (hw : waitIdle .wait1 (decide (k = .start)) s = .go u) (hu : u.resetIn = true) : writeByte b i k s next = next u := by
  simp only [writeByte, hw, hu, Bool.true_or, if_true, runActions_asserted _ hu]

theorem warrSteps_asserted {u : State} (hu : u.resetIn = true) : ∀ (bs : List Byte) (k : Stage), warrSteps bs k u = .next u := by
  intro bs
  induction bs with
  | nil => exact fun k => rfl
  | cons b bs ih => intro k; rw [warrSteps, writeByte_cut (waitIdle_asserted _ _ hu) hu, ih]

/-- An operation held in a wait of its own, which a reset ends at its next poll, does nothing more (R257, R290). -/
theorem exec_held_cut {i : Instr} {k : Stage} {s u : State} (hs : s.seq = .waiting i k) (hk : heldAt i k = true)
    (hr : s.resetIn = false) (hinit : i = .dinit → s.InitProgress) (hgate : atUndefinedByte s = false)
    (hw : waitIdle k false s = .go u) (hu : u.resetIn = true) : exec i s = .next u := by
  have hstart : k ≠ .start := by rintro rfl; simp [not_heldAt_start] at hk
  have hresume : ∀ body, enter i s body = body k s := enter_waiting hs hgate
  have hframe : ∀ sel x, frame sel x k s = .go u := frame_cut hstart hw hu
  obtain ⟨rfl, op, hone⟩ | ⟨op, sel, x, hf⟩ | rfl | ⟨rfl, b, bs, rfl⟩ | ⟨b, bs, rfl⟩ | ⟨bs, b, body, rfl, hz, hbody⟩ :=
    heldAt_cases s.cfg hk
  · obtain ⟨-, rfl⟩ | ⟨-, rfl⟩ | ⟨b, -, rfl⟩ := hone
    · rw [exec, execWait, hresume]
      simp only [decide_eq_false hstart, hw, runActions_asserted _ hu]
    · rw [exec, execStop, hresume]
      simp only [decide_eq_false hstart, hw, hu, Bool.true_or, if_true, runActions_asserted _ hu]
    · rw [exec, execWrb, hresume, writeByte_cut (k := .wait1) hw hu]
  · obtain ⟨body, hexec, hbody⟩ := exec_eq_framerOp hf
    rw [hexec, hresume, hbody k s rfl, framerOp_cut hstart hw hu]
  · obtain ⟨-, hheld⟩ := initProgress_iff.mp (hinit rfl)
    obtain ⟨-, v, hv⟩ := (hheld hr _ _ hs).2 rfl
    obtain ⟨hlt, hdrop⟩ := initTable_drop hv
    rw [exec_dinit_held hs hstart (engineGate_pass hgate) hlt, hdrop]
    simp only [initSteps, hframe, runActions_asserted _ hu, initSteps_asserted hu]
  · rw [exec, execWarr, hresume, warrSteps, writeByte_cut (k := .wait1) hw hu, warrSteps_asserted hu]
  · rw [exec, execDwarr, hresume]
    simp only [wchrSteps, hframe, runActions_asserted _ hu, wchrSteps_asserted _ hu]
  · rw [exec, execDwstr, if_pos hz, hresume, hbody]
    simp only [wchrSteps, hframe, runActions_asserted _ hu, wchrSteps_asserted _ hu]

/-- Settles O60: `BINIT` is cut after any number of its actions, and an operation held in a wait at the poll of it. -/
theorem resetCutsAnOperationShort : Obligations.ResetCutsAnOperationShort := by
  refine ⟨fun s d n ns hs hq hr he => ⟨fun hn => ?cut, fun hn => ?uncut⟩, fun s i k ns hs hk hinit hgate hr he => ?held⟩
  case cut =>
    refine ⟨_, exec_binit_cut hn hs hq hr he, ?_, ?_, ?_, ?_, ?_, rfl, rfl, step_asserted rfl⟩
    all_goals
      interval_cases n <;> simp [binitActions, resetArrived, recordContract]
  case uncut =>
    refine ⟨_, exec_binit_uncut hn hs hq hr he, ?_, rfl, rfl, rfl, hr, rfl⟩
    simp [binitActions, withResets, recordContract]
  case held => exact (step_waiting hr hs).trans (exec_held_cut hs hk hr hinit hgate (waitIdle_now k hr he) rfl)

end Sys2Proof.Machine
end
